-- ==== Sys2Proof/Word.lean ====
section
/-! DEFINITION. The values AES-CORE works on (spec/00_scope.md R11): Bytes, Words, Blocks, key words, host transactions. -/

namespace Sys2Proof

/-- An 8-bit unsigned value (R11). -/
abbrev Byte := BitVec 8

/-- A 32-bit unsigned value: a register, a command word, a DMA address (R11). -/
abbrev Word := BitVec 32

/-- Exactly 16 Bytes, Byte 0 first (R11, R12). -/
abbrev Block := Vector Byte 16

/-- A key-schedule word: 4 Bytes (R11). -/
abbrev KeyWord := Vector Byte 4

/-- The raw key registers: 32 Bytes (spec/10_state.md R43). -/
abbrev KeyBytes := Vector Byte 32

/-- A host transaction T = WE, OFF, DATA (spec/30_encoding.md R111). -/
abbrev Transaction := BitVec 41

/-- The Block of sixteen zero Bytes, `0^128` (spec/40_key_schedule.md R151). -/
def Block.zero : Block := Vector.replicate 16 0

end Sys2Proof
end

