-- ==== Sys2Proof/Machine/State.lean ====
section
/-! DEFINITION. The state of AES-CORE (spec/10_state.md), the parameters of spec/00_scope.md R10 as plain data, the faults and refusals, and the state after reset. -/

namespace Sys2Proof.Machine

/-- The error codes of spec/60_exceptions.md R292; codes 7 to 15 are never produced. -/
inductive Error where
  | none
  | invalidKeyLength
  | misalignedLength
  | uninitializedTables
  | noSchedule
  | illegalCommand
  | busError
  deriving DecidableEq, Repr

/-- A CipherContext: the round-key store of one direction with its VALID bit and round count
(spec/10_state.md R37, R49, R50). -/
structure Context where
  valid : Bool
  nr : BitVec 4
  rows : Vector Block 15
  deriving DecidableEq, Repr

/-- Both contexts after reset: invalid, all-zero rows (R58). -/
def Context.empty : Context := { valid := false, nr := 0, rows := Vector.replicate 15 Block.zero }

/-- What a command in RUN holds until its completion (R52): its completion code, the working copies of the
registers it may write, and its DMA writes in order. -/
structure Job where
  /-- The code it completes with. -/
  error : Error
  iv : Block
  ks : Block
  offset : BitVec 4
  bout : Block
  enc : Context
  dec : Context
  tablesReady : Bool
  /-- POS at completion (R53). -/
  pos : Nat
  /-- The Bytes it writes by DMA: address and value. -/
  writes : List (Word × Byte)
  /-- It reaches the DMA space, so the ranges may not be touched while it runs (R94). -/
  dma : Bool
  /-- Mem answers all its accesses; where not, it never completes (spec/70_reset_and_hazards.md R346). -/
  answers : Bool
  /-- How many more host events are served before it completes (U7). -/
  left : Nat
  deriving DecidableEq, Repr

/-- PHASE (R52); the working copies exist only in RUN. -/
inductive Phase where
  | idle
  | run (job : Job)
  deriving DecidableEq, Repr

/-- How Mem answers an access (spec/20_memory.md R88, R90; spec/70_reset_and_hazards.md R346). -/
inductive Answer where
  /-- A Byte, or an accepted write. -/
  | ordinary
  /-- A bus error (R88). -/
  | busError
  /-- No answer, ever (R346). -/
  | never
  /-- A device, whose accesses are not those of ordinary memory (R90, U6). -/
  | device
  deriving DecidableEq, Repr

/-- A region of the DMA space that does not answer as ordinary memory does. -/
structure Region where
  base : Nat
  size : Nat
  onRead : Answer
  onWrite : Answer
  deriving DecidableEq, Repr

/-- The platform parameters of spec/00_scope.md R10. No instruction and no reset changes them; the answers of Mem
change between commands by `HostEvent.memoryAnswers`. -/
structure Platform where
  /-- REG_BASE divided by 256: the window is aligned to 256 bytes (spec/20_memory.md R82). -/
  regPage : Nat
  /-- DMA_COHERENT (R97). -/
  dmaCoherent : Bool
  /-- How Mem answers the accesses of the DMA port (R88): the regions in which it does not as ordinary memory. A command
  reads and writes each address at most once (R89), and takes the answers as they stand at its acceptance. -/
  memMap : List Region
  deriving DecidableEq, Repr

/-- The width of a host access to the window (R83). -/
inductive AccessSize where
  | byte
  | half
  | word
  deriving DecidableEq, Repr

/-- What the host, another bus master or Mem does next. -/
inductive HostEvent where
  /-- A 32-bit access to the window, as the transaction T (spec/30_encoding.md R111). -/
  | transaction (t : Transaction)
  /-- An access at an address of the host's map (spec/20_memory.md R82, R83). -/
  | busAccess (write : Bool) (addr : Nat) (size : AccessSize) (value : Word)
  /-- A load from the DMA space by the host, through its caches (R94, R97). -/
  | load (addr : Word)
  /-- A store to the DMA space by the host, through its caches (R94, R97). -/
  | store (addr : Word) (value : Byte)
  /-- A load from the DMA space by another bus master (R94). -/
  | masterLoad (addr : Word)
  /-- A store to the DMA space by another bus master (R94). -/
  | masterStore (addr : Word) (value : Byte)
  /-- The host cleans its caches over `size` Bytes from `base` (R97). -/
  | cacheClean (base size : Word)
  /-- The host invalidates its caches over `size` Bytes from `base` (R97). -/
  | cacheInvalidate (base size : Word)
  /-- From now on Mem answers the DMA port by this map; a command in RUN keeps the answers it was accepted with (R88). -/
  | memoryAnswers (memMap : List Region)
  /-- The reset input is asserted and released (spec/70_reset_and_hazards.md R330). -/
  | reset
  deriving DecidableEq, Repr

/-- What the last host event was answered: an output, no state of AES-CORE. -/
inductive Response where
  | none
  /-- A write reached the window. -/
  | written
  /-- The value of a register read (spec/43_host_access.md R270). -/
  | data (value : Word)
  /-- A bus error response (spec/20_memory.md R83). -/
  | busError
  /-- The Byte of a load from the DMA space. -/
  | memory (value : Byte)
  deriving DecidableEq, Repr

/-- The Bytes of the DMA space: addresses strictly rising, no Byte equal to what an unlisted address reads
as (0, notes/assumptions/5.md). -/
abbrev Memory := List Host.Cell

/-- The whole state. The register fields follow spec/10_state.md R31 to R53. -/
structure State where
  /-- CTRL.IE (R34). -/
  ie : Bool
  /-- CTRL.CTRINC (R34). -/
  ctrInc : BitVec 2
  /-- STATUS.DONE (R36). -/
  done : Bool
  /-- STATUS.ERRCODE, and STATUS.ERR, which is 1 exactly when it is not 0 (R36). -/
  errCode : Error
  /-- STATUS.WIGN (R36). -/
  wign : Bool
  /-- STATUS.TABLES_READY (R51). -/
  tablesReady : Bool
  /-- RK_E, ENC_VALID, ENC_NR (R50). -/
  enc : Context
  /-- RK_D, DEC_VALID, DEC_NR (R50). -/
  dec : Context
  /-- KEYLEN (R38). -/
  keyLen : Word
  /-- OFFSET (R39). -/
  offset : BitVec 4
  /-- LEN (R40). -/
  len : Word
  /-- SRC (R41). -/
  src : Word
  /-- DST (R42). -/
  dst : Word
  /-- KEY0..KEY7 (R43). -/
  key : KeyBytes
  /-- IV0..IV3 (R44). -/
  iv : Block
  /-- KS0..KS3 (R45). -/
  ks : Block
  /-- BIN0..BIN3 (R47). -/
  bin : Block
  /-- BOUT0..BOUT3 (R48). -/
  bout : Block
  /-- PHASE and the working copies (R52). -/
  phase : Phase
  /-- OP (R52). -/
  op : BitVec 8
  /-- POS (R53). -/
  pos : Nat
  /-- The Bytes of the DMA space, as the DMA port finds them (spec/20_memory.md R88). -/
  mem : Memory
  /-- REG_BASE, DMA_COHERENT and the answers of Mem (spec/00_scope.md R10). -/
  platform : Platform
  /-- Host stores not yet visible to the DMA port, one for an address: they wait in the host's caches until cleaned
  (spec/20_memory.md R97). The model's own. -/
  hostDirty : List (Word × Byte)
  /-- Addresses written by DMA that the host has not invalidated (R97). The model's own. -/
  hostStale : List Word
  /-- The host events not yet served, oldest first. The model's own. -/
  inputs : List HostEvent
  /-- For each command to come, how many host events are served while it is in RUN; a command the list does
  not reach completes before the next one (U7). The model's own. -/
  stall : List Nat
  /-- The counter the free values are applied to. The model's own. -/
  freeCount : Nat
  /-- The answer to the last host event. The model's own. -/
  response : Response
  deriving DecidableEq, Repr

/-- Why the machine stops. -/
inductive Fault where
  /-- Raised by a mode command whose source and destination ranges partially overlap (spec/20_memory.md R93:
  a model must treat such a command as a fault). Safe. -/
  | overlap
  /-- Raised by a load, store or cache clean of another agent that reads the destination range of the running command or
  writes one of its ranges (R94: a model treats it as a race and faults). Safe. -/
  | race
  /-- Raised on a platform whose DMA is not coherent by a mode command whose source range the host did not clean and by
  a host load of a DMA write it did not invalidate, the two duties of R97 (R98: without that premise a model must fault).
  Safe. -/
  | hostCache
  /-- Raised by no step; `Safety.claimStep` gives it where a command completes with BUS_ERROR, as
  spec/60_exceptions.md R303 and R316 ask of a claim about a program. Safe. -/
  | busError
  deriving DecidableEq, Repr

/-- Why an instruction has no meaning here. -/
inductive Refusal where
  /-- Raised by `exec` for an instruction not yet given a meaning. Safe. -/
  | notModelled (mnemonic : String)
  /-- Raised by a mode command one of whose ranges reaches a device: the spec does not define the results
  (spec/20_memory.md R90; U6 says refuse). Safe. -/
  | deviceRange
  deriving DecidableEq, Repr

/-- The parameters State.reset is written for: window at 0, coherent DMA, every address ordinary memory.
DESIGN CHOICE, notes/assumptions/6.md. -/
def Platform.default : Platform := { regPage := 0, dmaCoherent := true, memMap := [] }

/-- The machine right after reset (spec/10_state.md R58), nothing asked of it yet. -/
def State.reset : State where
  ie := false
  ctrInc := 0
  done := false
  errCode := .none
  wign := false
  tablesReady := false
  enc := Context.empty
  dec := Context.empty
  keyLen := 0
  offset := 0
  len := 0
  src := 0
  dst := 0
  key := Vector.replicate 32 0
  iv := Block.zero
  ks := Block.zero
  bin := Block.zero
  bout := Block.zero
  phase := .idle
  op := 0
  pos := 0
  mem := []
  platform := Platform.default
  hostDirty := []
  hostStale := []
  inputs := []
  stall := []
  freeCount := 0
  response := .none

end Sys2Proof.Machine
end

