-- ==== Sys2Proof/Machine/Field.lean ====
section
/-! DEFINITION. GF(2^8) and the substitution tables (spec/40_key_schedule.md R140 to R142). -/

namespace Sys2Proof.Machine

/-- Left shift by one, 0x1B folded in where bit 7 was 1 (R140). -/
def xtime (a : Byte) : Byte := (a <<< 1) ^^^ (if a.getLsbD 7 then 0x1b else 0)

/-- `n` rounds of R140's product: `a` doubles, the bits of `b` are taken from bit 0 up, `r` collects. -/
def gfMulFrom : Nat → Byte → Byte → Byte → Byte
  | 0, _, _, r => r
  | n + 1, a, b, r => gfMulFrom n (xtime a) (b >>> 1) (if b.getLsbD 0 then r ^^^ a else r)

/-- `a • b` in GF(2^8) (R140). -/
def gfMul (a b : Byte) : Byte := gfMulFrom 8 a b 0

/-- The Byte in column `col` of a table row written as 32 hex digits. -/
def rowByte (row : BitVec 128) (col : Nat) : Byte := row.extractLsb' (8 * (15 - col)) 8

/-- The S-box table, a row for each high hex digit (R141). -/
def sboxRow : Nat → BitVec 128
  | 0 => 0x637c777bf26b6fc53001672bfed7ab76
  | 1 => 0xca82c97dfa5947f0add4a2af9ca472c0
  | 2 => 0xb7fd9326363ff7cc34a5e5f171d83115
  | 3 => 0x04c723c31896059a071280e2eb27b275
  | 4 => 0x09832c1a1b6e5aa0523bd6b329e32f84
  | 5 => 0x53d100ed20fcb15b6acbbe394a4c58cf
  | 6 => 0xd0efaafb434d338545f9027f503c9fa8
  | 7 => 0x51a3408f929d38f5bcb6da2110fff3d2
  | 8 => 0xcd0c13ec5f974417c4a77e3d645d1973
  | 9 => 0x60814fdc222a908846eeb814de5e0bdb
  | 10 => 0xe0323a0a4906245cc2d3ac629195e479
  | 11 => 0xe7c8376d8dd54ea96c56f4ea657aae08
  | 12 => 0xba78252e1ca6b4c6e8dd741f4bbd8b8a
  | 13 => 0x703eb5664803f60e613557b986c11d9e
  | 14 => 0xe1f8981169d98e949b1e87e9ce5528df
  | _ => 0x8ca1890dbfe6426841992d0fb054bb16

/-- SBOX[a] (R141). -/
def sbox (a : Byte) : Byte := rowByte (sboxRow (a.toNat / 16)) (a.toNat % 16)

/-- The inverse S-box table, a row for each high hex digit (R142). -/
def invSboxRow : Nat → BitVec 128
  | 0 => 0x52096ad53036a538bf40a39e81f3d7fb
  | 1 => 0x7ce339829b2fff87348e4344c4dee9cb
  | 2 => 0x547b9432a6c2233dee4c950b42fac34e
  | 3 => 0x082ea16628d924b2765ba2496d8bd125
  | 4 => 0x72f8f66486689816d4a45ccc5d65b692
  | 5 => 0x6c704850fdedb9da5e154657a78d9d84
  | 6 => 0x90d8ab008cbcd30af7e45805b8b34506
  | 7 => 0xd02c1e8fca3f0f02c1afbd0301138a6b
  | 8 => 0x3a9111414f67dcea97f2cfcef0b4e673
  | 9 => 0x96ac7422e7ad3585e2f937e81c75df6e
  | 10 => 0x47f11a711d29c5896fb7620eaa18be1b
  | 11 => 0xfc563e4bc6d279209adbc0fe78cd5af4
  | 12 => 0x1fdda8338807c731b11210592780ec5f
  | 13 => 0x60517fa919b54a0d2de57a9f93c99cef
  | 14 => 0xa0e03b4dae2af5b0c8ebbb3c83539961
  | _ => 0x172b047eba77d626e169146355210c7d

/-- INVSBOX[a] (R142). -/
def invSbox (a : Byte) : Byte := rowByte (invSboxRow (a.toNat / 16)) (a.toNat % 16)

end Sys2Proof.Machine
end

