-- ==== Sys2Proof/Config.lean ====
section
/-! DEFINITION. What the spec leaves open and the model fixes nowhere: the external increment and the free values. None has a body, so a statement holds whatever they are. -/

namespace Sys2Proof.Config

/-- ExtInc, the external counter increment: a total function of the Block and nothing else
(spec/00_scope.md R10, spec/42_modes.md R244, U1). notes/assumptions/7.md. -/
opaque extInc : Block → Block

/-- Whether the `i`-th Byte of the `n`-th use holds its new value (spec/42_modes.md R222,
spec/70_reset_and_hazards.md R331; U4, U5). notes/assumptions/8.md, 14.md, 19.md. -/
opaque freeBool (n i : Nat) : Bool

/-- How far a command that a bus error ended had come (spec/10_state.md R53). notes/assumptions/20.md. -/
opaque freePos (n : Nat) : Nat

end Sys2Proof.Config
end

