-- ==== Sys2Proof/Syntax.lean ====
section
/-! DEFINITION. The instructions: one constructor for each of the 17 rows of spec/opcode_table.json. -/

namespace Sys2Proof

/-- A host transaction, decoded (spec/30_encoding.md R113, R114). Commands have no operand but the registers (R115). -/
inductive Instr where
  /-- INIT, opcode 0x01 (spec/40_key_schedule.md R150). -/
  | init
  /-- KEXP_ENC, opcode 0x02 (R151). -/
  | kexpEnc
  /-- KEXP_DEC, opcode 0x03 (R152). -/
  | kexpDec
  /-- ENC_BLOCK, opcode 0x04 (spec/41_block_core.md R191). -/
  | encBlock
  /-- DEC_BLOCK, opcode 0x05 (R192). -/
  | decBlock
  /-- RESET_MODE, opcode 0x06 (spec/42_modes.md R236). -/
  | resetMode
  /-- ECB_ENC, opcode 0x10 (R223). -/
  | ecbEnc
  /-- ECB_DEC, opcode 0x11 (R224). -/
  | ecbDec
  /-- CBC_ENC, opcode 0x12 (R225). -/
  | cbcEnc
  /-- CBC_DEC, opcode 0x13 (R226). -/
  | cbcDec
  /-- CFB_ENC, opcode 0x14 (R229). -/
  | cfbEnc
  /-- CFB_DEC, opcode 0x15 (R230). -/
  | cfbDec
  /-- OFB_CRYPT, opcode 0x16 (R232). -/
  | ofbCrypt
  /-- CTR_CRYPT, opcode 0x17 (R234). -/
  | ctrCrypt
  /-- CMD_ILLEGAL: a write to CMD of a word that is no command (spec/60_exceptions.md R297). -/
  | cmdIllegal (word : Word)
  /-- REG_WRITE: a write of `value` to the register at `off` (spec/43_host_access.md R271). -/
  | regWrite (off : BitVec 8) (value : Word)
  /-- REG_READ: a read of the register at `off` (R270). -/
  | regRead (off : BitVec 8)
  deriving DecidableEq, Repr

end Sys2Proof
end

