-- ==== Sys2Proof/WellFormed.lean ====
section
/-! DEFINITION. Which instructions some transaction encodes (spec/30_encoding.md R111 to R114). -/

namespace Sys2Proof

/-- The opcodes of R113. -/
def definedOpcodes : List Nat :=
  [0x01, 0x02, 0x03, 0x04, 0x05, 0x06, 0x10, 0x11, 0x12, 0x13, 0x14, 0x15, 0x16, 0x17]

/-- The word is a defined command: RSV = 0 and OPC in R113's table (R112). -/
def isCommandWord (w : Word) : Bool := definedOpcodes.contains w.toNat

/-- OFF is a multiple of 4 (R111). -/
def offsetAligned (off : BitVec 8) : Bool := off.toNat % 4 == 0

/-- The checks a decoded transaction satisfies: an illegal word is no command (R119), an offset is a
multiple of 4 (R111), and a REG_WRITE does not go to CMD, whose writes are commands (R114). -/
def Instr.wf : Instr → Bool
  | .init => true
  | .kexpEnc => true
  | .kexpDec => true
  | .encBlock => true
  | .decBlock => true
  | .resetMode => true
  | .ecbEnc => true
  | .ecbDec => true
  | .cbcEnc => true
  | .cbcDec => true
  | .cfbEnc => true
  | .cfbDec => true
  | .ofbCrypt => true
  | .ctrCrypt => true
  | .cmdIllegal word => !isCommandWord word
  | .regWrite off _ => offsetAligned off && off != 0x04
  | .regRead off => offsetAligned off

end Sys2Proof
end

