-- ==== Sys2Proof/Decode.lean ====
section
/-! DEFINITION. Decoding of a host transaction (spec/30_encoding.md R111 to R114), total, rejecting by name; then the encoder and the opcode table. -/

namespace Sys2Proof

/-- Why a transaction is not one of the table's. -/
inductive DecodeReject where
  /-- OFF[1:0] is not 0: the bus answers it with an error (R111, spec/20_memory.md R83). -/
  | misalignedOffset
  deriving DecidableEq, Repr

/-- WE, bit 40 of T (R111). -/
def Transaction.we (t : Transaction) : Bool := t.getLsbD 40

/-- OFF, bits 39:32 of T (R111). -/
def Transaction.off (t : Transaction) : BitVec 8 := t.extractLsb' 32 8

/-- DATA, bits 31:0 of T (R111). -/
def Transaction.data (t : Transaction) : Word := t.extractLsb' 0 32

/-- T from its fields (R111). -/
def Transaction.mk (we : Bool) (off : BitVec 8) (data : Word) : Transaction :=
  (BitVec.ofBool we).setWidth 41 <<< 40 ||| off.setWidth 41 <<< 32 ||| data.setWidth 41

/-- OPC, bits 7:0 of the command word (R112). -/
def opcodeOf (w : Word) : BitVec 8 := w.extractLsb' 0 8

/-- The command word of R112, decoded with the map of R113; every other word is illegal (R119). -/
def decodeCommand (w : Word) : Instr :=
  match w.toNat with
  | 0x01 => .init
  | 0x02 => .kexpEnc
  | 0x03 => .kexpDec
  | 0x04 => .encBlock
  | 0x05 => .decBlock
  | 0x06 => .resetMode
  | 0x10 => .ecbEnc
  | 0x11 => .ecbDec
  | 0x12 => .cbcEnc
  | 0x13 => .cbcDec
  | 0x14 => .cfbEnc
  | 0x15 => .cfbDec
  | 0x16 => .ofbCrypt
  | 0x17 => .ctrCrypt
  | _ => .cmdIllegal w

/-- The transaction decoder of R114. A read's DATA is not looked at (its row's mask has only WE). -/
def decode (t : Transaction) : Except DecodeReject Instr :=
  if !offsetAligned t.off then .error .misalignedOffset
  else if !t.we then .ok (.regRead t.off)
  else if t.off == 0x04 then .ok (decodeCommand t.data)
  else .ok (.regWrite t.off t.data)

/-- The command word of an instruction that is a write to CMD (R113). -/
def commandWord : Instr → Option Word
  | .init => some 0x01
  | .kexpEnc => some 0x02
  | .kexpDec => some 0x03
  | .encBlock => some 0x04
  | .decBlock => some 0x05
  | .resetMode => some 0x06
  | .ecbEnc => some 0x10
  | .ecbDec => some 0x11
  | .cbcEnc => some 0x12
  | .cbcDec => some 0x13
  | .cfbEnc => some 0x14
  | .cfbDec => some 0x15
  | .ofbCrypt => some 0x16
  | .ctrCrypt => some 0x17
  | .cmdIllegal word => some word
  | .regWrite _ _ => none
  | .regRead _ => none

/-- The transaction of an instruction (R111, R122). -/
def encode (i : Instr) : Transaction :=
  match i with
  | .regWrite off value => Transaction.mk true off value
  | .regRead off => Transaction.mk false off 0
  | i => Transaction.mk true 0x04 ((commandWord i).getD 0)

/-- The row of spec/opcode_table.json an instruction belongs to. -/
def Instr.mnemonic : Instr → String
  | .init => "INIT"
  | .kexpEnc => "KEXP_ENC"
  | .kexpDec => "KEXP_DEC"
  | .encBlock => "ENC_BLOCK"
  | .decBlock => "DEC_BLOCK"
  | .resetMode => "RESET_MODE"
  | .ecbEnc => "ECB_ENC"
  | .ecbDec => "ECB_DEC"
  | .cbcEnc => "CBC_ENC"
  | .cbcDec => "CBC_DEC"
  | .cfbEnc => "CFB_ENC"
  | .cfbDec => "CFB_DEC"
  | .ofbCrypt => "OFB_CRYPT"
  | .ctrCrypt => "CTR_CRYPT"
  | .cmdIllegal _ => "CMD_ILLEGAL"
  | .regWrite _ _ => "REG_WRITE"
  | .regRead _ => "REG_READ"

/-- One row of spec/opcode_table.json. -/
structure OpcodeRow where
  mnemonic : String
  pattern : Nat
  mask : Nat
  deriving DecidableEq, Repr

/-- spec/opcode_table.json, in table order. -/
def opcodeTable : List OpcodeRow :=
  [⟨"INIT", 0x10400000001, 0x1FFFFFFFFFF⟩, ⟨"KEXP_ENC", 0x10400000002, 0x1FFFFFFFFFF⟩,
   ⟨"KEXP_DEC", 0x10400000003, 0x1FFFFFFFFFF⟩, ⟨"ENC_BLOCK", 0x10400000004, 0x1FFFFFFFFFF⟩,
   ⟨"DEC_BLOCK", 0x10400000005, 0x1FFFFFFFFFF⟩, ⟨"RESET_MODE", 0x10400000006, 0x1FFFFFFFFFF⟩,
   ⟨"ECB_ENC", 0x10400000010, 0x1FFFFFFFFFF⟩, ⟨"ECB_DEC", 0x10400000011, 0x1FFFFFFFFFF⟩,
   ⟨"CBC_ENC", 0x10400000012, 0x1FFFFFFFFFF⟩, ⟨"CBC_DEC", 0x10400000013, 0x1FFFFFFFFFF⟩,
   ⟨"CFB_ENC", 0x10400000014, 0x1FFFFFFFFFF⟩, ⟨"CFB_DEC", 0x10400000015, 0x1FFFFFFFFFF⟩,
   ⟨"OFB_CRYPT", 0x10400000016, 0x1FFFFFFFFFF⟩, ⟨"CTR_CRYPT", 0x10400000017, 0x1FFFFFFFFFF⟩] ++
  [⟨"CMD_ILLEGAL", 0x10400000000, 0x1FF00000000⟩, ⟨"REG_WRITE", 0x10000000000, 0x10000000000⟩,
   ⟨"REG_READ", 0x00000000000, 0x10000000000⟩]

/-- The row matches T (R114). -/
def OpcodeRow.fits (r : OpcodeRow) (t : Transaction) : Bool := t.toNat &&& r.mask == r.pattern

/-- The instruction the decoder reads from the bits `w` of a table row of `nbits` bits. T has 41 bits, so a
bit above them makes no transaction. -/
def decodeTableWord (nbits w : Nat) : Option Instr :=
  if w % 2 ^ nbits < 2 ^ 41 then (decode (BitVec.ofNat 41 (w % 2 ^ nbits))).toOption else none

end Sys2Proof
end

