-- ==== Sys2Proof/Machine/Operands.lean ====
section
/-! DEFINITION. Operand forms: byte lanes (spec/10_state.md R33), KEYLEN (spec/30_encoding.md R115), the register map (R31), DMA ranges (spec/20_memory.md R86) and how Mem answers on them (R88). -/

namespace Sys2Proof.Machine

/-- Exclusive-or of Blocks, Byte by Byte (spec/00_scope.md R13). -/
def xorBlock (a b : Block) : Block := Vector.zipWith (· ^^^ ·) a b

/-- Exclusive-or of key-schedule words (R13). -/
def xorWord (a b : KeyWord) : KeyWord := Vector.zipWith (· ^^^ ·) a b

/-- A Block written as 32 hex digits, Byte 0 first (R12). -/
def blockOfHex (v : BitVec 128) : Block := Vector.ofFn fun k => v.extractLsb' (8 * (15 - k.val)) 8

/-- Byte `k` of a buffer. -/
def byteAt {m : Nat} (v : Vector Byte m) (k : Nat) : Byte := v[k]?.getD 0

/-- Register `n` of a buffer's group: Byte 4n in the least significant lane (R33). -/
def readLanes {m : Nat} (v : Vector Byte m) (n : Nat) : Word :=
  byteAt v (4 * n + 3) ++ byteAt v (4 * n + 2) ++ byteAt v (4 * n + 1) ++ byteAt v (4 * n)

/-- The buffer after a write of `w` to register `n` of its group (R33). -/
def writeLanes {m : Nat} (v : Vector Byte m) (n : Nat) (w : Word) : Vector Byte m :=
  Vector.ofFn fun k => if k.val / 4 = n then w.extractLsb' (8 * (k.val % 4)) 8 else v[k]

/-- (Nk, Nr) of a legal KEYLEN (spec/30_encoding.md R115). -/
def keyParams (keyLen : Word) : Option (Nat × Nat) :=
  match keyLen.toNat with
  | 16 => some (4, 10)
  | 128 => some (4, 10)
  | 24 => some (6, 12)
  | 192 => some (6, 12)
  | 32 => some (8, 14)
  | 256 => some (8, 14)
  | _ => none

/-- A register of the window (spec/10_state.md R31). -/
inductive Reg where
  | ctrl
  | cmd
  | status
  | sched
  | keyLen
  | offset
  | len
  | src
  | dst
  | key (n : Fin 8)
  | iv (n : Fin 4)
  | ks (n : Fin 4)
  | bin (n : Fin 4)
  | bout (n : Fin 4)
  | reserved
  deriving DecidableEq, Repr

/-- The register at an offset (R31). -/
def regAt (off : BitVec 8) : Reg :=
  let i := off.toNat / 4
  if i < 9 then
    match i with
    | 0 => .ctrl
    | 1 => .cmd
    | 2 => .status
    | 3 => .sched
    | 4 => .keyLen
    | 5 => .offset
    | 6 => .len
    | 7 => .src
    | _ => .dst
  else if i < 16 then .reserved
  else if i < 24 then .key (Fin.ofNat 8 (i - 16))
  else if i < 28 then .iv (Fin.ofNat 4 (i - 24))
  else if i < 32 then .ks (Fin.ofNat 4 (i - 28))
  else if i < 36 then .bin (Fin.ofNat 4 (i - 32))
  else if i < 40 then .bout (Fin.ofNat 4 (i - 36))
  else .reserved

/-- The address lies in the range of `size` Bytes from `base`, which wraps modulo 2^32 (spec/20_memory.md R86). -/
def inRange (base size a : Word) : Bool := (a - base).toNat < size.toNat

/-- The address of input Byte `i`, SRC + i (R86). -/
def State.srcAddr (s : State) (i : Nat) : Word := s.src + BitVec.ofNat 32 i

/-- The address of output Byte `i`, DST + i (R86). -/
def State.dstAddr (s : State) (i : Nat) : Word := s.dst + BitVec.ofNat 32 i

/-- Partial overlap: DST is not SRC and the ranges share an address (R93). -/
def State.rangesOverlap (s : State) : Bool :=
  s.dst != s.src && (inRange s.src s.len s.dst || inRange s.dst s.len s.src)

/-- The region covers the address. -/
def Region.covers (r : Region) (a : Word) : Bool := r.base ≤ a.toNat && a.toNat < r.base + r.size

/-- How Mem answers a DMA read (R88). -/
def Platform.onRead (p : Platform) (a : Word) : Answer :=
  match p.memMap.find? (·.covers a) with
  | some r => r.onRead
  | none => .ordinary

/-- How Mem answers a DMA write (R88). -/
def Platform.onWrite (p : Platform) (a : Word) : Answer :=
  match p.memMap.find? (·.covers a) with
  | some r => r.onWrite
  | none => .ordinary

/-- Reads of the address, or writes of it, are those of a device (R90). -/
def Platform.isDevice (p : Platform) (a : Word) : Bool := p.onRead a == .device || p.onWrite a == .device

/-- Some address of the source or destination range belongs to a device, to its reads or to its writes (R90, U6). -/
def State.deviceInRange (s : State) : Bool :=
  (List.range s.len.toNat).any fun i => s.platform.isDevice (s.srcAddr i) || s.platform.isDevice (s.dstAddr i)

/-- Some host store to the source range is not yet visible to the DMA port (R96, R97). -/
def State.hostCacheHazard (s : State) : Bool :=
  !s.platform.dmaCoherent && s.hostDirty.any fun d => inRange s.src s.len d.1

end Sys2Proof.Machine
end

