-- ==== Sys2Proof/Machine/Flags.lean ====
section
/-! DEFINITION. CTRL, STATUS and SCHED as words, their fields, the acceptance checks and the interrupt line (spec/10_state.md R34 to R37, spec/60_exceptions.md). -/

namespace Sys2Proof.Machine

/-- The number of an error code (spec/60_exceptions.md R292). -/
def Error.code : Error → BitVec 4
  | .none => 0
  | .invalidKeyLength => 1
  | .misalignedLength => 2
  | .uninitializedTables => 3
  | .noSchedule => 4
  | .illegalCommand => 5
  | .busError => 6

/-- STATUS.ERR: ERRCODE is not 0 (spec/10_state.md R36). -/
def State.err (s : State) : Bool := s.errCode != .none

/-- STATUS.BUSY: PHASE is RUN (R52). -/
def State.busy (s : State) : Bool :=
  match s.phase with
  | .idle => false
  | .run _ => true

/-- The interrupt output (R55). -/
def State.irq (s : State) : Bool := s.ie && s.done

/-- A 1-bit field at bit `n` of a register. -/
def bitField (b : Bool) (n : Nat) : Word := (BitVec.ofBool b).setWidth 32 <<< n

/-- CTRL as read (R34). -/
def State.ctrlWord (s : State) : Word := bitField s.ie 0 ||| s.ctrInc.setWidth 32 <<< 4

/-- STATUS as read (R36). -/
def State.statusWord (s : State) : Word :=
  bitField s.busy 0 ||| bitField s.done 1 ||| bitField s.err 2 ||| bitField s.wign 3 |||
  s.errCode.code.setWidth 32 <<< 8 ||| bitField s.tablesReady 16 ||| bitField s.enc.valid 17 |||
  bitField s.dec.valid 18

/-- SCHED as read (R37). -/
def State.schedWord (s : State) : Word := s.enc.nr.setWidth 32 ||| s.dec.nr.setWidth 32 <<< 8

/-- A write of `v` to CTRL (spec/43_host_access.md R278). -/
def State.writeCtrl (s : State) (v : Word) : State :=
  { s with ie := v.getLsbD 0, ctrInc := v.extractLsb' 4 2 }

/-- A write of 1 to STATUS.DONE, the host's acknowledgement of a completion: DONE, ERR and ERRCODE fall
(spec/60_exceptions.md R307). The return that pairs with `State.complete`. -/
def State.acknowledge (s : State) : State := { s with done := false, errCode := .none }

/-- A write of `v` to STATUS, honoured in every phase (spec/43_host_access.md R274). -/
def State.writeStatus (s : State) (v : Word) : State :=
  let t := if v.getLsbD 1 then s.acknowledge else s
  if v.getLsbD 3 then { t with wign := false } else t

/-- UNINITIALIZED_TABLES (spec/60_exceptions.md R295). -/
def State.tablesCheck (s : State) : Error := if s.tablesReady then .none else .uninitializedTables

/-- INVALID_KEY_LENGTH (R293). -/
def State.keyLenCheck (s : State) : Error :=
  if (keyParams s.keyLen).isSome then .none else .invalidKeyLength

/-- NO_SCHEDULE of a command that needs the context (R296). -/
def Context.check (c : Context) : Error := if c.valid then .none else .noSchedule

/-- MISALIGNED_LENGTH (R294). -/
def State.lengthCheck (s : State) : Error := if s.len.toNat % 16 = 0 then .none else .misalignedLength

/-- The first failing check of a command's list, which stands in the order of R299; `none` where all pass. -/
def firstError : List Error → Error
  | [] => .none
  | .none :: rest => firstError rest
  | e :: _ => e

end Sys2Proof.Machine
end

