-- ==== Sys2Proof/Machine/Ops.lean ====
section
/-! DEFINITION. The operations instructions share: memory, acceptance of a command (spec/60_exceptions.md R300), its completion (R301), and the DMA of a mode command (spec/42_modes.md R220 to R222). -/

namespace Sys2Proof.Machine

/-! ## Memory (spec/20_memory.md R88) -/

/-- The Byte at an address; an unlisted address reads as 0 (notes/assumptions/5.md). -/
def Memory.get : Memory → Nat → Byte
  | [], _ => 0
  | (k, v) :: m, a => if a = k then v else Memory.get m a

/-- A cell, unless its Byte is what an unlisted address reads as. -/
def Memory.cons (a : Nat) (b : Byte) (m : Memory) : Memory := if b = 0 then m else (a, b) :: m

/-- The memory after a store of `b` at `a`, in canonical form. -/
def Memory.set : Memory → Nat → Byte → Memory
  | [], a, b => Memory.cons a b []
  | (k, v) :: m, a, b =>
    if a < k then Memory.cons a b ((k, v) :: m)
    else if a = k then Memory.cons a b m
    else (k, v) :: Memory.set m a b

/-- The canonical form: addresses strictly rising from `lo` and below 2^32, no Byte 0. -/
def Memory.wfFrom (lo : Nat) : Memory → Bool
  | [] => true
  | (k, v) :: m => decide (lo ≤ k) && decide (k < 2 ^ 32) && v != 0 && Memory.wfFrom (k + 1) m

/-- The canonical form of a memory. -/
def Memory.wf (m : Memory) : Bool := Memory.wfFrom 0 m

/-- The stores of a command, in order. -/
def Memory.setAll (m : Memory) (writes : List (Word × Byte)) : Memory :=
  writes.foldl (fun m w => m.set w.1.toNat w.2) m

/-- The Byte at a DMA address. -/
def State.byte (s : State) (a : Word) : Byte := s.mem.get a.toNat

/-- The state after DMA writes. On a platform that is not coherent the host's caches may still hide them
(spec/20_memory.md R97), and an older host store to a written address is lost to them (R98; notes/assumptions/14.md). -/
def State.storeAll (s : State) (writes : List (Word × Byte)) : State :=
  { s with
    mem := s.mem.setAll writes
    hostDirty := if s.platform.dmaCoherent then s.hostDirty
      else s.hostDirty.filter fun d => !writes.any fun w => w.1 == d.1
    hostStale := if s.platform.dmaCoherent then s.hostStale else writes.map (·.1) ++ s.hostStale }

/-- Of a list of writes, those that happened to be performed: a free choice for each (spec/42_modes.md R222,
spec/70_reset_and_hazards.md R331). -/
def someWrites (n : Nat) (writes : List (Word × Byte)) : List (Word × Byte) :=
  (writes.zipIdx.filter fun w => Config.freeBool n w.2).map (·.1)

/-! ## Acceptance and completion -/

/-- The registers a command is given at acceptance, as working copies (spec/10_state.md R52). -/
def State.workingCopies (s : State) : Job where
  error := .none
  iv := s.iv
  ks := s.ks
  offset := s.offset
  bout := s.bout
  enc := s.enc
  dec := s.dec
  tablesReady := s.tablesReady
  pos := 0
  writes := []
  dma := false
  answers := true
  left := 0

/-- What acceptance of the command word does before its checks (spec/60_exceptions.md R300). Each acceptance
takes a new free-value index. -/
def State.accept (s : State) (word : Word) : State :=
  { s with
    done := false
    errCode := .none
    op := opcodeOf word
    pos := 0
    freeCount := s.freeCount + 1 }

/-- Completion (R301): for code 0 the results are written back; the DMA writes are performed before DONE rises
(spec/20_memory.md R95). -/
def State.finish (s : State) (job : Job) : State :=
  let t := s.storeAll job.writes
  let t := match job.error with
    | .none => { t with
        iv := job.iv, ks := job.ks, offset := job.offset, bout := job.bout
        enc := job.enc, dec := job.dec, tablesReady := job.tablesReady }
    | _ => t
  { t with pos := job.pos, errCode := job.error, phase := .idle, done := true }

/-- The command in RUN, if Mem answers it, completes. -/
def State.complete (s : State) : State :=
  match s.phase with
  | .idle => s
  | .run job => if job.answers then s.finish job else s

/-- The command enters RUN; where the tape says so, it completes before the next host event is served
(spec/70_reset_and_hazards.md R344: any finite number of reads, zero included). -/
def State.launch (s : State) (job : Job) : State :=
  let t := { s with phase := .run { job with left := s.stall.headD 0 }, stall := s.stall.tail }
  if s.stall.headD 0 = 0 then t.complete else t

/-- A host write dropped because BUSY = 1 (spec/43_host_access.md R272). -/
def State.dropWrite (s : State) : State := { s with wign := true }

/-- A write of `word` to CMD: dropped while BUSY (R272), else accepted, checked in the order of
spec/60_exceptions.md R299, and run. The one way a command is taken and an error raised. -/
def command (word : Word) (checks : State → List Error)
    (effect : State → Host.Outcome Job Fault Refusal) (s : State) : Host.Outcome State Fault Refusal :=
  if s.busy then .next s.dropWrite
  else
    let a := s.accept word
    match firstError (checks a) with
    | .none =>
      match effect a with
      | .next job => .next (a.launch job)
      | .fault r => .fault r
      | .refused r => .refused r
    | e => .next (a.launch { a.workingCopies with error := e })

/-! ## The DMA of a mode command -/

/-- The ModeState (spec/10_state.md R46). -/
structure ModeState where
  iv : Block
  ks : Block
  off : BitVec 4
  deriving DecidableEq, Repr

/-- The ModeState registers, as a command takes them at acceptance (spec/42_modes.md R220). -/
def State.modeState (s : State) : ModeState := { iv := s.iv, ks := s.ks, off := s.offset }

/-- Input Byte `i` (R220). Where Mem does not answer the read with a Byte, no write that needs it is issued
(`State.issuable`), so the value given here reaches nothing. -/
def State.inputByte (s : State) (i : Nat) : Byte := s.byte (s.srcAddr i)

/-- The source range, read whole (spec/20_memory.md R89, R92). -/
def State.inputBytes (s : State) : List Byte := (List.range s.len.toNat).map s.inputByte

/-- The writes of the output Bytes to DST + i (R89). -/
def State.outputWrites (s : State) (out : List Byte) : List (Word × Byte) :=
  out.zipIdx.map fun b => (s.dstAddr b.2, b.1)

/-- The successful run of a mode command whose rule is `mode` (R220). -/
def State.modeJob (s : State) (mode : ModeState → List Byte → ModeState × List Byte) : Job :=
  let r := mode s.modeState s.inputBytes
  { s.workingCopies with
    iv := r.1.iv
    ks := r.1.ks
    offset := r.1.off
    writes := s.outputWrites r.2
    dma := true
    pos := s.len.toNat }

/-- The write of output Byte `i` can be issued: Mem answers with a Byte each read that comes before it
(spec/20_memory.md R89, R91). `needs i j`: the read of input Byte `j` does. -/
def State.writeReached (s : State) (needs : Nat → Nat → Bool) (i : Nat) : Bool :=
  (List.range s.len.toNat).all fun j => !needs i j || s.platform.onRead (s.srcAddr j) == .ordinary

/-- Mem can come to answer the command with `w`: on a read, which no access need precede, or on a write that can be
issued (R91). -/
def State.canMeet (s : State) (needs : Nat → Nat → Bool) (w : Answer) : Bool :=
  (List.range s.len.toNat).any fun i =>
    s.platform.onRead (s.srcAddr i) == w || s.platform.onWrite (s.dstAddr i) == w && s.writeReached needs i

/-- A command that does not succeed can have performed the write of output Byte `i`: it can be issued, and Mem accepts
it. -/
def State.issuable (s : State) (needs : Nat → Nat → Bool) (i : Nat) : Bool :=
  s.platform.onWrite (s.dstAddr i) == .ordinary && s.writeReached needs i

/-- The writes a command that does not succeed can have performed. -/
def State.issuableWrites (s : State) (needs : Nat → Nat → Bool) (writes : List (Word × Byte)) :
    List (Word × Byte) := (writes.zipIdx.filter fun w => s.issuable needs w.2).map (·.1)

/-- The run that a bus error ends: the registers as at acceptance, each destination Byte old, or new where its write
can have been performed (spec/42_modes.md R222, spec/60_exceptions.md R303). -/
def State.busErrorJob (s : State) (writes : List (Word × Byte)) : Job :=
  { s.workingCopies with
    error := .busError
    writes := someWrites s.freeCount writes
    dma := true
    pos := Config.freePos s.freeCount % (s.len.toNat + 1) }

/-- A mode command after its checks (R220 to R222). It ends with BUS_ERROR where it can meet a bus error and no missing
answer, and stays in RUN where it can meet a missing answer and no bus error (spec/70_reset_and_hazards.md R346). Where it
can meet both, in an order spec/20_memory.md R91 leaves open, a free choice says which (notes/assumptions/10.md). -/
def dmaEffect (mode : State → ModeState → List Byte → ModeState × List Byte) (needs : State → Nat → Nat → Bool)
    (s : State) : Host.Outcome Job Fault Refusal :=
  if s.rangesOverlap then .fault .overlap
  else if s.hostCacheHazard then .fault .hostCache
  else if s.deviceInRange then .refused .deviceRange
  else
    let job := s.modeJob (mode s)
    let issuable := s.issuableWrites (needs s) job.writes
    if s.canMeet (needs s) .never && (!s.canMeet (needs s) .busError || Config.freeBool s.freeCount s.len.toNat) then
      .next { job with writes := issuable, answers := false }
    else if s.canMeet (needs s) .busError then .next (s.busErrorJob issuable)
    else .next job

end Sys2Proof.Machine
end

