-- ==== Sys2Proof/Machine/BlockCore.lean ====
section
/-! DEFINITION. The round transforms, the two ciphers (spec/41_block_core.md), and ENC_BLOCK and DEC_BLOCK. A state Byte s[r][c] is Byte r + 4c of the Block (R180). -/

namespace Sys2Proof.Machine

/-- Byte s[row][col] of the cipher state, the row and column taken modulo 4 (R180). -/
def stateAt (s : Block) (row col : Nat) : Byte := s[row % 4 + 4 * (col % 4)]'(by omega)

/-- The Block whose state Byte at each row and column is given (R180). -/
def ofState (f : Nat → Nat → Byte) : Block := Vector.ofFn fun k => f (k.val % 4) (k.val / 4)

/-- SubBytes (R181). -/
def subBytes (s : Block) : Block := s.map sbox

/-- ShiftRows: row r is rotated left by r (R182). -/
def shiftRows (s : Block) : Block := ofState fun r c => stateAt s r (c + r)

/-- MixColumns (R183): row r of the matrix is 02 03 01 01 rotated right by r. -/
def mixColumns (s : Block) : Block := ofState fun r c =>
  gfMul 0x02 (stateAt s r c) ^^^ gfMul 0x03 (stateAt s (r + 1) c) ^^^ stateAt s (r + 2) c ^^^
    stateAt s (r + 3) c

/-- AddRoundKey (R184). -/
def addRoundKey (s k : Block) : Block := xorBlock s k

/-- InvSubBytes (R186). -/
def invSubBytes (s : Block) : Block := s.map invSbox

/-- InvShiftRows: row r is rotated right by r (R187). -/
def invShiftRows (s : Block) : Block := ofState fun r c => stateAt s r (c + 4 - r)

/-- InvMixColumns (R188): row r of the matrix is 0e 0b 0d 09 rotated right by r. -/
def invMixColumns (s : Block) : Block := ofState fun r c =>
  gfMul 0x0e (stateAt s r c) ^^^ gfMul 0x0b (stateAt s (r + 1) c) ^^^ gfMul 0x0d (stateAt s (r + 2) c) ^^^
    gfMul 0x09 (stateAt s (r + 3) c)

/-- One full round of Cipher (R185). -/
def encRound (s k : Block) : Block := addRoundKey (mixColumns (shiftRows (subBytes s))) k

/-- Cipher(B, rk, Nr) (R185). -/
def cipher (rk : Nat → Block) (nr : Nat) (b : Block) : Block :=
  let s := (List.range' 1 (nr - 1)).foldl (fun s r => encRound s (rk r)) (addRoundKey b (rk 0))
  addRoundKey (shiftRows (subBytes s)) (rk nr)

/-- One full round of EqInvCipher (R189). -/
def decRound (s k : Block) : Block := addRoundKey (invMixColumns (invShiftRows (invSubBytes s))) k

/-- EqInvCipher(B, dk, Nr) (R189). -/
def eqInvCipher (dk : Nat → Block) (nr : Nat) (b : Block) : Block :=
  let s := (List.range' 1 (nr - 1)).foldl (fun s r => decRound s (dk r)) (addRoundKey b (dk 0))
  addRoundKey (invShiftRows (invSubBytes s)) (dk nr)

/-- The literal inverse sequence InvCipher (R190), the rounds from Nr − 1 down to 1. -/
def invCipher (ek : Nat → Block) (nr : Nat) (b : Block) : Block :=
  let s := (List.range' 1 (nr - 1)).foldr
    (fun r s => invMixColumns (addRoundKey (invSubBytes (invShiftRows s)) (ek r))) (addRoundKey b (ek nr))
  addRoundKey (invSubBytes (invShiftRows s)) (ek 0)

/-- Row `r` of a round-key store (spec/10_state.md R49). -/
def Context.row (c : Context) (r : Nat) : Block := c.rows[r]?.getD Block.zero

/-- E(B): Cipher with the encryption context (R185). -/
def State.encrypt (s : State) (b : Block) : Block := cipher s.enc.row s.enc.nr.toNat b

/-- D(B): EqInvCipher with the decryption context (R189). -/
def State.decrypt (s : State) (b : Block) : Block := eqInvCipher s.dec.row s.dec.nr.toNat b

/-- ENC_BLOCK (R191). -/
def execEncBlock (s : State) : Host.Outcome State Fault Refusal :=
  command 0x04 (fun a => [a.tablesCheck, a.enc.check])
    (fun a => .next { a.workingCopies with bout := a.encrypt a.bin }) s

/-- DEC_BLOCK (R192). -/
def execDecBlock (s : State) : Host.Outcome State Fault Refusal :=
  command 0x05 (fun a => [a.tablesCheck, a.dec.check])
    (fun a => .next { a.workingCopies with bout := a.decrypt a.bin }) s

end Sys2Proof.Machine
end

