-- ==== Sys2Proof/Machine/KeySchedule.lean ====
section
/-! DEFINITION. The key schedules (spec/40_key_schedule.md R144 to R149, R152), and INIT, KEXP_ENC and KEXP_DEC. -/

namespace Sys2Proof.Machine

/-- rc_j for j from 1 (R144). -/
def rc : Nat → Byte
  | 0 => 0
  | 1 => 0x01
  | j + 2 => xtime (rc (j + 1))

/-- Rcon[j] (R144). -/
def rcon (j : Nat) : KeyWord := #v[rc j, 0, 0, 0]

/-- RotWord (R145). -/
def rotWord (w : KeyWord) : KeyWord := #v[w[1], w[2], w[3], w[0]]

/-- SubWord (R146). -/
def subWord (w : KeyWord) : KeyWord := w.map sbox

/-- The `temp` of R148 for word `i`, from the word before it. -/
def scheduleTemp (nk i : Nat) (prev : KeyWord) : KeyWord :=
  if i % nk = 0 then xorWord (subWord (rotWord prev)) (rcon (i / nk))
  else if nk = 8 ∧ i % nk = 4 then subWord prev
  else prev

/-- A word of no use: what a list of words answers past its end. -/
def zeroWord : KeyWord := Vector.replicate 4 0

/-- Word `i` of the raw key (R147). -/
def keyWord (key : KeyBytes) (i : Nat) : KeyWord := Vector.ofFn fun k => byteAt key (4 * i + k.val)

/-- `n` more words of R148's loop, the newest first: the list's length is the index of the next word. -/
def expandFrom (nk : Nat) : Nat → List KeyWord → List KeyWord
  | 0, ws => ws
  | n + 1, ws =>
    expandFrom nk n
      (xorWord (ws.getD (nk - 1) zeroWord) (scheduleTemp nk ws.length (ws.headD zeroWord)) :: ws)

/-- The words w[0 .. 4·Nr+3] of a key (R147, R148). -/
def keyWords (nk nr : Nat) (key : KeyBytes) : List KeyWord :=
  (expandFrom nk (4 * nr + 4 - nk) ((List.range nk).map (keyWord key)).reverse).reverse

/-- Round key r of the words: ek[r] (R149). -/
def roundKey (ws : List KeyWord) (r : Nat) : Block :=
  Vector.ofFn fun k => byteAt (ws.getD (4 * r + k.val / 4) zeroWord) (k.val % 4)

/-- The encryption schedule, rows past Nr zero (R151). -/
def encSchedule (nk nr : Nat) (key : KeyBytes) : Vector Block 15 :=
  let ws := keyWords nk nr key
  Vector.ofFn fun r => if r.val ≤ nr then roundKey ws r.val else Block.zero

/-- The decryption schedule: reversed, InvMixColumns on the inner rows, rows past Nr zero (R152). -/
def decSchedule (nk nr : Nat) (key : KeyBytes) : Vector Block 15 :=
  let ws := keyWords nk nr key
  Vector.ofFn fun r =>
    if r.val = 0 then roundKey ws nr
    else if r.val < nr then invMixColumns (roundKey ws (nr - r.val))
    else if r.val = nr then roundKey ws 0
    else Block.zero

/-- The encryption context of a key length and key (R151). -/
def encContext (p : Nat × Nat) (key : KeyBytes) : Context :=
  { valid := true, nr := BitVec.ofNat 4 p.2, rows := encSchedule p.1 p.2 key }

/-- The decryption context of a key length and key (R152). -/
def decContext (p : Nat × Nat) (key : KeyBytes) : Context :=
  { valid := true, nr := BitVec.ofNat 4 p.2, rows := decSchedule p.1 p.2 key }

/-- (Nk, Nr) of the KEYLEN register; the checks have passed, so it is legal. -/
def State.keyLenParams (s : State) : Nat × Nat := (keyParams s.keyLen).getD (4, 10)

/-- INIT (R150): never fails, gated by nothing. -/
def execInit (s : State) : Host.Outcome State Fault Refusal :=
  command 0x01 (fun _ => []) (fun a => .next { a.workingCopies with tablesReady := true }) s

/-- KEXP_ENC (R151). -/
def execKexpEnc (s : State) : Host.Outcome State Fault Refusal :=
  command 0x02 (fun a => [a.tablesCheck, a.keyLenCheck])
    (fun a => .next { a.workingCopies with enc := encContext a.keyLenParams a.key }) s

/-- KEXP_DEC (R152). -/
def execKexpDec (s : State) : Host.Outcome State Fault Refusal :=
  command 0x03 (fun a => [a.tablesCheck, a.keyLenCheck])
    (fun a => .next { a.workingCopies with dec := decContext a.keyLenParams a.key }) s

end Sys2Proof.Machine
end

