-- ==== Sys2Proof/Machine/Modes.lean ====
section
/-! DEFINITION. The mode state machines and counter strategies (spec/42_modes.md): ECB, CBC, CFB, OFB, CTR and RESET_MODE. -/

namespace Sys2Proof.Machine

/-! ## Counter strategies (R240 to R244) -/

/-- The Bytes from `from` on, read as a big-endian number (R241 to R243). -/
def counterValue (b : Block) (first : Nat) : Nat := (b.toList.drop first).foldl (fun n x => 256 * n + x.toNat) 0

/-- The Block with its Bytes from `first` on replaced by those of `n`, big-endian; a number too large loses its
high Bytes, which is the wrap of R241 to R243. -/
def withCounter (b : Block) (first n : Nat) : Block := Vector.ofFn fun k =>
  if k.val < first then b[k] else BitVec.ofNat 8 (n / 256 ^ (15 - k.val))

/-- The big-endian increment of the Bytes from `first` on. -/
def incFrom (first : Nat) (b : Block) : Block := withCounter b first (counterValue b first + 1)

/-- Inc_0: the whole Block (R241). -/
def inc0 (b : Block) : Block := incFrom 0 b

/-- Inc_1: Bytes 8 to 15 (R242). -/
def inc1 (b : Block) : Block := incFrom 8 b

/-- Inc_2: Bytes 12 to 15 (R243). -/
def inc2 (b : Block) : Block := incFrom 12 b

/-- The strategy CTRL.CTRINC selects (R240). -/
def increment (ctrInc : BitVec 2) (b : Block) : Block :=
  match ctrInc.toNat with
  | 0 => inc0 b
  | 1 => inc1 b
  | 2 => inc2 b
  | _ => Config.extInc b

/-! ## Block modes (R223 to R227): a unit is a Block -/

/-- Block `j` of a Byte sequence: Bytes 16j to 16j + 15. -/
def blockOf (bytes : List Byte) (j : Nat) : Block := Vector.ofFn fun k => bytes.getD (16 * j + k.val) 0

/-- The whole Blocks of a Byte sequence, in order. -/
def blocksOf (bytes : List Byte) : List Block := (List.range (bytes.length / 16)).map (blockOf bytes)

/-- A block mode over its input Blocks: each unit takes the chaining value and gives the next one and an
output Block. -/
def blockRun (unit : Block → Block → Block × Block) : Block → List Block → Block × List Block
  | iv, [] => (iv, [])
  | iv, b :: rest =>
    let u := unit iv b
    let r := blockRun unit u.1 rest
    (r.1, u.2 :: r.2)

/-- A block mode as a rule over the ModeState: KS and OFFSET are not touched (R227). -/
def blockMode (unit : Block → Block → Block × Block) (m : ModeState) (bytes : List Byte) :
    ModeState × List Byte :=
  let r := blockRun unit m.iv (blocksOf bytes)
  ({ m with iv := r.1 }, r.2.flatMap (·.toList))

/-- A unit of ECB: the Block through `f`, the IV untouched (R223, R224). -/
def ecbUnit (f : Block → Block) (iv b : Block) : Block × Block := (iv, f b)

/-- A unit of CBC_ENC (R225). -/
def cbcEncUnit (e : Block → Block) (iv p : Block) : Block × Block :=
  let c := e (xorBlock p iv)
  (c, c)

/-- A unit of CBC_DEC: the new IV is the input Block (R226). -/
def cbcDecUnit (d : Block → Block) (iv c : Block) : Block × Block := (c, xorBlock (d c) iv)

/-! ## Stream modes (R228 to R234): a unit is a Byte -/

/-- A stream mode over its input Bytes. -/
def streamRun (unit : ModeState → Byte → ModeState × Byte) : ModeState → List Byte → ModeState × List Byte
  | m, [] => (m, [])
  | m, x :: rest =>
    let u := unit m x
    let r := streamRun unit u.1 rest
    (r.1, u.2 :: r.2)

/-- KS[OFFSET] of a keystream Block. -/
def keystreamByte (ks : Block) (off : BitVec 4) : Byte := ks[off.toNat]

/-- KS for the next Byte: loaded from IV where a keystream Block begins (R228). -/
def loadKs (e : Block → Block) (m : ModeState) : Block := if m.off = 0 then e m.iv else m.ks

/-- A Byte of CFB_ENC: the feedback is the output Byte (R229). -/
def cfbEncUnit (e : Block → Block) (m : ModeState) (p : Byte) : ModeState × Byte :=
  let ks := loadKs e m
  let c := p ^^^ keystreamByte ks m.off
  ({ iv := m.iv.set m.off.toNat c, ks := ks, off := m.off + 1 }, c)

/-- A Byte of CFB_DEC: the feedback is the input Byte (R230). -/
def cfbDecUnit (e : Block → Block) (m : ModeState) (c : Byte) : ModeState × Byte :=
  let ks := loadKs e m
  ({ iv := m.iv.set m.off.toNat c, ks := ks, off := m.off + 1 }, c ^^^ keystreamByte ks m.off)

/-- A Byte of OFB_CRYPT: a load makes the keystream Block the new IV (R232). -/
def ofbUnit (e : Block → Block) (m : ModeState) (x : Byte) : ModeState × Byte :=
  let ks := loadKs e m
  ({ iv := if m.off = 0 then ks else m.iv, ks := ks, off := m.off + 1 }, x ^^^ keystreamByte ks m.off)

/-- A Byte of CTR_CRYPT: the counter steps after the 16th Byte of a Block (R234). -/
def ctrUnit (e inc : Block → Block) (m : ModeState) (x : Byte) : ModeState × Byte :=
  let ks := loadKs e m
  ({ iv := if m.off = 15 then inc m.iv else m.iv, ks := ks, off := m.off + 1 }, x ^^^ keystreamByte ks m.off)

/-! ## The rules of the eight mode commands, from the state at acceptance -/

/-- ECB_ENC (R223). -/
def ecbEncMode (s : State) : ModeState → List Byte → ModeState × List Byte := blockMode (ecbUnit s.encrypt)

/-- ECB_DEC (R224). -/
def ecbDecMode (s : State) : ModeState → List Byte → ModeState × List Byte := blockMode (ecbUnit s.decrypt)

/-- CBC_ENC (R225). -/
def cbcEncMode (s : State) : ModeState → List Byte → ModeState × List Byte := blockMode (cbcEncUnit s.encrypt)

/-- CBC_DEC (R226). -/
def cbcDecMode (s : State) : ModeState → List Byte → ModeState × List Byte := blockMode (cbcDecUnit s.decrypt)

/-- CFB_ENC (R229). -/
def cfbEncMode (s : State) : ModeState → List Byte → ModeState × List Byte := streamRun (cfbEncUnit s.encrypt)

/-- CFB_DEC (R230): the encryption context. -/
def cfbDecMode (s : State) : ModeState → List Byte → ModeState × List Byte := streamRun (cfbDecUnit s.encrypt)

/-- OFB_CRYPT (R232). -/
def ofbMode (s : State) : ModeState → List Byte → ModeState × List Byte := streamRun (ofbUnit s.encrypt)

/-- CTR_CRYPT (R234): the strategy is fixed at acceptance. -/
def ctrMode (s : State) : ModeState → List Byte → ModeState × List Byte :=
  streamRun (ctrUnit s.encrypt (increment s.ctrInc))

/-! ## Which reads come before the write of an output Byte: those of the input Bytes of its unit (spec/20_memory.md R91)
and of every input Byte it is computed from (R89) -/

/-- ECB: those of its own Block. -/
def ecbNeeds (_ : State) (i j : Nat) : Bool := j / 16 == i / 16

/-- CBC_ENC: those of its own Block and of every Block before it. -/
def cbcEncNeeds (_ : State) (i j : Nat) : Bool := decide (j / 16 ≤ i / 16)

/-- CBC_DEC: those of its own Block, and the Byte at its place in the Block before it. -/
def cbcDecNeeds (_ : State) (i j : Nat) : Bool := j / 16 == i / 16 || j + 16 == i

/-- CFB_ENC: its own, and those of every keystream Block before its own. -/
def cfbEncNeeds (s : State) (i j : Nat) : Bool :=
  j == i || decide ((s.offset.toNat + j) / 16 < (s.offset.toNat + i) / 16)

/-- CFB_DEC: its own, and those of the keystream Block before its own. -/
def cfbDecNeeds (s : State) (i j : Nat) : Bool :=
  j == i || (s.offset.toNat + j) / 16 + 1 == (s.offset.toNat + i) / 16

/-- OFB and CTR: its own alone. -/
def ownNeeds (_ : State) (i j : Nat) : Bool := j == i

/-! ## Commands -/

/-- RESET_MODE (R236): gated by nothing. -/
def execResetMode (s : State) : Host.Outcome State Fault Refusal :=
  command 0x06 (fun _ => []) (fun a => .next { a.workingCopies with offset := 0 }) s

/-- ECB_ENC (R223). -/
def execEcbEnc (s : State) : Host.Outcome State Fault Refusal :=
  command 0x10 (fun a => [a.tablesCheck, a.enc.check, a.lengthCheck]) (dmaEffect ecbEncMode ecbNeeds) s

/-- ECB_DEC (R224). -/
def execEcbDec (s : State) : Host.Outcome State Fault Refusal :=
  command 0x11 (fun a => [a.tablesCheck, a.dec.check, a.lengthCheck]) (dmaEffect ecbDecMode ecbNeeds) s

/-- CBC_ENC (R225). -/
def execCbcEnc (s : State) : Host.Outcome State Fault Refusal :=
  command 0x12 (fun a => [a.tablesCheck, a.enc.check, a.lengthCheck]) (dmaEffect cbcEncMode cbcEncNeeds) s

/-- CBC_DEC (R226). -/
def execCbcDec (s : State) : Host.Outcome State Fault Refusal :=
  command 0x13 (fun a => [a.tablesCheck, a.dec.check, a.lengthCheck]) (dmaEffect cbcDecMode cbcDecNeeds) s

/-- CFB_ENC (R229). -/
def execCfbEnc (s : State) : Host.Outcome State Fault Refusal :=
  command 0x14 (fun a => [a.tablesCheck, a.enc.check]) (dmaEffect cfbEncMode cfbEncNeeds) s

/-- CFB_DEC (R230): the encryption context. -/
def execCfbDec (s : State) : Host.Outcome State Fault Refusal :=
  command 0x15 (fun a => [a.tablesCheck, a.enc.check]) (dmaEffect cfbDecMode cfbDecNeeds) s

/-- OFB_CRYPT (R232). -/
def execOfbCrypt (s : State) : Host.Outcome State Fault Refusal :=
  command 0x16 (fun a => [a.tablesCheck, a.enc.check]) (dmaEffect ofbMode ownNeeds) s

/-- CTR_CRYPT (R234). -/
def execCtrCrypt (s : State) : Host.Outcome State Fault Refusal :=
  command 0x17 (fun a => [a.tablesCheck, a.enc.check]) (dmaEffect ctrMode ownNeeds) s

end Sys2Proof.Machine
end

