-- ==== Sys2Proof/Machine/HostAccess.lean ====
section
/-! DEFINITION. CMD_ILLEGAL, REG_READ and REG_WRITE (spec/60_exceptions.md R297, spec/43_host_access.md R270 to R279). -/

namespace Sys2Proof.Machine

/-- CMD_ILLEGAL: accepted, and completes with ILLEGAL_COMMAND (spec/60_exceptions.md R297). -/
def execCmdIllegal (word : Word) (s : State) : Host.Outcome State Fault Refusal :=
  command word (fun _ => [.illegalCommand]) (fun a => .next a.workingCopies) s

/-- The value a read of a register returns (spec/43_host_access.md R270): KEY, CMD and reserved offsets read 0. -/
def State.readReg (s : State) : Reg → Word
  | .ctrl => s.ctrlWord
  | .cmd => 0
  | .status => s.statusWord
  | .sched => s.schedWord
  | .keyLen => s.keyLen
  | .offset => s.offset.setWidth 32
  | .len => s.len
  | .src => s.src
  | .dst => s.dst
  | .key _ => 0
  | .iv n => readLanes s.iv n.val
  | .ks n => readLanes s.ks n.val
  | .bin n => readLanes s.bin n.val
  | .bout n => readLanes s.bout n.val
  | .reserved => 0

/-- A write of `v` to the writable bits of a register while BUSY = 0 (R278, R279); read-only registers and
reserved offsets ignore it (R276). STATUS and CMD are written by `execRegWrite` itself. -/
def State.writeReg (s : State) (v : Word) : Reg → State
  | .ctrl => s.writeCtrl v
  | .cmd => s
  | .status => s
  | .sched => s
  | .keyLen => { s with keyLen := v }
  | .offset => { s with offset := v.extractLsb' 0 4 }
  | .len => { s with len := v }
  | .src => { s with src := v }
  | .dst => { s with dst := v }
  | .key n => { s with key := writeLanes s.key n.val v }
  | .iv n => { s with iv := writeLanes s.iv n.val v }
  | .ks n => { s with ks := writeLanes s.ks n.val v }
  | .bin n => { s with bin := writeLanes s.bin n.val v }
  | .bout _ => s
  | .reserved => s

/-- A write of `v` to CMD, whatever `v` is (R275). No transaction decodes to a REG_WRITE of CMD
(spec/30_encoding.md R114); this is R271's `accept v as a command` for that term. -/
def writeCmd (v : Word) (s : State) : Host.Outcome State Fault Refusal :=
  match decodeCommand v with
  | .init => execInit s
  | .kexpEnc => execKexpEnc s
  | .kexpDec => execKexpDec s
  | .encBlock => execEncBlock s
  | .decBlock => execDecBlock s
  | .resetMode => execResetMode s
  | .ecbEnc => execEcbEnc s
  | .ecbDec => execEcbDec s
  | .cbcEnc => execCbcEnc s
  | .cbcDec => execCbcDec s
  | .cfbEnc => execCfbEnc s
  | .cfbDec => execCfbDec s
  | .ofbCrypt => execOfbCrypt s
  | .ctrCrypt => execCtrCrypt s
  | .cmdIllegal word => execCmdIllegal word s
  | .regWrite _ _ => execCmdIllegal v s
  | .regRead _ => execCmdIllegal v s

/-- A bus error response: nothing changes but the answer (spec/20_memory.md R83). -/
def State.busErrorResponse (s : State) : State := { s with response := .busError }

/-- REG_READ (R270): no side effect; the value is the answer. -/
def execRegRead (off : BitVec 8) (s : State) : Host.Outcome State Fault Refusal :=
  if offsetAligned off then .next { s with response := .data (s.readReg (regAt off)) }
  else .next s.busErrorResponse

/-- REG_WRITE (R271). -/
def execRegWrite (off : BitVec 8) (v : Word) (s : State) : Host.Outcome State Fault Refusal :=
  if !offsetAligned off then .next s.busErrorResponse
  else if regAt off = .status then .next (s.writeStatus v)
  else if s.busy then .next s.dropWrite
  else if regAt off = .cmd then writeCmd v s
  else .next (s.writeReg v (regAt off))

end Sys2Proof.Machine
end

