-- ==== Sys2Proof/Machine/Dispatch.lean ====
section
/-! DEFINITION. One arm for each instruction. -/

namespace Sys2Proof.Machine

def exec (i : Instr) (s : State) : Host.Outcome State Fault Refusal :=
  match i with
  | .init => Sys2Proof.Machine.execInit s
  | .kexpEnc => Sys2Proof.Machine.execKexpEnc s
  | .kexpDec => Sys2Proof.Machine.execKexpDec s
  | .encBlock => Sys2Proof.Machine.execEncBlock s
  | .decBlock => Sys2Proof.Machine.execDecBlock s
  | .resetMode => Sys2Proof.Machine.execResetMode s
  | .ecbEnc => Sys2Proof.Machine.execEcbEnc s
  | .ecbDec => Sys2Proof.Machine.execEcbDec s
  | .cbcEnc => Sys2Proof.Machine.execCbcEnc s
  | .cbcDec => Sys2Proof.Machine.execCbcDec s
  | .cfbEnc => Sys2Proof.Machine.execCfbEnc s
  | .cfbDec => Sys2Proof.Machine.execCfbDec s
  | .ofbCrypt => Sys2Proof.Machine.execOfbCrypt s
  | .ctrCrypt => Sys2Proof.Machine.execCtrCrypt s
  | .cmdIllegal word => Sys2Proof.Machine.execCmdIllegal word s
  | .regWrite off value => Sys2Proof.Machine.execRegWrite off value s
  | .regRead off => Sys2Proof.Machine.execRegRead off s

end Sys2Proof.Machine
end

