-- ==== Sys2Proof/Machine/Agents.lean ====
section
/-! DEFINITION. How each host event is served: transactions, bus accesses, loads and stores of the host and other masters, cache maintenance, the answers of Mem, reset (spec/00_scope.md R19). -/

namespace Sys2Proof.Machine

/-- A 32-bit transaction (spec/30_encoding.md R114); one that no row matches is misaligned and gets a bus error
response (R111, spec/20_memory.md R83). -/
def serveTransaction (t : Transaction) (s : State) : Host.Outcome State Fault Refusal :=
  match decode t with
  | .ok i => exec i { s with response := .written }
  | .error .misalignedOffset => .next s.busErrorResponse

/-- An access at a host address: the window is the 256 bytes from REG_BASE (spec/20_memory.md R82); only an
aligned 32-bit access is a transaction, any other gets a bus error response (R83). Outside the window AES-CORE is
not addressed (notes/assumptions/18.md). DESIGN CHOICE, notes/assumptions/33.md: an access is to the window where its first
address lies in it, so one that starts below REG_BASE and reaches into the window is not answered. -/
def serveBusAccess (write : Bool) (addr : Nat) (size : AccessSize) (value : Word) (s : State) :
    Host.Outcome State Fault Refusal :=
  if addr / 256 ≠ s.platform.regPage then .next { s with response := .none }
  else match size with
    | .word => serveTransaction (Transaction.mk write (BitVec.ofNat 8 addr) (if write then value else 0)) s
    | .half => .next s.busErrorResponse
    | .byte => .next s.busErrorResponse

/-- The address is one the running command writes (R94). -/
def State.dstBusy (s : State) (a : Word) : Bool :=
  match s.phase with
  | .idle => false
  | .run job => job.dma && inRange s.dst s.len a

/-- The address is one the running command reads (R94). -/
def State.srcBusy (s : State) (a : Word) : Bool :=
  match s.phase with
  | .idle => false
  | .run job => job.dma && inRange s.src s.len a

/-- The Byte the host and the masters coherent with it find at an address: its last store there, else memory's. -/
def State.hostByte (s : State) (a : Word) : Byte :=
  match s.hostDirty.find? fun d => d.1 == a with
  | some d => d.2
  | none => s.byte a

/-- The host stores of some addresses have left its caches. -/
def State.forgetDirty (s : State) (p : Word → Bool) : State :=
  { s with hostDirty := s.hostDirty.filter fun d => !p d.1 }

/-- A load by the host: a race on the destination range of the running command (R94), a breach of R97 where a DMA write
was not invalidated (R98), else the Byte. DESIGN CHOICE, notes/assumptions/31.md: the answers of `Platform.memMap` are
those to the DMA port, and the host's loads and stores are served as ordinary memory everywhere. -/
def serveLoad (a : Word) (s : State) : Host.Outcome State Fault Refusal :=
  if s.dstBusy a then .fault .race
  else if s.hostStale.contains a then .fault .hostCache
  else .next { s with response := .memory (s.hostByte a) }

/-- A store by the host: a race on either range of the running command (R94). Where DMA is not coherent it waits in the
host's caches (R97). The map of answers is not looked at, as for a load (DESIGN CHOICE, notes/assumptions/31.md). -/
def serveStore (a : Word) (b : Byte) (s : State) : Host.Outcome State Fault Refusal :=
  if s.dstBusy a || s.srcBusy a then .fault .race
  else if s.platform.dmaCoherent then .next { s with mem := s.mem.set a.toNat b, response := .written }
  else .next { s with hostDirty := (a, b) :: (s.forgetDirty (· == a)).hostDirty, response := .written }

/-- A load by another bus master: a race on the destination range (R94), else the Byte. DESIGN CHOICE,
notes/assumptions/32.md: other masters are coherent with the host's caches, and R97's duties are not theirs; the map of
answers is not looked at (31.md). -/
def serveMasterLoad (a : Word) (s : State) : Host.Outcome State Fault Refusal :=
  if s.dstBusy a then .fault .race else .next { s with response := .memory (s.hostByte a) }

/-- A store by another bus master: a race on either range (R94), else in memory at once (DESIGN CHOICE,
notes/assumptions/31.md and 32.md, as for its load). -/
def serveMasterStore (a : Word) (b : Byte) (s : State) : Host.Outcome State Fault Refusal :=
  if s.dstBusy a || s.srcBusy a then .fault .race
  else .next { s.forgetDirty (· == a) with mem := s.mem.set a.toNat b, response := .written }

/-- The host stores of a range that wait in its caches. -/
def State.dirtyIn (s : State) (base size : Word) : List (Word × Byte) :=
  s.hostDirty.filter fun d => inRange base size d.1

/-- Cleaning writes the host's waiting stores of the range to memory, where the DMA port sees them (R97); where one lies
in a range of the running command that is a write to it, a race (R94). -/
def serveClean (base size : Word) (s : State) : Host.Outcome State Fault Refusal :=
  if (s.dirtyIn base size).any fun d => s.dstBusy d.1 || s.srcBusy d.1 then .fault .race
  else .next { s.forgetDirty (inRange base size) with
    mem := s.mem.setAll (s.dirtyIn base size)
    response := .written }

/-- Invalidating makes the DMA writes in the range visible to the host (R97). A store of the range that waits in the
caches is dropped; whether it had reached memory before is open, a free value (notes/assumptions/14.md). -/
def serveInvalidate (base size : Word) (s : State) : Host.Outcome State Fault Refusal :=
  .next { s.forgetDirty (inRange base size) with
    mem := s.mem.setAll (someWrites (s.freeCount + 1) (s.dirtyIn base size))
    hostStale := s.hostStale.filter fun a => !inRange base size a
    freeCount := s.freeCount + 1
    response := .written }

/-- Mem answers the DMA port by another map from now on (R88). -/
def serveMemoryAnswers (memMap : List Region) (s : State) : Host.Outcome State Fault Refusal :=
  .next { s with platform := { s.platform with memMap := memMap }, response := .none }

/-- The reset input (spec/70_reset_and_hazards.md R330 to R332): every register takes its reset value; a command
in RUN is abandoned, each of its destination Bytes old or new (R331, U5), a free value of its own; other memory is
unchanged. What is no state of AES-CORE (the platform, the host's queue and caches, the tape) stays. -/
def State.applyReset (s : State) : State :=
  let t := match s.phase with
    | .idle => s
    | .run job => s.storeAll (someWrites (s.freeCount + 1) job.writes)
  { State.reset with
    mem := t.mem
    platform := s.platform
    hostDirty := t.hostDirty
    hostStale := t.hostStale
    inputs := s.inputs
    stall := s.stall
    freeCount := s.freeCount + 1 }

/-- One host event. -/
def serve (e : HostEvent) (s : State) : Host.Outcome State Fault Refusal :=
  match e with
  | .transaction t => serveTransaction t s
  | .busAccess write addr size value => serveBusAccess write addr size value s
  | .load a => serveLoad a s
  | .store a b => serveStore a b s
  | .masterLoad a => serveMasterLoad a s
  | .masterStore a b => serveMasterStore a b s
  | .cacheClean base size => serveClean base size s
  | .cacheInvalidate base size => serveInvalidate base size s
  | .memoryAnswers memMap => serveMemoryAnswers memMap s
  | .reset => .next s.applyReset

/-- What the sequencer does before the next host event: a command in RUN whose events are used up completes, else
one event of its count is used (U7). -/
def State.tick (s : State) : State :=
  match s.phase with
  | .idle => s
  | .run job =>
    if job.left = 0 then s.complete else { s with phase := .run { job with left := job.left - 1 } }

/-- The event that brings the table word `w` of `nbits` bits to the window; bits above T's 41 make no transaction. -/
def fetchEvent (nbits w : Nat) : HostEvent :=
  if w % 2 ^ nbits < 2 ^ 41 then .transaction (BitVec.ofNat 41 (w % 2 ^ nbits))
  else .busAccess false 0 .byte 0

end Sys2Proof.Machine
end

