-- ==== Sys2Proof/Machine/Step.lean ====
section
/-! DEFINITION. One step: the oldest host event is served; with none waiting, the command in RUN completes. -/

namespace Sys2Proof.Machine

/-- AES-CORE has no program counter; each instruction arrives as a register access of the host
(spec/10_state.md R54). With no event waiting a running command completes in finite time
(spec/70_reset_and_hazards.md R346) and an idle machine waits (R333). -/
def step (s : State) : Host.Outcome State Fault Refusal :=
  match s.inputs with
  | [] => .next s.complete
  | e :: rest => serve e { s.tick with inputs := rest }

/-- `s` with the instruction word `w` of `nbits` bits as the next host event. -/
def State.withFetchWord (s : State) (nbits w : Nat) : State :=
  { s with inputs := fetchEvent nbits w :: s.inputs }

end Sys2Proof.Machine
end

