-- ==== Sys2Proof/Safety.lean ====
section
/-! DEFINITION. What a claim may rest on: the step as a claim about a program sees it (spec/60_exceptions.md R303, R316), and the invariant every reachable state has. -/

namespace Sys2Proof.Safety

open Sys2Proof.Machine

/-- The command in RUN completes with BUS_ERROR in this step, before the host event of the step is served. -/
def runEndsWithBusError (s : State) : Bool :=
  match s.phase with
  | .idle => false
  | .run job => job.answers && job.error == .busError && (job.left == 0 || s.inputs.isEmpty)

/-- The event is an access to the window, or to some other address of the host's map. -/
def isAccess : HostEvent → Bool
  | .transaction _ => true
  | .busAccess _ _ _ _ => true
  | .load _ => false
  | .store _ _ => false
  | .masterLoad _ => false
  | .masterStore _ _ => false
  | .cacheClean _ _ => false
  | .cacheInvalidate _ _ => false
  | .memoryAnswers _ => false
  | .reset => false

/-- The step from `s` to `t` accepted a command that completed in it with BUS_ERROR: an access takes a new free-value
index exactly where it is accepted as a command (spec/60_exceptions.md R300). -/
def acceptedWithBusError (s t : State) : Bool :=
  s.inputs.head?.any isAccess && t.errCode == .busError && t.freeCount != s.freeCount

/-- The step as a claim about a program sees it: R303 and R316 treat a BUS_ERROR completion as a fault, so that no
claim rests on the destination Bytes it leaves. A completion whose code the same step clears again is one too. -/
def claimStep (s : State) : Host.Outcome State Fault Refusal :=
  if runEndsWithBusError s then .fault .busError
  else match step s with
    | .next t => if acceptedWithBusError s t then .fault .busError else .next t
    | .fault r => .fault r
    | .refused r => .refused r

/-- A context is empty, or holds a schedule of 10, 12 or 14 rounds with zero rows past it (spec/10_state.md R37, R49). -/
def contextOk (c : Context) : Prop :=
  (c.valid = false ∧ c = Context.empty) ∨
  (c.valid = true ∧ (c.nr = 10 ∨ c.nr = 12 ∨ c.nr = 14) ∧
    ∀ r : Fin 15, c.nr.toNat < r.val → c.rows[r] = Block.zero)

/-- A schedule is valid only where the tables are ready (R143: every key expansion needs them). -/
def tablesBeforeSchedules (tables : Bool) (enc dec : Context) : Prop :=
  enc.valid = true ∨ dec.valid = true → tables = true

/-- What holds of a command in RUN: DONE, ERR and ERRCODE are 0 (spec/60_exceptions.md R300), its working copies are
as good as the registers and clear no readiness bit, and it writes the destination range only
(spec/20_memory.md R89). -/
structure JobOk (s : State) (job : Job) : Prop where
  notDone : s.done = false
  encOk : contextOk job.enc
  decOk : contextOk job.dec
  tables : tablesBeforeSchedules job.tablesReady job.enc job.dec
  tablesStay : s.tablesReady = true → job.tablesReady = true
  encStays : s.enc.valid = true → job.enc.valid = true
  decStays : s.dec.valid = true → job.dec.valid = true
  writesDst : ∀ w ∈ job.writes, job.dma = true ∧ (w.1 - s.dst).toNat < s.len.toNat

/-- What every step keeps: memory in canonical form, contexts empty or whole, no schedule before the tables, no error
code without DONE (spec/10_state.md R36), nothing waiting in or hidden by the host's caches where DMA is coherent
(spec/20_memory.md R97), and a sound command in RUN. -/
structure Inv (s : State) : Prop where
  memory : s.mem.wf = true
  encOk : contextOk s.enc
  decOk : contextOk s.dec
  tables : tablesBeforeSchedules s.tablesReady s.enc s.dec
  noErrorUndone : s.done = false → s.errCode = .none
  caches : s.platform.dmaCoherent = true → s.hostDirty = [] ∧ s.hostStale = []
  job : ∀ job, s.phase = .run job → JobOk s job

end Sys2Proof.Safety
end

