-- ==== Sys2Proof/Certificates/Slice0/Obligations.lean ====
section
/-! DEFINITION. The statements for the provers, and the words they are stated in. -/

namespace Sys2Proof.Claims

open Sys2Proof.Machine

/-! ## How a command answers -/

/-- Acceptance of `word` with the working copies `job` (R300): DONE, ERR and ERRCODE fall, OP and POS are set, PHASE
is RUN. The last two fields are the model's own: one free-value index and one entry of the tape are used. -/
def accepted (s : State) (word : Word) (job : Job) : State :=
  { s with
    done := false
    errCode := .none
    op := word.extractLsb' 0 8
    pos := 0
    phase := .run job
    freeCount := s.freeCount + 1
    stall := s.stall.tail }

/-- `s` after acceptance and completion of `word` with code `e`, nothing else changed (R300, R301). -/
def completed (s : State) (word : Word) (e : Error) : State :=
  { s with
    done := true
    errCode := e
    op := word.extractLsb' 0 8
    pos := 0
    phase := .idle
    freeCount := s.freeCount + 1
    stall := s.stall.tail }

/-- `exec i s` answers a next state, and the command completes as `u`: at once where the tape gives it no host event
in RUN, else after as many as the tape says; until then the state is that of acceptance (U7). -/
def Runs (i : Instr) (s : State) (word : Word) (u : State) : Prop :=
  ∃ job : Job, job.left = s.stall.headD 0 ∧ job.answers = true ∧ (accepted s word job).complete = u ∧
    exec i s = .next (if s.stall.headD 0 = 0 then u else accepted s word job)

/-- The command word of an instruction (R113). -/
def wordOf (i : Instr) : Word := (commandWord i).getD 0

/-- The eight mode commands. -/
def modeCommands : List Instr :=
  [.ecbEnc, .ecbDec, .cbcEnc, .cbcDec, .cfbEnc, .cfbDec, .ofbCrypt, .ctrCrypt]

/-- The four that need LEN to be a multiple of 16 (R294). -/
def blockCommands : List Instr := [.ecbEnc, .ecbDec, .cbcEnc, .cbcDec]

/-- The commands that need the tables: all but INIT and RESET_MODE (R295). -/
def gatedCommands : List Instr := [.kexpEnc, .kexpDec, .encBlock, .decBlock] ++ modeCommands

/-- The commands that need the decryption context (R113); the others that need one need the encryption context. -/
def decryptionCommands : List Instr := [.decBlock, .ecbDec, .cbcDec]

/-- The context a command needs. -/
def contextOf (i : Instr) (s : State) : Context := if i ∈ decryptionCommands then s.dec else s.enc

/-- The acceptance checks of a mode command pass (R299). -/
structure Accepts (i : Instr) (s : State) : Prop where
  idle : s.busy = false
  tables : s.tablesReady = true
  context : (contextOf i s).valid = true
  length : i ∈ blockCommands → s.len.toNat % 16 = 0

/-! ## DMA -/

/-- The host keeps R93: in place, or no common address. -/
def NoPartialOverlap (s : State) : Prop :=
  s.dst = s.src ∨ ∀ i < s.len.toNat, ∀ j < s.len.toNat, s.src + BitVec.ofNat 32 i ≠ s.dst + BitVec.ofNat 32 j

/-- The host keeps R96 and R97: every store it made to the source range is visible to the DMA port. -/
def StoresVisible (s : State) : Prop :=
  s.platform.dmaCoherent = true ∨ ∀ d ∈ s.hostDirty, ∀ i < s.len.toNat, d.1 ≠ s.src + BitVec.ofNat 32 i

/-- Some address of the source or destination range is no ordinary memory to reads or to writes (R90). -/
def ReachesDevice (s : State) : Prop :=
  ∃ i < s.len.toNat,
    (s.platform.onRead (s.src + BitVec.ofNat 32 i) = .device ∨ s.platform.onWrite (s.src + BitVec.ofNat 32 i) = .device) ∨
    s.platform.onRead (s.dst + BitVec.ofNat 32 i) = .device ∨ s.platform.onWrite (s.dst + BitVec.ofNat 32 i) = .device

/-- Some access of the command is answered so: a read of the source range or a write of the destination range. -/
def Meets (s : State) (w : Answer) : Prop :=
  ∃ i < s.len.toNat, s.platform.onRead (s.src + BitVec.ofNat 32 i) = w ∨
    s.platform.onWrite (s.dst + BitVec.ofNat 32 i) = w

/-- Input Byte `j` is of the unit of output Byte `k`: of one Block in ECB and CBC, the Byte itself in CFB, OFB and CTR
(R91 (b)). -/
def SameUnit (i : Instr) (j k : Nat) : Prop := if i ∈ blockCommands then j / 16 = k / 16 else j = k

/-- By R91 the command can be answered so: on a read of its source range, or on a write of a unit all of whose reads, which
come first, got a Byte. -/
def CanMeet (i : Instr) (s : State) (w : Answer) : Prop :=
  ∃ k < s.len.toNat, s.platform.onRead (s.src + BitVec.ofNat 32 k) = w ∨
    s.platform.onWrite (s.dst + BitVec.ofNat 32 k) = w ∧
      ∀ j < s.len.toNat, SameUnit i j k → s.platform.onRead (s.src + BitVec.ofNat 32 j) = .ordinary

/-- The premises under which a mode command succeeds (R98), and memory in canonical form. -/
structure DmaReady (s : State) : Prop where
  memory : s.mem.wf = true
  overlap : NoPartialOverlap s
  visible : StoresVisible s
  memoryOnly : ¬ ReachesDevice s
  answers : ∀ i < s.len.toNat, s.platform.onRead (s.src + BitVec.ofNat 32 i) = .ordinary ∧
    s.platform.onWrite (s.dst + BitVec.ofNat 32 i) = .ordinary

/-- Input Byte `i` (R220). -/
def inByte (s : State) (i : Nat) : Byte := s.byte (s.src + BitVec.ofNat 32 i)

/-- The destination Byte `i` in `u` (R220). -/
def outByte (s u : State) (i : Nat) : Byte := u.byte (s.dst + BitVec.ofNat 32 i)

/-- Input Block `j`. -/
def inBlock (s : State) (j : Nat) : Block := Vector.ofFn fun k => inByte s (16 * j + k.val)

/-- The destination Block `j` in `u`. -/
def outBlock (s u : State) (j : Nat) : Block := Vector.ofFn fun k => outByte s u (16 * j + k.val)

/-- `u` is `s` after the mode command `word` with the ModeState given: every other register as `completed` says, POS at
LEN (R53), every Byte of memory outside the destination range unchanged, and, where DMA is not coherent, the destination
range added to what the host's caches may hide and older host stores to it gone from them. That last, `waiting`, is no rule
of the spec but the model's DEDUCED choice of notes/assumptions/14.md. -/
structure ModeResult (s u : State) (word : Word) (iv ks : Block) (off : Nat) : Prop where
  registers : { u with mem := s.mem, hostStale := s.hostStale, hostDirty := s.hostDirty } =
    { completed s word .none with pos := s.len.toNat, iv := iv, ks := ks, offset := BitVec.ofNat 4 off }
  frame : ∀ a : Word, (∀ i < s.len.toNat, a ≠ s.dst + BitVec.ofNat 32 i) → u.byte a = s.byte a
  memory : u.mem.wf = true
  stale : ∀ a : Word, a ∈ u.hostStale ↔ a ∈ s.hostStale ∨
    (s.platform.dmaCoherent = false ∧ ∃ i < s.len.toNat, a = s.dst + BitVec.ofNat 32 i)
  waiting : ∀ d : Word × Byte, d ∈ u.hostDirty ↔ d ∈ s.hostDirty ∧
    (s.platform.dmaCoherent = true ∨ ∀ i < s.len.toNat, d.1 ≠ s.dst + BitVec.ofNat 32 i)

/-- The rules of the eight mode commands. -/
def modeRules : List (Instr × (State → ModeState → List Byte → ModeState × List Byte)) :=
  [(.ecbEnc, ecbEncMode), (.ecbDec, ecbDecMode), (.cbcEnc, cbcEncMode), (.cbcDec, cbcDecMode),
    (.cfbEnc, cfbEncMode), (.cfbDec, cfbDecMode), (.ofbCrypt, ofbMode), (.ctrCrypt, ctrMode)]

/-- `exec i s` answers a next state, and the command ends with BUS_ERROR: every register but STATUS, OP and POS as at
acceptance, POS at most LEN, no Byte outside the destination range changed, and each Byte of it old or the one the command's
rule gives, whatever Bytes stand for the inputs Mem did not answer with a Byte (R222, R303). -/
def EndsWithBusError (i : Instr) (s : State) : Prop :=
  ∃ u, Runs i s (wordOf i) u ∧ u.pos ≤ s.len.toNat ∧
    { u with mem := s.mem, hostStale := s.hostStale, hostDirty := s.hostDirty, pos := 0 } =
      completed s (wordOf i) .busError ∧
    (∀ a : Word, (∀ j < s.len.toNat, a ≠ s.dst + BitVec.ofNat 32 j) → u.byte a = s.byte a) ∧
    ∃ mode, (i, mode) ∈ modeRules ∧ ∀ j < s.len.toNat, outByte s u j = outByte s s j ∨
      ∀ inputs : List Byte, inputs.length = s.len.toNat →
        (∀ k < s.len.toNat, s.platform.onRead (s.src + BitVec.ofNat 32 k) = .ordinary →
          inputs.getD k 0 = inByte s k) →
        outByte s u j = (mode s s.modeState inputs).2.getD j 0

/-- `exec i s` answers a next state, in which the command is in RUN and waits for an answer Mem never gives (R346). -/
def WaitsForEver (i : Instr) (s : State) : Prop :=
  ∃ t job, exec i s = .next t ∧ t.phase = .run job ∧ job.answers = false

/-- The loop variables of a stream command's pseudocode, and the Bytes written so far. -/
structure Loop where
  iv : Block
  ks : Block
  off : Nat
  out : List Byte

/-- The loop of R229, R230, R232 or R234 over i = 0..N−1, from the registers. -/
def runLoop (s : State) (body : Loop → Nat → Loop) : Loop :=
  (List.range s.len.toNat).foldl body { iv := s.iv, ks := s.ks, off := s.offset.toNat, out := [] }

/-- A Block with Byte `n` replaced. -/
def setByte (b : Block) (n : Nat) (v : Byte) : Block := Vector.ofFn fun k => if k.val = n then v else b[k]

/-- The body of R229's loop. -/
def cfbEncBody (s : State) (l : Loop) (i : Nat) : Loop :=
  let ks := if l.off = 0 then s.encrypt l.iv else l.ks
  let c := inByte s i ^^^ ks.toList.getD l.off 0
  { iv := setByte l.iv l.off c, ks := ks, off := (l.off + 1) % 16, out := l.out ++ [c] }

/-- The body of R230's loop. -/
def cfbDecBody (s : State) (l : Loop) (i : Nat) : Loop :=
  let ks := if l.off = 0 then s.encrypt l.iv else l.ks
  let c := inByte s i
  { iv := setByte l.iv l.off c, ks := ks, off := (l.off + 1) % 16, out := l.out ++ [c ^^^ ks.toList.getD l.off 0] }

/-- The body of R232's loop. -/
def ofbBody (s : State) (l : Loop) (i : Nat) : Loop :=
  let iv := if l.off = 0 then s.encrypt l.iv else l.iv
  let ks := if l.off = 0 then iv else l.ks
  { iv := iv, ks := ks, off := (l.off + 1) % 16, out := l.out ++ [inByte s i ^^^ ks.toList.getD l.off 0] }

/-- The body of R234's loop, with the increment selected at acceptance. -/
def ctrBody (inc : Block → Block) (s : State) (l : Loop) (i : Nat) : Loop :=
  let ks := if l.off = 0 then s.encrypt l.iv else l.ks
  let out := l.out ++ [inByte s i ^^^ ks.toList.getD l.off 0]
  if l.off + 1 = 16 then { iv := inc l.iv, ks := ks, off := 0, out := out }
  else { iv := l.iv, ks := ks, off := l.off + 1, out := out }

/-- The command runs and leaves what its loop leaves. -/
def RunsLoop (i : Instr) (s : State) (l : Loop) : Prop :=
  ∃ u, Runs i s (wordOf i) u ∧ ModeResult s u (wordOf i) l.iv l.ks l.off ∧
    ∀ j < s.len.toNat, outByte s u j = l.out.getD j 0

/-! ## Keys, lanes and counters -/

/-- rc_j for j from 1 to 10, written out (R144). -/
def roundConstant (j : Nat) : Byte := [0x01, 0x02, 0x04, 0x08, 0x10, 0x20, 0x40, 0x80, 0x1b, 0x36].getD (j - 1) 0

/-- The `temp` of R148 for word `i`, from the word before it, RotWord, SubWord and Rcon written out on Bytes (R144 to
R146). -/
def temp (nk i : Nat) (prev : KeyWord) : KeyWord :=
  if i % nk = 0 then #v[sbox prev[1] ^^^ roundConstant (i / nk), sbox prev[2], sbox prev[3], sbox prev[0]]
  else if nk = 8 ∧ i % nk = 4 then #v[sbox prev[0], sbox prev[1], sbox prev[2], sbox prev[3]]
  else prev

/-- `ws` are the words of the key by R147 and R148. -/
structure IsExpansion (nk nr : Nat) (key : KeyBytes) (ws : List KeyWord) : Prop where
  length : ws.length = 4 * nr + 4
  first : ∀ i < nk, ∀ k < 4, (ws.getD i zeroWord).toList.getD k 0 = key.toList.getD (4 * i + k) 0
  later : ∀ i, nk ≤ i → i < 4 * nr + 4 →
    ws.getD i zeroWord = xorWord (ws.getD (i - nk) zeroWord) (temp nk i (ws.getD (i - 1) zeroWord))

/-- Round key r of the words (R149): Byte 4j + k is Byte k of word 4r + j. -/
def roundKeyOf (ws : List KeyWord) (r : Nat) : Block :=
  Vector.ofFn fun n => (ws.getD (4 * r + n.val / 4) zeroWord).toList.getD (n.val % 4) 0

/-- The value of register `n` of a buffer's group, as R33 writes it. -/
def lanes (b : List Byte) (n : Nat) : Word :=
  (b.getD (4 * n) 0).setWidth 32 ||| (b.getD (4 * n + 1) 0).setWidth 32 <<< 8 |||
  (b.getD (4 * n + 2) 0).setWidth 32 <<< 16 ||| (b.getD (4 * n + 3) 0).setWidth 32 <<< 24

/-- `c` is `b` after a write of `v` to register `n` of its group: the four Bytes of its lanes replaced (R33, R278). -/
def LanesWritten {m : Nat} (b c : Vector Byte m) (n : Nat) (v : Word) : Prop :=
  ∀ k < m, c.toList.getD k 0 =
    if k / 4 = n then (v >>> (8 * (k % 4))).setWidth 8 else b.toList.getD k 0

/-- The Bytes read as a big-endian number, the first most significant (R241). -/
def bigEndian : List Byte → Nat
  | [] => 0
  | b :: rest => b.toNat * 2 ^ (8 * rest.length) + bigEndian rest

/-- `inc` adds 1 modulo 2^(8·(16 − first)) to the Bytes from `first` on and keeps the others (R241 to R243). -/
def IncrementsFrom (first : Nat) (inc : Block → Block) : Prop :=
  ∀ b : Block, (inc b).toList.take first = b.toList.take first ∧
    bigEndian ((inc b).toList.drop first) =
      (bigEndian (b.toList.drop first) + 1) % 2 ^ (8 * (16 - first))

/-- `n` steps from `s` reach `t`. -/
def Reaches (n : Nat) (s t : State) : Prop := Host.Core.run Sys2Proof.core n s = .next t

end Sys2Proof.Claims

open Sys2Proof Sys2Proof.Machine Sys2Proof.Claims Sys2Proof.Safety

/-! ## Decoding -/

/-- R111 to R113, R122: decoding the transaction of a well-formed instruction gives the instruction back. -/
def Obligations.DecodeOfEncodeIsTheInstruction : Prop :=
  ∀ i : Instr, i.wf = true → decode (encode i) = .ok i

/-- R111, R114: what the decoder gives is well-formed, and its transaction is the one decoded, but for the DATA of a
read, which is 0 in the request. -/
def Obligations.EncodeOfDecodeIsTheTransaction : Prop :=
  ∀ (t : Transaction) (i : Instr), decode t = .ok i →
    i.wf = true ∧ encode i = Transaction.mk t.we t.off (if t.we then t.data else 0)

/-- R114: the first row of spec/opcode_table.json whose masked bits match is the instruction's row. -/
def Obligations.DecodeTakesTheFirstMatchingRow : Prop :=
  ∀ t : Transaction, t.off.toNat % 4 = 0 →
    ∃ i r, decode t = .ok i ∧ opcodeTable.find? (fun r => t.toNat &&& r.mask == r.pattern) = some r ∧
      r.mnemonic = i.mnemonic

/-- R113, R122: words written out from the spec's encodings decode to their instructions. -/
def Obligations.WrittenOutWordsDecode : Prop :=
  decode 0x10400000002 = .ok .kexpEnc ∧ decode 0x10400000005 = .ok .decBlock ∧
  decode 0x10400000006 = .ok .resetMode ∧ decode 0x10400000017 = .ok .ctrCrypt ∧
  decode 0x10400000101 = .ok (.cmdIllegal 0x101) ∧ decode 0x160f3f2f1f0 = .ok (.regWrite 0x60 0xf3f2f1f0) ∧
  decode 0x00800000000 = .ok (.regRead 0x08)

/-! ## The step -/

/-- The next host event is a transaction that decodes to `i`: the step is exec of `i`, after what the sequencer does
before the event and with the event taken from the queue. -/
def Obligations.StepRunsTheDecodedInstruction : Prop :=
  ∀ (s : State) (t : Transaction) (rest : List HostEvent) (i : Instr),
    s.inputs = .transaction t :: rest → decode t = .ok i →
    step s = exec i { s.tick with inputs := rest, response := .written }

/-- R346, R333: with no host event waiting, a command in RUN that Mem answers completes in the step, and an idle
machine stays as it is. -/
def Obligations.StepWithoutEventsCompletesOrWaits : Prop :=
  ∀ s : State, s.inputs = [] →
    (∀ job, s.phase = .run job → job.answers = true →
      ∃ t, step s = .next t ∧ t.busy = false ∧ t.done = true ∧ t.errCode = job.error) ∧
    (s.busy = false → step s = .next s)

/-- R346, R301: a host that polls STATUS while a command that Mem answers runs sees BUSY = 0 and DONE = 1 after the
number of reads the tape gave the command, and no sooner. -/
def Obligations.PollingSeesTheCompletion : Prop :=
  ∀ (s : State) (job : Job) (rest : List HostEvent), s.phase = .run job → job.answers = true →
    s.inputs = List.replicate (job.left + 1) (.transaction 0x00800000000) ++ rest →
    (∀ n, n < job.left → ∃ t v, Reaches (n + 1) s t ∧ t.response = .data v ∧ v.getLsbD 0 = true) ∧
    ∃ t v, Reaches (job.left + 1) s t ∧ t.inputs = rest ∧ t.response = .data v ∧
      v.getLsbD 0 = false ∧ v.getLsbD 1 = true

/-- R82, R83: an aligned 32-bit access at REG_BASE + offset is served as the transaction T of that offset; a 32-bit
access at any other offset of the window, and an 8- or 16-bit access to it, gets a bus error response and changes
nothing else. -/
def Obligations.WindowServesAlignedWordsOnly : Prop :=
  ∀ (s : State) (rest : List HostEvent) (w : Bool) (off : Nat) (z : AccessSize) (value : Word), off < 256 →
    s.inputs = .busAccess w (256 * s.platform.regPage + off) z value :: rest →
    (z = .word → off % 4 = 0 → ∀ i,
      decode (Transaction.mk w (BitVec.ofNat 8 off) (if w then value else 0)) = .ok i →
      step s = exec i { s.tick with inputs := rest, response := .written }) ∧
    (z ≠ .word ∨ off % 4 ≠ 0 → step s = .next { s.tick with inputs := rest, response := .busError })

/-! ## Commands without DMA -/

/-- R150: INIT sets TABLES_READY and completes with code 0, whatever the state; it changes nothing else. -/
def Obligations.InitSetsTablesReady : Prop :=
  ∀ s : State, s.busy = false → Runs .init s 0x01 { completed s 0x01 .none with tablesReady := true }

/-- R236: RESET_MODE clears OFFSET and completes with code 0, whatever the state; it changes nothing else. -/
def Obligations.ResetModeClearsOffset : Prop :=
  ∀ s : State, s.busy = false → Runs .resetMode s 0x06 { completed s 0x06 .none with offset := 0 }

/-- R147 to R149, R151, the steps of R144 to R146 written out on Bytes: KEXP_ENC of a legal KEYLEN expands the key and
replaces the encryption context; it changes nothing else. -/
def Obligations.KexpEncBuildsTheEncryptionSchedule : Prop :=
  ∀ (s : State) (nk nr : Nat), s.busy = false → s.tablesReady = true →
    (s.keyLen = 16 ∨ s.keyLen = 128) ∧ nk = 4 ∧ nr = 10 ∨ (s.keyLen = 24 ∨ s.keyLen = 192) ∧ nk = 6 ∧ nr = 12 ∨
      (s.keyLen = 32 ∨ s.keyLen = 256) ∧ nk = 8 ∧ nr = 14 →
    ∃ ws, IsExpansion nk nr s.key ws ∧
      Runs .kexpEnc s 0x02 { completed s 0x02 .none with
        enc := { valid := true, nr := BitVec.ofNat 4 nr, rows := Vector.ofFn fun r =>
          if r.val ≤ nr then roundKeyOf ws r.val else Block.zero } }

/-- R147 to R149, R152, the steps of R144 to R146 written out on Bytes: KEXP_DEC of a legal KEYLEN expands the key and
replaces the decryption context by the reversed schedule, InvMixColumns applied to its inner rows; it changes nothing
else. -/
def Obligations.KexpDecBuildsTheDecryptionSchedule : Prop :=
  ∀ (s : State) (nk nr : Nat), s.busy = false → s.tablesReady = true →
    (s.keyLen = 16 ∨ s.keyLen = 128) ∧ nk = 4 ∧ nr = 10 ∨ (s.keyLen = 24 ∨ s.keyLen = 192) ∧ nk = 6 ∧ nr = 12 ∨
      (s.keyLen = 32 ∨ s.keyLen = 256) ∧ nk = 8 ∧ nr = 14 →
    ∃ ws, IsExpansion nk nr s.key ws ∧
      Runs .kexpDec s 0x03 { completed s 0x03 .none with
        dec := { valid := true, nr := BitVec.ofNat 4 nr, rows := Vector.ofFn fun r =>
          if r.val = 0 then roundKeyOf ws nr
          else if r.val < nr then invMixColumns (roundKeyOf ws (nr - r.val))
          else if r.val = nr then roundKeyOf ws 0 else Block.zero } }

/-- R191: ENC_BLOCK puts Cipher of BIN in BOUT and completes with code 0; it changes nothing else. -/
def Obligations.EncBlockEnciphersBin : Prop :=
  ∀ s : State, s.busy = false → s.tablesReady = true → s.enc.valid = true →
    Runs .encBlock s 0x04 { completed s 0x04 .none with
      bout := cipher (fun r => s.enc.rows.toList.getD r Block.zero) s.enc.nr.toNat s.bin }

/-- R192: DEC_BLOCK puts EqInvCipher of BIN in BOUT and completes with code 0; it changes nothing else. -/
def Obligations.DecBlockDeciphersBin : Prop :=
  ∀ s : State, s.busy = false → s.tablesReady = true → s.dec.valid = true →
    Runs .decBlock s 0x05 { completed s 0x05 .none with
      bout := eqInvCipher (fun r => s.dec.rows.toList.getD r Block.zero) s.dec.nr.toNat s.bin }

/-! ## Errors at acceptance (R299, R302): STATUS, and OP and POS, change; nothing else -/

/-- R297: a word that is no command completes with ILLEGAL_COMMAND. -/
def Obligations.IllegalWordCompletesWithCodeFive : Prop :=
  ∀ (s : State) (w : Word), s.busy = false → (Instr.cmdIllegal w).wf = true →
    Runs (.cmdIllegal w) s w (completed s w .illegalCommand)

/-- R295: before INIT every gated command completes with UNINITIALIZED_TABLES, whatever else is wrong. -/
def Obligations.UninitializedTablesComesFirst : Prop :=
  ∀ (s : State) (i : Instr), i ∈ gatedCommands → s.busy = false → s.tablesReady = false →
    Runs i s (wordOf i) (completed s (wordOf i) .uninitializedTables)

/-- R293: a key expansion of any other KEYLEN completes with INVALID_KEY_LENGTH. -/
def Obligations.InvalidKeyLengthFailsExpansion : Prop :=
  ∀ (s : State) (i : Instr), i ∈ [Instr.kexpEnc, .kexpDec] → s.busy = false → s.tablesReady = true →
    s.keyLen.toNat ∉ [16, 24, 32, 128, 192, 256] →
    Runs i s (wordOf i) (completed s (wordOf i) .invalidKeyLength)

/-- R296: a block or mode command whose context is not valid completes with NO_SCHEDULE, whatever LEN is. -/
def Obligations.MissingScheduleFailsCommand : Prop :=
  ∀ (s : State) (i : Instr), i ∈ [Instr.encBlock, .decBlock] ++ modeCommands → s.busy = false →
    s.tablesReady = true → (contextOf i s).valid = false →
    Runs i s (wordOf i) (completed s (wordOf i) .noSchedule)

/-- R294: ECB and CBC with LEN no multiple of 16 complete with MISALIGNED_LENGTH; memory and IV are untouched. -/
def Obligations.MisalignedLengthFailsBlockModes : Prop :=
  ∀ (s : State) (i : Instr), i ∈ blockCommands → s.busy = false → s.tablesReady = true →
    (contextOf i s).valid = true → s.len.toNat % 16 ≠ 0 →
    Runs i s (wordOf i) (completed s (wordOf i) .misalignedLength)

/-! ## Mode commands -/

/-- R223, R224: ECB writes E or D of each input Block at the same index, in place too; no other register, and no Byte
outside the destination range, changes. The host stores that waited over
the destination range are gone: no rule, but the DEDUCED choice of notes/assumptions/14.md (`ModeResult.waiting`). -/
def Obligations.EcbWritesEachBlockThroughTheCipher : Prop :=
  ∀ s : State, DmaReady s →
    (Accepts .ecbEnc s → ∃ u, Runs .ecbEnc s 0x10 u ∧ ModeResult s u 0x10 s.iv s.ks s.offset.toNat ∧
      ∀ j < s.len.toNat / 16, outBlock s u j = s.encrypt (inBlock s j)) ∧
    (Accepts .ecbDec s → ∃ u, Runs .ecbDec s 0x11 u ∧ ModeResult s u 0x11 s.iv s.ks s.offset.toNat ∧
      ∀ j < s.len.toNat / 16, outBlock s u j = s.decrypt (inBlock s j))

/-- R225: CBC_ENC writes E of each input Block ⊕ the previous output Block, the IV before the first, and leaves the
last output Block in IV; KS, OFFSET and the rest do not change. The host stores that waited over
the destination range are gone: no rule, but the DEDUCED choice of notes/assumptions/14.md (`ModeResult.waiting`). -/
def Obligations.CbcEncChainsTheOutputBlocks : Prop :=
  ∀ s : State, DmaReady s → Accepts .cbcEnc s →
    ∃ u, Runs .cbcEnc s 0x12 u ∧
      ModeResult s u 0x12 (if s.len.toNat = 0 then s.iv else outBlock s u (s.len.toNat / 16 - 1)) s.ks
        s.offset.toNat ∧
      ∀ j < s.len.toNat / 16,
        outBlock s u j = s.encrypt (xorBlock (inBlock s j) (if j = 0 then s.iv else outBlock s u (j - 1)))

/-- R226: CBC_DEC writes D of each input Block ⊕ the previous input Block, the IV before the first, and leaves the last
input Block in IV, in place too; KS, OFFSET and the rest do not change. The host stores that waited over
the destination range are gone: no rule, but the DEDUCED choice of notes/assumptions/14.md (`ModeResult.waiting`). -/
def Obligations.CbcDecChainsTheInputBlocks : Prop :=
  ∀ s : State, DmaReady s → Accepts .cbcDec s →
    ∃ u, Runs .cbcDec s 0x13 u ∧
      ModeResult s u 0x13 (if s.len.toNat = 0 then s.iv else inBlock s (s.len.toNat / 16 - 1)) s.ks
        s.offset.toNat ∧
      ∀ j < s.len.toNat / 16,
        outBlock s u j = xorBlock (s.decrypt (inBlock s j)) (if j = 0 then s.iv else inBlock s (j - 1))

/-- R229, R230: CFB_ENC and CFB_DEC leave what the loops of their pseudocode leave, the output Byte fed back in the
first and the input Byte in the second, both from the encryption context. The host stores that waited over
the destination range are gone: no rule, but the DEDUCED choice of notes/assumptions/14.md (`ModeResult.waiting`). -/
def Obligations.CfbFollowsItsLoops : Prop :=
  ∀ s : State, DmaReady s →
    (Accepts .cfbEnc s → RunsLoop .cfbEnc s (runLoop s (cfbEncBody s))) ∧
    (Accepts .cfbDec s → RunsLoop .cfbDec s (runLoop s (cfbDecBody s)))

/-- R232: OFB_CRYPT leaves what the loop of its pseudocode leaves. The host stores that waited over
the destination range are gone: no rule, but the DEDUCED choice of notes/assumptions/14.md (`ModeResult.waiting`). -/
def Obligations.OfbFollowsItsLoop : Prop :=
  ∀ s : State, DmaReady s → Accepts .ofbCrypt s → RunsLoop .ofbCrypt s (runLoop s (ofbBody s))

/-- R234, R240: CTR_CRYPT leaves what the loop of its pseudocode leaves, with the increment CTRINC selects at
acceptance; the external one is whatever function Config.extInc is. The host stores that waited over
the destination range are gone: no rule, but the DEDUCED choice of notes/assumptions/14.md (`ModeResult.waiting`). -/
def Obligations.CtrFollowsItsLoop : Prop :=
  ∀ (s : State) (inc : Block → Block), DmaReady s → Accepts .ctrCrypt s →
    (s.ctrInc = 0 ∧ inc = inc0 ∨ s.ctrInc = 1 ∧ inc = inc1 ∨ s.ctrInc = 2 ∧ inc = inc2 ∨
      s.ctrInc = 3 ∧ inc = Config.extInc) →
    RunsLoop .ctrCrypt s (runLoop s (ctrBody inc s))

/-- R237: with LEN = 0 every mode command passes its checks, touches no memory and no register but STATUS, OP and POS,
and completes with code 0. -/
def Obligations.ZeroLengthChangesNothing : Prop :=
  ∀ (s : State) (i : Instr), i ∈ modeCommands → Accepts i s → s.len = 0 →
    Runs i s (wordOf i) (completed s (wordOf i) .none)

/-- R241 to R243: the built-in strategies add 1 to a big-endian counter modulo its width and keep the nonce Bytes. -/
def Obligations.CounterStrategiesIncrementBigEndian : Prop :=
  IncrementsFrom 0 inc0 ∧ IncrementsFrom 8 inc1 ∧ IncrementsFrom 12 inc2

/-- R235: one command over N Bytes, and two over the first k and the last N − k, leave the same memory, IV, KS and
OFFSET: for every k in a stream mode, for every multiple of 16 in ECB and CBC. -/
def Obligations.CommandsMayBeSplit : Prop :=
  ∀ (s : State) (i : Instr) (k : Nat), i ∈ modeCommands → DmaReady s → Accepts i s → k ≤ s.len.toNat →
    (i ∈ blockCommands → k % 16 = 0) →
    ∃ t t1 t2, exec i s = .next t ∧ exec i { s with len := BitVec.ofNat 32 k } = .next t1 ∧
      exec i { t1.complete with
        len := s.len - BitVec.ofNat 32 k, src := s.src + BitVec.ofNat 32 k, dst := s.dst + BitVec.ofNat 32 k }
        = .next t2 ∧
      t.complete.mem = t2.complete.mem ∧ t.complete.iv = t2.complete.iv ∧ t.complete.ks = t2.complete.ks ∧
      t.complete.offset = t2.complete.offset

/-- R233: OFB over its own output, from the same IV, KS and OFFSET, gives the input back and the same ModeState. -/
def Obligations.OfbIsItsOwnInverse : Prop :=
  ∀ (s : State) (m : ModeState) (x : List Byte),
    ofbMode s m (ofbMode s m x).2 = ((ofbMode s m x).1, x)

/-- R230: from the same ModeState, CFB_DEC of CFB_ENC's output gives the input back and ends in the same IV, KS and
OFFSET. -/
def Obligations.CfbDecInvertsCfbEnc : Prop :=
  ∀ (s : State) (m : ModeState) (x : List Byte),
    cfbDecMode s m (cfbEncMode s m x).2 = ((cfbEncMode s m x).1, x)

/-- R245: two CTR runs from the same key, counter, KS, OFFSET and CTRINC over inputs of one length give outputs whose
⊕ is that of the inputs. -/
def Obligations.CtrKeystreamIsIndependentOfTheInput : Prop :=
  ∀ (s : State) (m : ModeState) (x y : List Byte), x.length = y.length →
    List.zipWith (· ^^^ ·) (ctrMode s m x).2 (ctrMode s m y).2 = List.zipWith (· ^^^ ·) x y

/-! ## DMA that does not succeed -/

/-- R93: a mode command whose ranges partially overlap faults. -/
def Obligations.PartialOverlapFaults : Prop :=
  ∀ (s : State) (i : Instr), i ∈ modeCommands → Accepts i s → ¬ NoPartialOverlap s →
    exec i s = .fault .overlap

/-- R96 to R98: a mode command over a host store to its source range that is not visible to the DMA port faults; and so
does a host load of a Byte DMA wrote that the host has not invalidated, unless it faults as a race with a running command
(R94). -/
def Obligations.BrokenCacheDutyFaults : Prop :=
  (∀ (s : State) (i : Instr), i ∈ modeCommands → Accepts i s → NoPartialOverlap s → ¬ StoresVisible s →
    exec i s = .fault .hostCache) ∧
  ∀ (s : State) (a : Word), a ∈ s.hostStale →
    (∀ job, s.phase = .run job → job.dma = true → ∀ i < s.len.toNat, a ≠ s.dst + BitVec.ofNat 32 i) →
    serve (.load a) s = .fault .hostCache

/-- U6 (R90): a mode command one of whose ranges reaches a device, to reads or to writes, is refused by name
(notes/assumptions/16.md). -/
def Obligations.DeviceRangeIsRefused : Prop :=
  ∀ (s : State) (i : Instr), i ∈ modeCommands → Accepts i s → NoPartialOverlap s → StoresVisible s →
    ReachesDevice s → exec i s = .refused .deviceRange

/-- R298, R303, R222: a mode command that meets a bus error, and by R91 can meet no access Mem never answers, ends with
code 6; every register but STATUS, OP and POS is as at acceptance, POS is at most LEN, no Byte outside the destination range
changes, and each Byte of it is old or the one the command's rule gives, whatever Bytes stand for the inputs Mem did not
answer with a Byte. Which of the two is a free value (notes/assumptions/8.md). -/
def Obligations.BusErrorKeepsTheRegisters : Prop :=
  ∀ (s : State) (i : Instr), i ∈ modeCommands → Accepts i s → s.mem.wf = true → NoPartialOverlap s →
    StoresVisible s → ¬ ReachesDevice s → ¬ CanMeet i s .never → Meets s .busError → EndsWithBusError i s

/-- R346, R91: a mode command that meets an access Mem never answers, and can meet no bus error, enters RUN as one that is
not answered; one that meets both does that or ends with BUS_ERROR (notes/assumptions/10.md); and a command that is not
answered stays in RUN, whatever the host does short of a reset: a step that answers a state leaves BUSY = 1. -/
def Obligations.UnansweredCommandStaysInRun : Prop :=
  (∀ (s : State) (i : Instr), i ∈ modeCommands → Accepts i s → NoPartialOverlap s → StoresVisible s →
    ¬ ReachesDevice s → ¬ CanMeet i s .busError → Meets s .never → WaitsForEver i s) ∧
  (∀ (s : State) (i : Instr), i ∈ modeCommands → Accepts i s → s.mem.wf = true → NoPartialOverlap s → StoresVisible s →
    ¬ ReachesDevice s → Meets s .busError → Meets s .never → WaitsForEver i s ∨ EndsWithBusError i s) ∧
  ∀ (s t : State) (job : Job), s.phase = .run job → job.answers = false → s.inputs.head? ≠ some .reset →
    step s = .next t → ∃ job', t.phase = .run job' ∧ job'.answers = false

/-- R94: while a command with DMA runs, a load of its destination range, and a store to either range, by the host or by
another bus master is a race and faults. -/
def Obligations.LoadOfDestinationOrStoreToARangeInRunFaults : Prop :=
  ∀ (s : State) (job : Job) (i : Nat) (b : Byte), s.phase = .run job → job.dma = true → i < s.len.toNat →
    serve (.load (s.dst + BitVec.ofNat 32 i)) s = .fault .race ∧
    serve (.store (s.dst + BitVec.ofNat 32 i) b) s = .fault .race ∧
    serve (.store (s.src + BitVec.ofNat 32 i) b) s = .fault .race ∧
    serve (.masterLoad (s.dst + BitVec.ofNat 32 i)) s = .fault .race ∧
    serve (.masterStore (s.dst + BitVec.ofNat 32 i) b) s = .fault .race ∧
    serve (.masterStore (s.src + BitVec.ofNat 32 i) b) s = .fault .race

/-! ## Host access to the registers -/

/-- R272: while BUSY, a command and a write to any offset but STATUS are dropped and set WIGN; nothing else changes. -/
def Obligations.WritesInRunAreDropped : Prop :=
  ∀ s : State, s.busy = true →
    (∀ i ∈ [Instr.init, .resetMode] ++ gatedCommands, exec i s = .next { s with wign := true }) ∧
    (∀ w, exec (.cmdIllegal w) s = .next { s with wign := true }) ∧
    ∀ off v, off.toNat % 4 = 0 → off ≠ 0x08 → exec (.regWrite off v) s = .next { s with wign := true }

/-- R273: in the state acceptance of any command leaves, where BUSY = 1, every register but STATUS reads as before it, and
STATUS has BUSY = 1, DONE, ERR and ERRCODE 0, and its other bits as before. And each later step in RUN, one in which the
command does not complete and that is no reset, leaves every register but STATUS, and the bits of STATUS but DONE, ERR, WIGN
and ERRCODE, as they were; a DONE, ERR and ERRCODE of 0 stay 0. -/
def Obligations.ReadsInRunGiveTheAcceptanceValues : Prop :=
  (∀ (s t : State) (i : Instr), i.wf = true → s.busy = false → exec i s = .next t → t.busy = true →
    (∀ off : BitVec 8, off.toNat / 4 ≠ 2 → t.readReg (regAt off) = s.readReg (regAt off)) ∧
    t.statusWord = (s.statusWord &&& 0xFFFFF0F9) ||| 0x1) ∧
  ∀ (s t : State) (job : Job), s.phase = .run job → job.answers = false ∨ job.left ≠ 0 ∧ s.inputs ≠ [] →
    s.inputs.head? ≠ some .reset → step s = .next t →
    (∃ n ≤ job.left, t.phase = .run { job with left := n }) ∧
    (∀ off : BitVec 8, off.toNat / 4 ≠ 2 → t.readReg (regAt off) = s.readReg (regAt off)) ∧
    t.statusWord &&& 0xFFFFF0F1 = s.statusWord &&& 0xFFFFF0F1 ∧
    (s.done = false → s.errCode = .none → t.done = false ∧ t.errCode = .none)

/-- R274: a write to STATUS, BUSY or not: bit 1 clears DONE, ERR and ERRCODE, bit 3 clears WIGN, and nothing else
changes. -/
def Obligations.StatusWriteClearsDoneAndWign : Prop :=
  ∀ (s : State) (v : Word), exec (.regWrite 0x08 v) s = .next { s with
    done := s.done && !v.getLsbD 1
    errCode := if v.getLsbD 1 then .none else s.errCode
    wign := s.wign && !v.getLsbD 3 }

/-- R36: STATUS reads its fields at their bits, ERR is 1 exactly when ERRCODE is not 0, and every reserved bit is 0. -/
def Obligations.StatusReadsItsFields : Prop :=
  ∀ s : State, ∃ code : BitVec 4,
    (s.errCode, code) ∈ [(Error.none, 0), (.invalidKeyLength, 1), (.misalignedLength, 2), (.uninitializedTables, 3),
      (.noSchedule, 4), (.illegalCommand, 5), (.busError, 6)] ∧
    exec (.regRead 0x08) s = .next { s with response := .data s.statusWord } ∧
    s.statusWord.getLsbD 0 = s.busy ∧ s.statusWord.getLsbD 1 = s.done ∧
    s.statusWord.getLsbD 2 = (code != 0) ∧ s.statusWord.getLsbD 3 = s.wign ∧
    s.statusWord.extractLsb' 4 4 = 0 ∧ s.statusWord.extractLsb' 8 4 = code ∧
    s.statusWord.extractLsb' 12 4 = 0 ∧ s.statusWord.getLsbD 16 = s.tablesReady ∧
    s.statusWord.getLsbD 17 = s.enc.valid ∧ s.statusWord.getLsbD 18 = s.dec.valid ∧
    s.statusWord.extractLsb' 19 13 = 0

/-- R270: REG_READ answers the register's value and changes nothing but the answer; KEY, CMD and reserved offsets
read 0. STATUS is the subject of StatusReadsItsFields. -/
def Obligations.RegReadAnswersTheRegister : Prop :=
  ∀ (s : State) (off : BitVec 8), off.toNat % 4 = 0 → ∃ v : Word,
    exec (.regRead off) s = .next { s with response := .data v } ∧
    (off = 0x00 → v = (BitVec.ofBool s.ie).setWidth 32 ||| s.ctrInc.setWidth 32 <<< 4) ∧
    (off = 0x08 → v = s.statusWord) ∧
    (off = 0x0C → v = s.enc.nr.setWidth 32 ||| s.dec.nr.setWidth 32 <<< 8) ∧
    (off = 0x10 → v = s.keyLen) ∧ (off = 0x14 → v = s.offset.setWidth 32) ∧ (off = 0x18 → v = s.len) ∧
    (off = 0x1C → v = s.src) ∧ (off = 0x20 → v = s.dst) ∧
    (∀ n < 4, off.toNat = 0x60 + 4 * n → v = lanes s.iv.toList n) ∧
    (∀ n < 4, off.toNat = 0x70 + 4 * n → v = lanes s.ks.toList n) ∧
    (∀ n < 4, off.toNat = 0x80 + 4 * n → v = lanes s.bin.toList n) ∧
    (∀ n < 4, off.toNat = 0x90 + 4 * n → v = lanes s.bout.toList n) ∧
    (off = 0x04 ∨ 0x24 ≤ off.toNat ∧ off.toNat ≤ 0x5C ∨ 0xA0 ≤ off.toNat → v = 0)

/-- R271, R276, R278, R279: REG_WRITE while BUSY = 0 sets the writable bits of the register and changes nothing else;
read-only registers and reserved offsets ignore it. STATUS is the subject of StatusWriteClearsDoneAndWign. -/
def Obligations.RegWriteSetsTheWritableBits : Prop :=
  ∀ (s : State) (off : BitVec 8) (v : Word), s.busy = false →
    exec (.regWrite 0x00 v) s = .next { s with ie := v.getLsbD 0, ctrInc := v.extractLsb' 4 2 } ∧
    exec (.regWrite 0x10 v) s = .next { s with keyLen := v } ∧
    exec (.regWrite 0x14 v) s = .next { s with offset := v.setWidth 4 } ∧
    exec (.regWrite 0x18 v) s = .next { s with len := v } ∧
    exec (.regWrite 0x1C v) s = .next { s with src := v } ∧
    exec (.regWrite 0x20 v) s = .next { s with dst := v } ∧
    (∀ n < 8, ∃ c, LanesWritten s.key c n v ∧
      exec (.regWrite (BitVec.ofNat 8 (0x40 + 4 * n)) v) s = .next { s with key := c }) ∧
    (∀ n < 4, ∃ c, LanesWritten s.iv c n v ∧
      exec (.regWrite (BitVec.ofNat 8 (0x60 + 4 * n)) v) s = .next { s with iv := c }) ∧
    (∀ n < 4, ∃ c, LanesWritten s.ks c n v ∧
      exec (.regWrite (BitVec.ofNat 8 (0x70 + 4 * n)) v) s = .next { s with ks := c }) ∧
    (∀ n < 4, ∃ c, LanesWritten s.bin c n v ∧
      exec (.regWrite (BitVec.ofNat 8 (0x80 + 4 * n)) v) s = .next { s with bin := c }) ∧
    (off.toNat % 4 = 0 → off = 0x0C ∨ 0x24 ≤ off.toNat ∧ off.toNat ≤ 0x3C ∨ 0x90 ≤ off.toNat →
      exec (.regWrite off v) s = .next s)

/-- R277: a read served after a write to the same register gives the value the write left: all of v for a 32-bit
register, the field bits of v for CTRL and OFFSET. -/
def Obligations.ReadAfterWriteGivesTheWrittenBits : Prop :=
  ∀ (s : State) (off : BitVec 8) (v : Word), s.busy = false → off.toNat % 4 = 0 →
    off.toNat < 0x24 ∧ off ≠ 0x04 ∧ off ≠ 0x08 ∧ off ≠ 0x0C ∨ 0x60 ≤ off.toNat ∧ off.toNat < 0x90 →
    ∃ t r, exec (.regWrite off v) s = .next t ∧ exec (.regRead off) t = .next { t with response := .data r } ∧
      r = if off = 0x00 then v &&& 0x31 else if off = 0x14 then v &&& 0xF else v

/-- R43, R49: what a read of any register answers does not depend on KEY or on the round-key stores. -/
def Obligations.ReadsDoNotRevealKeys : Prop :=
  ∀ (s : State) (off : BitVec 8) (k : KeyBytes) (e d : Vector Block 15),
    ∃ v, exec (.regRead off) s = .next { s with response := v } ∧
      let t := { s with key := k, enc := { s.enc with rows := e }, dec := { s.dec with rows := d } }
      exec (.regRead off) t = .next { t with response := v }

/-! ## Reset, the interrupt and whole-machine rules -/

/-- R330, R331, R332: the reset input sets every register to 0 and PHASE to IDLE, completes no command, and changes no
Byte of memory but those of the destination range of a command in RUN, each of which is old or the one the command would
have written. -/
def Obligations.ResetInputClearsTheRegisters : Prop :=
  ∀ s : State, s.mem.wf = true → ∃ t, serve .reset s = .next t ∧
    { t with mem := [], platform := s.platform, hostDirty := [], hostStale := [], inputs := [], stall := [], freeCount := 0 } =
      { State.reset with platform := s.platform } ∧
    t.platform = s.platform ∧
    (s.busy = false → t.mem = s.mem) ∧
    ∀ job, s.phase = .run job → ∀ a : Word, t.byte a = s.byte a ∨ ∃ b, (a, b) ∈ job.writes ∧ t.byte a = b

/-- R58, R31: after reset every register of the window reads 0, and irq is 0. -/
def Obligations.ResetRegistersReadZero : Prop :=
  State.reset.irq = false ∧ ∀ off : BitVec 8, off.toNat % 4 = 0 →
    exec (.regRead off) State.reset = .next { State.reset with response := .data 0 }

/-- R304, R300, R307: irq is IE and DONE; acceptance lowers it until the command completes; completion makes it the IE of
acceptance, at once or after the host events the tape gives the command, since it makes it IE from every state in RUN; and
the acknowledgement lowers it. -/
def Obligations.InterruptFollowsCompletion : Prop :=
  (∀ s : State, s.irq = (s.ie && s.done)) ∧
  (∀ (s t : State) (i : Instr), i.wf = true → (commandWord i).isSome = true → s.busy = false →
    exec i s = .next t → (t.busy = true → t.irq = false) ∧ (t.busy = false → t.irq = s.ie) ∧
      ∀ job, t.phase = .run job → job.answers = true → t.complete.irq = s.ie) ∧
  (∀ (s : State) (job : Job), s.phase = .run job → job.answers = true →
    s.complete.busy = false ∧ s.complete.irq = s.ie) ∧
  ∀ (s t : State) (v : Word), v.getLsbD 1 = true → exec (.regWrite 0x08 v) s = .next t → t.irq = false

/-- R58: the state after reset has the invariant. -/
def Obligations.ResetHasTheInvariant : Prop := Inv State.reset

/-- Every step keeps the invariant: memory in canonical form, contexts empty or whole, no schedule before the tables, no
error code without DONE, nothing in the host's caches where DMA is coherent, a sound command in RUN. -/
def Obligations.StepKeepsTheInvariant : Prop :=
  ∀ s t : State, Inv s → step s = .next t → Inv t

/-- R143, R36: from a state with the invariant, no step but a reset clears TABLES_READY, ENC_VALID or DEC_VALID. -/
def Obligations.ReadinessFallsOnlyAtReset : Prop :=
  ∀ s t : State, Inv s → s.inputs.head? ≠ some .reset → step s = .next t →
    (s.tablesReady = true → t.tablesReady = true) ∧ (s.enc.valid = true → t.enc.valid = true) ∧
    (s.dec.valid = true → t.dec.valid = true)

/-- R50: of all instructions only KEXP_ENC changes the encryption context, and only KEXP_DEC the decryption context. -/
def Obligations.OnlyKeyExpansionChangesASchedule : Prop :=
  ∀ (s t : State) (i : Instr), i.wf = true → s.busy = false → exec i s = .next t →
    (i ≠ .kexpEnc → t.complete.enc = s.enc) ∧ (i ≠ .kexpDec → t.complete.dec = s.dec)

/-- R80: of all instructions only the eight mode commands change memory. -/
def Obligations.OnlyModeCommandsChangeMemory : Prop :=
  ∀ (s t : State) (i : Instr), i.wf = true → s.busy = false → i ∉ modeCommands → exec i s = .next t →
    t.complete.mem = s.mem

/-! ## The ciphers -/

/-- R141, R142: SBOX is the affine image of the inverse in GF(2^8), 0 standing for the inverse of 0, and INVSBOX is its
inverse. -/
def Obligations.SboxIsTheAffineImageOfTheInverse : Prop :=
  sbox 0 = 0x63 ∧
  (∀ a : Byte, a ≠ 0 → ∃ b : Byte, gfMul a b = 1 ∧
    sbox a = b ^^^ b.rotateLeft 1 ^^^ b.rotateLeft 2 ^^^ b.rotateLeft 3 ^^^ b.rotateLeft 4 ^^^ 0x63) ∧
  ∀ a : Byte, invSbox (sbox a) = a

/-- R140: xtime shifts left by one and folds in 0x11B where bit 7 was 1; multiplication in GF(2^8) is commutative and
associative, has 1 and 0 as identity and zero, doubles by xtime, distributes over ⊕, and gives every Byte but 0 one
inverse. -/
def Obligations.FieldMultiplicationLaws : Prop :=
  (∀ a : Byte, xtime a = ((a.setWidth 9 <<< 1) ^^^ (if a.getLsbD 7 then 0x11B else 0)).setWidth 8) ∧
  (∀ a b c : Byte, gfMul a b = gfMul b a ∧ gfMul (gfMul a b) c = gfMul a (gfMul b c) ∧ gfMul a 1 = a ∧
    gfMul a 0 = 0 ∧ gfMul 2 a = xtime a ∧ gfMul a (b ^^^ c) = gfMul a b ^^^ gfMul a c) ∧
  ∀ a : Byte, a ≠ 0 → ∃ b : Byte, gfMul a b = 1 ∧ ∀ c : Byte, gfMul a c = 1 → c = b

/-- R182, R187: ShiftRows and InvShiftRows move the Bytes as their index lists say. R183, R188: MixColumns and
InvMixColumns multiply each column by their matrices, and the second undoes the first. -/
def Obligations.RowAndColumnTransformsFollowTheirMatrices : Prop :=
  (∀ s : Block,
    (shiftRows s).toList = [0, 5, 10, 15, 4, 9, 14, 3, 8, 13, 2, 7, 12, 1, 6, 11].map (s.toList.getD · 0) ∧
    (invShiftRows s).toList = [0, 13, 10, 7, 4, 1, 14, 11, 8, 5, 2, 15, 12, 9, 6, 3].map (s.toList.getD · 0)) ∧
  (∀ (s : Block) (c : Nat), c < 4 →
    let a := fun r => s.toList.getD (r + 4 * c) 0
    let m := fun r => (mixColumns s).toList.getD (r + 4 * c) 0
    let v := fun r => (invMixColumns s).toList.getD (r + 4 * c) 0
    m 0 = gfMul 2 (a 0) ^^^ gfMul 3 (a 1) ^^^ a 2 ^^^ a 3 ∧
    m 1 = a 0 ^^^ gfMul 2 (a 1) ^^^ gfMul 3 (a 2) ^^^ a 3 ∧
    m 2 = a 0 ^^^ a 1 ^^^ gfMul 2 (a 2) ^^^ gfMul 3 (a 3) ∧
    m 3 = gfMul 3 (a 0) ^^^ a 1 ^^^ a 2 ^^^ gfMul 2 (a 3) ∧
    v 0 = gfMul 0xe (a 0) ^^^ gfMul 0xb (a 1) ^^^ gfMul 0xd (a 2) ^^^ gfMul 0x9 (a 3) ∧
    v 1 = gfMul 0x9 (a 0) ^^^ gfMul 0xe (a 1) ^^^ gfMul 0xb (a 2) ^^^ gfMul 0xd (a 3) ∧
    v 2 = gfMul 0xd (a 0) ^^^ gfMul 0x9 (a 1) ^^^ gfMul 0xe (a 2) ^^^ gfMul 0xb (a 3) ∧
    v 3 = gfMul 0xb (a 0) ^^^ gfMul 0xd (a 1) ^^^ gfMul 0x9 (a 2) ^^^ gfMul 0xe (a 3)) ∧
  ∀ s : Block, invMixColumns (mixColumns s) = s

/-- R185, R189: the two ciphers are their round sequences: an initial AddRoundKey, Nr − 1 full rounds, and a final
round without column mixing, the round keys consumed from row 0 up. -/
def Obligations.CiphersFollowTheirRounds : Prop :=
  ∀ (rk : Nat → Block) (nr : Nat) (b : Block), nr ∈ [10, 12, 14] →
    (∃ st : Nat → Block, st 0 = xorBlock b (rk 0) ∧
      (∀ r, 1 ≤ r → r < nr → st r = xorBlock (mixColumns (shiftRows ((st (r - 1)).map sbox))) (rk r)) ∧
      cipher rk nr b = xorBlock (shiftRows ((st (nr - 1)).map sbox)) (rk nr)) ∧
    ∃ st : Nat → Block, st 0 = xorBlock b (rk 0) ∧
      (∀ r, 1 ≤ r → r < nr → st r = xorBlock (invMixColumns (invShiftRows ((st (r - 1)).map invSbox))) (rk r)) ∧
      eqInvCipher rk nr b = xorBlock (invShiftRows ((st (nr - 1)).map invSbox)) (rk nr)

/-- R190: with both contexts derived from one key and key length, D inverts E, E inverts D, and D is the literal
inverse sequence. -/
def Obligations.DecryptionInvertsEncryption : Prop :=
  ∀ (s : State) (p : Nat × Nat) (b : Block), p ∈ [(4, 10), (6, 12), (8, 14)] →
    s.enc = encContext p s.key → s.dec = decContext p s.key →
    s.decrypt (s.encrypt b) = b ∧ s.encrypt (s.decrypt b) = b ∧
    s.decrypt b = invCipher s.enc.row p.2 b

/-- The source's round trip for CBC (R190, R225, R226): with both contexts of one key, CBC_DEC of CBC_ENC's output from
the same IV gives the input back, for every whole number of Blocks, and ends in the same ModeState. -/
def Obligations.CbcDecInvertsCbcEnc : Prop :=
  ∀ (s : State) (p : Nat × Nat) (m : ModeState) (x : List Byte), p ∈ [(4, 10), (6, 12), (8, 14)] →
    s.enc = encContext p s.key → s.dec = decContext p s.key → x.length % 16 = 0 →
    cbcDecMode s m (cbcEncMode s m x).2 = ((cbcEncMode s m x).1, x)

/-! ## The step as a claim sees it -/

/-- R303, R316: for a claim, a completion with BUS_ERROR is a fault, also where the same step clears its code again: that
of a command in RUN that is due in the step, and that of a command accepted in the step which the tape completes at once.
A step that is no fault for a claim is the machine's step and leaves code 6 only where it stood. -/
def Obligations.ClaimStepFaultsOnBusErrorCompletion : Prop :=
  (∀ (s : State) (job : Job), s.phase = .run job → job.answers = true → job.error = .busError →
    job.left = 0 ∨ s.inputs = [] → claimStep s = .fault .busError) ∧
  (∀ (s : State) (i : Instr) (rest : List HostEvent), i ∈ modeCommands → Accepts i s →
    s.inputs = .transaction (encode i) :: rest → s.stall.headD 0 = 0 → NoPartialOverlap s → StoresVisible s →
    ¬ ReachesDevice s → ¬ CanMeet i s .never → Meets s .busError → claimStep s = .fault .busError) ∧
  ∀ s t : State, claimStep s = .next t →
    step s = .next t ∧ (t.errCode = .busError → s.errCode = .busError)
end

