-- ==== Sys2Proof/Laws/Field.lean ====
section
/-! SUPPORT. The product of GF(2^8) round by round: it is additive in each operand. -/

namespace Sys2Proof.Laws

open Sys2Proof.Machine

theorem xtime_xor (a b : Byte) : xtime (a ^^^ b) = xtime a ^^^ xtime b := by
  simp only [xtime, BitVec.getLsbD_xor]
  cases ha : a.getLsbD 7 <;> cases hb : b.getLsbD 7 <;> simp [BitVec.shiftLeft_xor_distrib]
  · ac_rfl
  · ac_rfl
  · rw [show a <<< 1 ^^^ 27#8 ^^^ (b <<< 1 ^^^ 27#8) = a <<< 1 ^^^ b <<< 1 ^^^ (27#8 ^^^ 27#8) by ac_rfl]; simp

/-- Additive in the second factor and the collected sum. -/
theorem gfMulFrom_xor_right (n : Nat) (a b c r q : Byte) :
    gfMulFrom n a (b ^^^ c) (r ^^^ q) = gfMulFrom n a b r ^^^ gfMulFrom n a c q := by
  induction n generalizing a b c r q with
  | zero => rfl
  | succ n ih =>
    simp only [gfMulFrom]
    rw [BitVec.ushiftRight_xor_distrib, ← ih]
    congr 1
    rw [BitVec.getLsbD_xor]
    cases h : b.getLsbD 0 <;> cases h' : c.getLsbD 0 <;> simp
    · ac_rfl
    · ac_rfl
    · rw [show r ^^^ a ^^^ (q ^^^ a) = r ^^^ q ^^^ (a ^^^ a) by ac_rfl]; simp

/-- Additive in the first factor and the collected sum. -/
theorem gfMulFrom_xor_left (n : Nat) (a b c r q : Byte) :
    gfMulFrom n (a ^^^ c) b (r ^^^ q) = gfMulFrom n a b r ^^^ gfMulFrom n c b q := by
  induction n generalizing a b c r q with
  | zero => rfl
  | succ n ih =>
    simp only [gfMulFrom]
    rw [xtime_xor, ← ih]
    congr 1
    cases h : b.getLsbD 0 <;> simp
    ac_rfl

theorem gfMul_xor_left (a b c : Byte) : gfMul (a ^^^ c) b = gfMul a b ^^^ gfMul c b := by
  have := gfMulFrom_xor_left 8 a b c 0 0
  simpa [gfMul] using this

end Sys2Proof.Laws
end

