-- ==== Sys2Proof/Laws/State.lean ====
section
/-! SUPPORT. One lemma for each field and each shared update of the state, so that no proof unfolds a record update. -/

namespace Sys2Proof.Laws

open Sys2Proof.Machine

@[simp] theorem accept_ie (s : State) (w : Word) : (s.accept w).ie = s.ie := rfl
@[simp] theorem accept_ctrInc (s : State) (w : Word) : (s.accept w).ctrInc = s.ctrInc := rfl
@[simp] theorem accept_done (s : State) (w : Word) : (s.accept w).done = false := rfl
@[simp] theorem accept_errCode (s : State) (w : Word) : (s.accept w).errCode = .none := rfl
@[simp] theorem accept_wign (s : State) (w : Word) : (s.accept w).wign = s.wign := rfl
@[simp] theorem accept_tablesReady (s : State) (w : Word) : (s.accept w).tablesReady = s.tablesReady := rfl
@[simp] theorem accept_enc (s : State) (w : Word) : (s.accept w).enc = s.enc := rfl
@[simp] theorem accept_dec (s : State) (w : Word) : (s.accept w).dec = s.dec := rfl
@[simp] theorem accept_keyLen (s : State) (w : Word) : (s.accept w).keyLen = s.keyLen := rfl
@[simp] theorem accept_offset (s : State) (w : Word) : (s.accept w).offset = s.offset := rfl
@[simp] theorem accept_len (s : State) (w : Word) : (s.accept w).len = s.len := rfl
@[simp] theorem accept_src (s : State) (w : Word) : (s.accept w).src = s.src := rfl
@[simp] theorem accept_dst (s : State) (w : Word) : (s.accept w).dst = s.dst := rfl
@[simp] theorem accept_key (s : State) (w : Word) : (s.accept w).key = s.key := rfl
@[simp] theorem accept_iv (s : State) (w : Word) : (s.accept w).iv = s.iv := rfl
@[simp] theorem accept_ks (s : State) (w : Word) : (s.accept w).ks = s.ks := rfl
@[simp] theorem accept_bin (s : State) (w : Word) : (s.accept w).bin = s.bin := rfl
@[simp] theorem accept_bout (s : State) (w : Word) : (s.accept w).bout = s.bout := rfl
@[simp] theorem accept_phase (s : State) (w : Word) : (s.accept w).phase = s.phase := rfl
@[simp] theorem accept_op (s : State) (w : Word) : (s.accept w).op = opcodeOf w := rfl
@[simp] theorem accept_pos (s : State) (w : Word) : (s.accept w).pos = 0 := rfl
@[simp] theorem accept_mem (s : State) (w : Word) : (s.accept w).mem = s.mem := rfl
@[simp] theorem accept_platform (s : State) (w : Word) : (s.accept w).platform = s.platform := rfl
@[simp] theorem accept_hostDirty (s : State) (w : Word) : (s.accept w).hostDirty = s.hostDirty := rfl
@[simp] theorem accept_hostStale (s : State) (w : Word) : (s.accept w).hostStale = s.hostStale := rfl
@[simp] theorem accept_inputs (s : State) (w : Word) : (s.accept w).inputs = s.inputs := rfl
@[simp] theorem accept_stall (s : State) (w : Word) : (s.accept w).stall = s.stall := rfl
@[simp] theorem accept_freeCount (s : State) (w : Word) : (s.accept w).freeCount = s.freeCount + 1 := rfl
@[simp] theorem accept_response (s : State) (w : Word) : (s.accept w).response = s.response := rfl

@[simp] theorem dropWrite_ie (s : State) : (s.dropWrite).ie = s.ie := rfl
@[simp] theorem dropWrite_ctrInc (s : State) : (s.dropWrite).ctrInc = s.ctrInc := rfl
@[simp] theorem dropWrite_done (s : State) : (s.dropWrite).done = s.done := rfl
@[simp] theorem dropWrite_errCode (s : State) : (s.dropWrite).errCode = s.errCode := rfl
@[simp] theorem dropWrite_wign (s : State) : (s.dropWrite).wign = true := rfl
@[simp] theorem dropWrite_tablesReady (s : State) : (s.dropWrite).tablesReady = s.tablesReady := rfl
@[simp] theorem dropWrite_enc (s : State) : (s.dropWrite).enc = s.enc := rfl
@[simp] theorem dropWrite_dec (s : State) : (s.dropWrite).dec = s.dec := rfl
@[simp] theorem dropWrite_keyLen (s : State) : (s.dropWrite).keyLen = s.keyLen := rfl
@[simp] theorem dropWrite_offset (s : State) : (s.dropWrite).offset = s.offset := rfl
@[simp] theorem dropWrite_len (s : State) : (s.dropWrite).len = s.len := rfl
@[simp] theorem dropWrite_src (s : State) : (s.dropWrite).src = s.src := rfl
@[simp] theorem dropWrite_dst (s : State) : (s.dropWrite).dst = s.dst := rfl
@[simp] theorem dropWrite_key (s : State) : (s.dropWrite).key = s.key := rfl
@[simp] theorem dropWrite_iv (s : State) : (s.dropWrite).iv = s.iv := rfl
@[simp] theorem dropWrite_ks (s : State) : (s.dropWrite).ks = s.ks := rfl
@[simp] theorem dropWrite_bin (s : State) : (s.dropWrite).bin = s.bin := rfl
@[simp] theorem dropWrite_bout (s : State) : (s.dropWrite).bout = s.bout := rfl
@[simp] theorem dropWrite_phase (s : State) : (s.dropWrite).phase = s.phase := rfl
@[simp] theorem dropWrite_op (s : State) : (s.dropWrite).op = s.op := rfl
@[simp] theorem dropWrite_pos (s : State) : (s.dropWrite).pos = s.pos := rfl
@[simp] theorem dropWrite_mem (s : State) : (s.dropWrite).mem = s.mem := rfl
@[simp] theorem dropWrite_platform (s : State) : (s.dropWrite).platform = s.platform := rfl
@[simp] theorem dropWrite_hostDirty (s : State) : (s.dropWrite).hostDirty = s.hostDirty := rfl
@[simp] theorem dropWrite_hostStale (s : State) : (s.dropWrite).hostStale = s.hostStale := rfl
@[simp] theorem dropWrite_inputs (s : State) : (s.dropWrite).inputs = s.inputs := rfl
@[simp] theorem dropWrite_stall (s : State) : (s.dropWrite).stall = s.stall := rfl
@[simp] theorem dropWrite_freeCount (s : State) : (s.dropWrite).freeCount = s.freeCount := rfl
@[simp] theorem dropWrite_response (s : State) : (s.dropWrite).response = s.response := rfl

@[simp] theorem acknowledge_ie (s : State) : (s.acknowledge).ie = s.ie := rfl
@[simp] theorem acknowledge_ctrInc (s : State) : (s.acknowledge).ctrInc = s.ctrInc := rfl
@[simp] theorem acknowledge_done (s : State) : (s.acknowledge).done = false := rfl
@[simp] theorem acknowledge_errCode (s : State) : (s.acknowledge).errCode = .none := rfl
@[simp] theorem acknowledge_wign (s : State) : (s.acknowledge).wign = s.wign := rfl
@[simp] theorem acknowledge_tablesReady (s : State) : (s.acknowledge).tablesReady = s.tablesReady := rfl
@[simp] theorem acknowledge_enc (s : State) : (s.acknowledge).enc = s.enc := rfl
@[simp] theorem acknowledge_dec (s : State) : (s.acknowledge).dec = s.dec := rfl
@[simp] theorem acknowledge_keyLen (s : State) : (s.acknowledge).keyLen = s.keyLen := rfl
@[simp] theorem acknowledge_offset (s : State) : (s.acknowledge).offset = s.offset := rfl
@[simp] theorem acknowledge_len (s : State) : (s.acknowledge).len = s.len := rfl
@[simp] theorem acknowledge_src (s : State) : (s.acknowledge).src = s.src := rfl
@[simp] theorem acknowledge_dst (s : State) : (s.acknowledge).dst = s.dst := rfl
@[simp] theorem acknowledge_key (s : State) : (s.acknowledge).key = s.key := rfl
@[simp] theorem acknowledge_iv (s : State) : (s.acknowledge).iv = s.iv := rfl
@[simp] theorem acknowledge_ks (s : State) : (s.acknowledge).ks = s.ks := rfl
@[simp] theorem acknowledge_bin (s : State) : (s.acknowledge).bin = s.bin := rfl
@[simp] theorem acknowledge_bout (s : State) : (s.acknowledge).bout = s.bout := rfl
@[simp] theorem acknowledge_phase (s : State) : (s.acknowledge).phase = s.phase := rfl
@[simp] theorem acknowledge_op (s : State) : (s.acknowledge).op = s.op := rfl
@[simp] theorem acknowledge_pos (s : State) : (s.acknowledge).pos = s.pos := rfl
@[simp] theorem acknowledge_mem (s : State) : (s.acknowledge).mem = s.mem := rfl
@[simp] theorem acknowledge_platform (s : State) : (s.acknowledge).platform = s.platform := rfl
@[simp] theorem acknowledge_hostDirty (s : State) : (s.acknowledge).hostDirty = s.hostDirty := rfl
@[simp] theorem acknowledge_hostStale (s : State) : (s.acknowledge).hostStale = s.hostStale := rfl
@[simp] theorem acknowledge_inputs (s : State) : (s.acknowledge).inputs = s.inputs := rfl
@[simp] theorem acknowledge_stall (s : State) : (s.acknowledge).stall = s.stall := rfl
@[simp] theorem acknowledge_freeCount (s : State) : (s.acknowledge).freeCount = s.freeCount := rfl
@[simp] theorem acknowledge_response (s : State) : (s.acknowledge).response = s.response := rfl

@[simp] theorem busErrorResponse_ie (s : State) : (s.busErrorResponse).ie = s.ie := rfl
@[simp] theorem busErrorResponse_ctrInc (s : State) : (s.busErrorResponse).ctrInc = s.ctrInc := rfl
@[simp] theorem busErrorResponse_done (s : State) : (s.busErrorResponse).done = s.done := rfl
@[simp] theorem busErrorResponse_errCode (s : State) : (s.busErrorResponse).errCode = s.errCode := rfl
@[simp] theorem busErrorResponse_wign (s : State) : (s.busErrorResponse).wign = s.wign := rfl
@[simp] theorem busErrorResponse_tablesReady (s : State) : (s.busErrorResponse).tablesReady = s.tablesReady := rfl
@[simp] theorem busErrorResponse_enc (s : State) : (s.busErrorResponse).enc = s.enc := rfl
@[simp] theorem busErrorResponse_dec (s : State) : (s.busErrorResponse).dec = s.dec := rfl
@[simp] theorem busErrorResponse_keyLen (s : State) : (s.busErrorResponse).keyLen = s.keyLen := rfl
@[simp] theorem busErrorResponse_offset (s : State) : (s.busErrorResponse).offset = s.offset := rfl
@[simp] theorem busErrorResponse_len (s : State) : (s.busErrorResponse).len = s.len := rfl
@[simp] theorem busErrorResponse_src (s : State) : (s.busErrorResponse).src = s.src := rfl
@[simp] theorem busErrorResponse_dst (s : State) : (s.busErrorResponse).dst = s.dst := rfl
@[simp] theorem busErrorResponse_key (s : State) : (s.busErrorResponse).key = s.key := rfl
@[simp] theorem busErrorResponse_iv (s : State) : (s.busErrorResponse).iv = s.iv := rfl
@[simp] theorem busErrorResponse_ks (s : State) : (s.busErrorResponse).ks = s.ks := rfl
@[simp] theorem busErrorResponse_bin (s : State) : (s.busErrorResponse).bin = s.bin := rfl
@[simp] theorem busErrorResponse_bout (s : State) : (s.busErrorResponse).bout = s.bout := rfl
@[simp] theorem busErrorResponse_phase (s : State) : (s.busErrorResponse).phase = s.phase := rfl
@[simp] theorem busErrorResponse_op (s : State) : (s.busErrorResponse).op = s.op := rfl
@[simp] theorem busErrorResponse_pos (s : State) : (s.busErrorResponse).pos = s.pos := rfl
@[simp] theorem busErrorResponse_mem (s : State) : (s.busErrorResponse).mem = s.mem := rfl
@[simp] theorem busErrorResponse_platform (s : State) : (s.busErrorResponse).platform = s.platform := rfl
@[simp] theorem busErrorResponse_hostDirty (s : State) : (s.busErrorResponse).hostDirty = s.hostDirty := rfl
@[simp] theorem busErrorResponse_hostStale (s : State) : (s.busErrorResponse).hostStale = s.hostStale := rfl
@[simp] theorem busErrorResponse_inputs (s : State) : (s.busErrorResponse).inputs = s.inputs := rfl
@[simp] theorem busErrorResponse_stall (s : State) : (s.busErrorResponse).stall = s.stall := rfl
@[simp] theorem busErrorResponse_freeCount (s : State) : (s.busErrorResponse).freeCount = s.freeCount := rfl
@[simp] theorem busErrorResponse_response (s : State) : (s.busErrorResponse).response = .busError := rfl

@[simp] theorem writeCtrl_ie (s : State) (v : Word) : (s.writeCtrl v).ie = v.getLsbD 0 := rfl
@[simp] theorem writeCtrl_ctrInc (s : State) (v : Word) : (s.writeCtrl v).ctrInc = v.extractLsb' 4 2 := rfl
@[simp] theorem writeCtrl_done (s : State) (v : Word) : (s.writeCtrl v).done = s.done := rfl
@[simp] theorem writeCtrl_errCode (s : State) (v : Word) : (s.writeCtrl v).errCode = s.errCode := rfl
@[simp] theorem writeCtrl_wign (s : State) (v : Word) : (s.writeCtrl v).wign = s.wign := rfl
@[simp] theorem writeCtrl_tablesReady (s : State) (v : Word) : (s.writeCtrl v).tablesReady = s.tablesReady := rfl
@[simp] theorem writeCtrl_enc (s : State) (v : Word) : (s.writeCtrl v).enc = s.enc := rfl
@[simp] theorem writeCtrl_dec (s : State) (v : Word) : (s.writeCtrl v).dec = s.dec := rfl
@[simp] theorem writeCtrl_keyLen (s : State) (v : Word) : (s.writeCtrl v).keyLen = s.keyLen := rfl
@[simp] theorem writeCtrl_offset (s : State) (v : Word) : (s.writeCtrl v).offset = s.offset := rfl
@[simp] theorem writeCtrl_len (s : State) (v : Word) : (s.writeCtrl v).len = s.len := rfl
@[simp] theorem writeCtrl_src (s : State) (v : Word) : (s.writeCtrl v).src = s.src := rfl
@[simp] theorem writeCtrl_dst (s : State) (v : Word) : (s.writeCtrl v).dst = s.dst := rfl
@[simp] theorem writeCtrl_key (s : State) (v : Word) : (s.writeCtrl v).key = s.key := rfl
@[simp] theorem writeCtrl_iv (s : State) (v : Word) : (s.writeCtrl v).iv = s.iv := rfl
@[simp] theorem writeCtrl_ks (s : State) (v : Word) : (s.writeCtrl v).ks = s.ks := rfl
@[simp] theorem writeCtrl_bin (s : State) (v : Word) : (s.writeCtrl v).bin = s.bin := rfl
@[simp] theorem writeCtrl_bout (s : State) (v : Word) : (s.writeCtrl v).bout = s.bout := rfl
@[simp] theorem writeCtrl_phase (s : State) (v : Word) : (s.writeCtrl v).phase = s.phase := rfl
@[simp] theorem writeCtrl_op (s : State) (v : Word) : (s.writeCtrl v).op = s.op := rfl
@[simp] theorem writeCtrl_pos (s : State) (v : Word) : (s.writeCtrl v).pos = s.pos := rfl
@[simp] theorem writeCtrl_mem (s : State) (v : Word) : (s.writeCtrl v).mem = s.mem := rfl
@[simp] theorem writeCtrl_platform (s : State) (v : Word) : (s.writeCtrl v).platform = s.platform := rfl
@[simp] theorem writeCtrl_hostDirty (s : State) (v : Word) : (s.writeCtrl v).hostDirty = s.hostDirty := rfl
@[simp] theorem writeCtrl_hostStale (s : State) (v : Word) : (s.writeCtrl v).hostStale = s.hostStale := rfl
@[simp] theorem writeCtrl_inputs (s : State) (v : Word) : (s.writeCtrl v).inputs = s.inputs := rfl
@[simp] theorem writeCtrl_stall (s : State) (v : Word) : (s.writeCtrl v).stall = s.stall := rfl
@[simp] theorem writeCtrl_freeCount (s : State) (v : Word) : (s.writeCtrl v).freeCount = s.freeCount := rfl
@[simp] theorem writeCtrl_response (s : State) (v : Word) : (s.writeCtrl v).response = s.response := rfl

@[simp] theorem storeAll_ie (s : State) (ws : List (Word × Byte)) : (s.storeAll ws).ie = s.ie := rfl
@[simp] theorem storeAll_ctrInc (s : State) (ws : List (Word × Byte)) : (s.storeAll ws).ctrInc = s.ctrInc := rfl
@[simp] theorem storeAll_done (s : State) (ws : List (Word × Byte)) : (s.storeAll ws).done = s.done := rfl
@[simp] theorem storeAll_errCode (s : State) (ws : List (Word × Byte)) : (s.storeAll ws).errCode = s.errCode := rfl
@[simp] theorem storeAll_wign (s : State) (ws : List (Word × Byte)) : (s.storeAll ws).wign = s.wign := rfl
@[simp] theorem storeAll_tablesReady (s : State) (ws : List (Word × Byte)) : (s.storeAll ws).tablesReady = s.tablesReady := rfl
@[simp] theorem storeAll_enc (s : State) (ws : List (Word × Byte)) : (s.storeAll ws).enc = s.enc := rfl
@[simp] theorem storeAll_dec (s : State) (ws : List (Word × Byte)) : (s.storeAll ws).dec = s.dec := rfl
@[simp] theorem storeAll_keyLen (s : State) (ws : List (Word × Byte)) : (s.storeAll ws).keyLen = s.keyLen := rfl
@[simp] theorem storeAll_offset (s : State) (ws : List (Word × Byte)) : (s.storeAll ws).offset = s.offset := rfl
@[simp] theorem storeAll_len (s : State) (ws : List (Word × Byte)) : (s.storeAll ws).len = s.len := rfl
@[simp] theorem storeAll_src (s : State) (ws : List (Word × Byte)) : (s.storeAll ws).src = s.src := rfl
@[simp] theorem storeAll_dst (s : State) (ws : List (Word × Byte)) : (s.storeAll ws).dst = s.dst := rfl
@[simp] theorem storeAll_key (s : State) (ws : List (Word × Byte)) : (s.storeAll ws).key = s.key := rfl
@[simp] theorem storeAll_iv (s : State) (ws : List (Word × Byte)) : (s.storeAll ws).iv = s.iv := rfl
@[simp] theorem storeAll_ks (s : State) (ws : List (Word × Byte)) : (s.storeAll ws).ks = s.ks := rfl
@[simp] theorem storeAll_bin (s : State) (ws : List (Word × Byte)) : (s.storeAll ws).bin = s.bin := rfl
@[simp] theorem storeAll_bout (s : State) (ws : List (Word × Byte)) : (s.storeAll ws).bout = s.bout := rfl
@[simp] theorem storeAll_phase (s : State) (ws : List (Word × Byte)) : (s.storeAll ws).phase = s.phase := rfl
@[simp] theorem storeAll_op (s : State) (ws : List (Word × Byte)) : (s.storeAll ws).op = s.op := rfl
@[simp] theorem storeAll_pos (s : State) (ws : List (Word × Byte)) : (s.storeAll ws).pos = s.pos := rfl
@[simp] theorem storeAll_mem (s : State) (ws : List (Word × Byte)) : (s.storeAll ws).mem = s.mem.setAll ws := rfl
@[simp] theorem storeAll_platform (s : State) (ws : List (Word × Byte)) : (s.storeAll ws).platform = s.platform := rfl
@[simp] theorem storeAll_hostDirty (s : State) (ws : List (Word × Byte)) : (s.storeAll ws).hostDirty = if s.platform.dmaCoherent then s.hostDirty else s.hostDirty.filter fun d => !ws.any fun w => w.1 == d.1 := rfl
@[simp] theorem storeAll_hostStale (s : State) (ws : List (Word × Byte)) : (s.storeAll ws).hostStale = if s.platform.dmaCoherent then s.hostStale else ws.map (·.1) ++ s.hostStale := rfl
@[simp] theorem storeAll_inputs (s : State) (ws : List (Word × Byte)) : (s.storeAll ws).inputs = s.inputs := rfl
@[simp] theorem storeAll_stall (s : State) (ws : List (Word × Byte)) : (s.storeAll ws).stall = s.stall := rfl
@[simp] theorem storeAll_freeCount (s : State) (ws : List (Word × Byte)) : (s.storeAll ws).freeCount = s.freeCount := rfl
@[simp] theorem storeAll_response (s : State) (ws : List (Word × Byte)) : (s.storeAll ws).response = s.response := rfl

@[simp] theorem withFetchWord_ie (s : State) (n w : Nat) : (s.withFetchWord n w).ie = s.ie := rfl
@[simp] theorem withFetchWord_ctrInc (s : State) (n w : Nat) : (s.withFetchWord n w).ctrInc = s.ctrInc := rfl
@[simp] theorem withFetchWord_done (s : State) (n w : Nat) : (s.withFetchWord n w).done = s.done := rfl
@[simp] theorem withFetchWord_errCode (s : State) (n w : Nat) : (s.withFetchWord n w).errCode = s.errCode := rfl
@[simp] theorem withFetchWord_wign (s : State) (n w : Nat) : (s.withFetchWord n w).wign = s.wign := rfl
@[simp] theorem withFetchWord_tablesReady (s : State) (n w : Nat) : (s.withFetchWord n w).tablesReady = s.tablesReady := rfl
@[simp] theorem withFetchWord_enc (s : State) (n w : Nat) : (s.withFetchWord n w).enc = s.enc := rfl
@[simp] theorem withFetchWord_dec (s : State) (n w : Nat) : (s.withFetchWord n w).dec = s.dec := rfl
@[simp] theorem withFetchWord_keyLen (s : State) (n w : Nat) : (s.withFetchWord n w).keyLen = s.keyLen := rfl
@[simp] theorem withFetchWord_offset (s : State) (n w : Nat) : (s.withFetchWord n w).offset = s.offset := rfl
@[simp] theorem withFetchWord_len (s : State) (n w : Nat) : (s.withFetchWord n w).len = s.len := rfl
@[simp] theorem withFetchWord_src (s : State) (n w : Nat) : (s.withFetchWord n w).src = s.src := rfl
@[simp] theorem withFetchWord_dst (s : State) (n w : Nat) : (s.withFetchWord n w).dst = s.dst := rfl
@[simp] theorem withFetchWord_key (s : State) (n w : Nat) : (s.withFetchWord n w).key = s.key := rfl
@[simp] theorem withFetchWord_iv (s : State) (n w : Nat) : (s.withFetchWord n w).iv = s.iv := rfl
@[simp] theorem withFetchWord_ks (s : State) (n w : Nat) : (s.withFetchWord n w).ks = s.ks := rfl
@[simp] theorem withFetchWord_bin (s : State) (n w : Nat) : (s.withFetchWord n w).bin = s.bin := rfl
@[simp] theorem withFetchWord_bout (s : State) (n w : Nat) : (s.withFetchWord n w).bout = s.bout := rfl
@[simp] theorem withFetchWord_phase (s : State) (n w : Nat) : (s.withFetchWord n w).phase = s.phase := rfl
@[simp] theorem withFetchWord_op (s : State) (n w : Nat) : (s.withFetchWord n w).op = s.op := rfl
@[simp] theorem withFetchWord_pos (s : State) (n w : Nat) : (s.withFetchWord n w).pos = s.pos := rfl
@[simp] theorem withFetchWord_mem (s : State) (n w : Nat) : (s.withFetchWord n w).mem = s.mem := rfl
@[simp] theorem withFetchWord_platform (s : State) (n w : Nat) : (s.withFetchWord n w).platform = s.platform := rfl
@[simp] theorem withFetchWord_hostDirty (s : State) (n w : Nat) : (s.withFetchWord n w).hostDirty = s.hostDirty := rfl
@[simp] theorem withFetchWord_hostStale (s : State) (n w : Nat) : (s.withFetchWord n w).hostStale = s.hostStale := rfl
@[simp] theorem withFetchWord_inputs (s : State) (n w : Nat) : (s.withFetchWord n w).inputs = fetchEvent n w :: s.inputs := rfl
@[simp] theorem withFetchWord_stall (s : State) (n w : Nat) : (s.withFetchWord n w).stall = s.stall := rfl
@[simp] theorem withFetchWord_freeCount (s : State) (n w : Nat) : (s.withFetchWord n w).freeCount = s.freeCount := rfl
@[simp] theorem withFetchWord_response (s : State) (n w : Nat) : (s.withFetchWord n w).response = s.response := rfl

@[simp] theorem workingCopies_error (s : State) : s.workingCopies.error = .none := rfl
@[simp] theorem workingCopies_iv (s : State) : s.workingCopies.iv = s.iv := rfl
@[simp] theorem workingCopies_ks (s : State) : s.workingCopies.ks = s.ks := rfl
@[simp] theorem workingCopies_offset (s : State) : s.workingCopies.offset = s.offset := rfl
@[simp] theorem workingCopies_bout (s : State) : s.workingCopies.bout = s.bout := rfl
@[simp] theorem workingCopies_enc (s : State) : s.workingCopies.enc = s.enc := rfl
@[simp] theorem workingCopies_dec (s : State) : s.workingCopies.dec = s.dec := rfl
@[simp] theorem workingCopies_tablesReady (s : State) : s.workingCopies.tablesReady = s.tablesReady := rfl
@[simp] theorem workingCopies_pos (s : State) : s.workingCopies.pos = 0 := rfl
@[simp] theorem workingCopies_writes (s : State) : s.workingCopies.writes = [] := rfl
@[simp] theorem workingCopies_dma (s : State) : s.workingCopies.dma = false := rfl
@[simp] theorem workingCopies_answers (s : State) : s.workingCopies.answers = true := rfl
@[simp] theorem workingCopies_left (s : State) : s.workingCopies.left = 0 := rfl

@[simp] theorem busy_of_idle {s : State} (h : s.phase = .idle) : s.busy = false := by simp [State.busy, h]

@[simp] theorem busy_of_run {s : State} {job : Job} (h : s.phase = .run job) : s.busy = true := by
  simp [State.busy, h]

theorem idle_of_not_busy {s : State} (h : s.busy = false) : s.phase = .idle := by
  cases hp : s.phase with
  | idle => rfl
  | run job => simp [State.busy, hp] at h

@[simp] theorem accept_busy (s : State) (w : Word) : (s.accept w).busy = s.busy := rfl

theorem complete_of_idle {s : State} (h : s.phase = .idle) : s.complete = s := by simp [State.complete, h]

theorem complete_of_run {s : State} {job : Job} (h : s.phase = .run job) (ha : job.answers = true) :
    s.complete = s.finish job := by simp [State.complete, h, ha]

theorem complete_of_unanswered {s : State} {job : Job} (h : s.phase = .run job) (ha : job.answers = false) :
    s.complete = s := by simp [State.complete, h, ha]

/-- Completion with code 0 (R301). -/
theorem finish_none (s : State) (job : Job) (h : job.error = .none) :
    s.finish job = { s.storeAll job.writes with
      iv := job.iv, ks := job.ks, offset := job.offset, bout := job.bout, enc := job.enc, dec := job.dec
      tablesReady := job.tablesReady, pos := job.pos, errCode := .none, phase := .idle, done := true } := by
  simp [State.finish, h]

/-- Completion with an error (R301): no register but STATUS, PHASE and POS. -/
theorem finish_error (s : State) (job : Job) (h : job.error ≠ .none) :
    s.finish job = { s.storeAll job.writes with
      pos := job.pos, errCode := job.error, phase := .idle, done := true } := by
  cases he : job.error <;> simp_all [State.finish]

@[simp] theorem finish_phase (s : State) (job : Job) : (s.finish job).phase = .idle := rfl
@[simp] theorem finish_done (s : State) (job : Job) : (s.finish job).done = true := rfl
@[simp] theorem finish_errCode (s : State) (job : Job) : (s.finish job).errCode = job.error := rfl
@[simp] theorem finish_pos (s : State) (job : Job) : (s.finish job).pos = job.pos := rfl

/-- What completion does to memory and to what the host's caches hold is its DMA writes. -/
theorem finish_memory (s : State) (job : Job) :
    (s.finish job).mem = (s.storeAll job.writes).mem ∧
    (s.finish job).hostDirty = (s.storeAll job.writes).hostDirty ∧
    (s.finish job).hostStale = (s.storeAll job.writes).hostStale := by
  cases he : job.error <;> simp [State.finish, he]

/-- Without writes nothing happens to memory or to the host's caches. -/
theorem storeAll_nil (s : State) : s.storeAll [] = s := by
  cases hc : s.platform.dmaCoherent <;> simp [State.storeAll, Memory.setAll, hc]

/-- Completion touches no register that only the host writes, and no parameter. -/
theorem finish_frame (s : State) (job : Job) :
    (s.finish job).ie = s.ie ∧ (s.finish job).ctrInc = s.ctrInc ∧ (s.finish job).wign = s.wign ∧
    (s.finish job).keyLen = s.keyLen ∧ (s.finish job).len = s.len ∧ (s.finish job).src = s.src ∧
    (s.finish job).dst = s.dst ∧ (s.finish job).key = s.key ∧ (s.finish job).bin = s.bin ∧
    (s.finish job).op = s.op ∧ (s.finish job).platform = s.platform ∧
    (s.finish job).inputs = s.inputs ∧ (s.finish job).stall = s.stall ∧
    (s.finish job).freeCount = s.freeCount ∧ (s.finish job).response = s.response ∧
    (s.finish job).mem = s.mem.setAll job.writes := by
  cases he : job.error <;> simp [State.finish, he]

end Sys2Proof.Laws
end

