-- ==== Sys2Proof/Laws/Command.lean ====
section
/-! SUPPORT. What acceptance, launch and completion of a command can do, said once. -/

namespace Sys2Proof.Laws

open Sys2Proof.Machine

theorem finish_left (s : State) (job : Job) (n : Nat) : s.finish { job with left := n } = s.finish job := by
  cases he : job.error <;> simp [State.finish, he]

theorem finish_phase_irrelevant (s : State) (p : Phase) (job : Job) :
    ({ s with phase := p } : State).finish job = s.finish job := by
  cases he : job.error <;> simp [State.finish, he, State.storeAll]

/-- The state in RUN that a launch makes. -/
def inRun (s : State) (job : Job) : State :=
  { s with phase := .run { job with left := s.stall.headD 0 }, stall := s.stall.tail }

theorem launch_eq (s : State) (job : Job) :
    s.launch job = if s.stall.headD 0 = 0 then (inRun s job).complete else inRun s job := rfl

/-- A launched command that Mem answers completes as `finish` says, whatever the tape. -/
theorem inRun_complete (s : State) (job : Job) (ha : job.answers = true) :
    (inRun s job).complete = ({ s with stall := s.stall.tail } : State).finish job := by
  rw [complete_of_run (job := { job with left := s.stall.headD 0 }) rfl (by exact ha), finish_left]
  exact finish_phase_irrelevant ({ s with stall := s.stall.tail } : State) _ job

theorem inRun_unanswered (s : State) (job : Job) (ha : job.answers = false) :
    (inRun s job).complete = inRun s job :=
  complete_of_unanswered (job := { job with left := s.stall.headD 0 }) rfl (by exact ha)

/-- Completing a launched command: the same whether the tape let it complete at once or not. -/
theorem launch_complete (s : State) (job : Job) (ha : job.answers = true) :
    (s.launch job).complete = ({ s with stall := s.stall.tail } : State).finish job := by
  rw [launch_eq]
  split
  · rw [inRun_complete s job ha]; exact complete_of_idle rfl
  · exact inRun_complete s job ha

/-- A write to CMD while BUSY is dropped (spec/43_host_access.md R272). -/
theorem command_busy (w : Word) (checks effect) {s : State} (h : s.busy = true) :
    command w checks effect s = .next s.dropWrite := by simp [command, h]

/-- A command whose checks fail completes with the first failing code (spec/60_exceptions.md R299). -/
theorem command_error (w : Word) (checks effect) {s : State} {e : Error} (h : s.busy = false)
    (he : firstError (checks (s.accept w)) = e) (hn : e ≠ .none) :
    command w checks effect s =
      .next ((s.accept w).launch { (s.accept w).workingCopies with error := e }) := by
  cases e <;> simp_all [command]

/-- A command whose checks pass runs its rule (R300). -/
theorem command_effect (w : Word) (checks effect) {s : State} (h : s.busy = false)
    (he : firstError (checks (s.accept w)) = .none) :
    command w checks effect s =
      match effect (s.accept w) with
      | .next job => .next ((s.accept w).launch job)
      | .fault r => .fault r
      | .refused r => .refused r := by
  simp only [command, h, he]
  rfl

/-- Everything a command that answers a next state can do: it is dropped, or launched with an error, or launched with
its rule's result. -/
theorem command_cases {w : Word} {checks effect} {s t : State} (h : command w checks effect s = .next t) :
    (s.busy = true ∧ t = s.dropWrite) ∨
    (s.busy = false ∧ ∃ job, t = (s.accept w).launch job ∧
      ((firstError (checks (s.accept w)) = .none ∧ effect (s.accept w) = .next job) ∨
        ∃ e, e ≠ .none ∧ firstError (checks (s.accept w)) = e ∧
          job = { (s.accept w).workingCopies with error := e })) := by
  cases hb : s.busy with
  | true => rw [command_busy w checks effect hb] at h; exact .inl ⟨rfl, by injection h with h; exact h.symm⟩
  | false =>
    refine .inr ⟨rfl, ?_⟩
    by_cases he : firstError (checks (s.accept w)) = .none
    · rw [command_effect w checks effect hb he] at h
      split at h <;> simp at h
      rename_i job hj
      exact ⟨job, h.symm, .inl ⟨he, hj⟩⟩
    · rw [command_error w checks effect hb rfl he] at h
      injection h with h
      exact ⟨_, h.symm, .inr ⟨_, he, rfl, rfl⟩⟩

@[simp] theorem firstError_nil : firstError [] = .none := rfl

/-- The head of a check list decides unless it passes. -/
theorem firstError_cons (e : Error) (rest : List Error) :
    firstError (e :: rest) = if e = .none then firstError rest else e := by
  cases e <;> simp [firstError]

/-- Acceptance changes no operand a check looks at. -/
@[simp] theorem accept_tablesCheck (s : State) (w : Word) : (s.accept w).tablesCheck = s.tablesCheck := rfl
@[simp] theorem accept_keyLenCheck (s : State) (w : Word) : (s.accept w).keyLenCheck = s.keyLenCheck := rfl
@[simp] theorem accept_lengthCheck (s : State) (w : Word) : (s.accept w).lengthCheck = s.lengthCheck := rfl

theorem tablesCheck_of_ready {s : State} (h : s.tablesReady = true) : s.tablesCheck = .none := by
  simp [State.tablesCheck, h]

theorem tablesCheck_of_not_ready {s : State} (h : s.tablesReady = false) :
    s.tablesCheck = .uninitializedTables := by simp [State.tablesCheck, h]

theorem check_of_valid {c : Context} (h : c.valid = true) : c.check = .none := by simp [Context.check, h]

theorem check_of_invalid {c : Context} (h : c.valid = false) : c.check = .noSchedule := by
  simp [Context.check, h]

theorem lengthCheck_of_aligned {s : State} (h : s.len.toNat % 16 = 0) : s.lengthCheck = .none := by
  simp [State.lengthCheck, h]

theorem lengthCheck_of_misaligned {s : State} (h : s.len.toNat % 16 ≠ 0) :
    s.lengthCheck = .misalignedLength := by simp [State.lengthCheck, h]

end Sys2Proof.Laws
end

