-- ==== Sys2Proof/Laws/Memory.lean ====
section
/-! SUPPORT. The laws of memory: the canonical form is kept, a read after a store, equal reads make equal memories. -/

namespace Sys2Proof.Laws

open Sys2Proof.Machine

theorem wfFrom_mono {m : Memory} {lo lo' : Nat} (h : Memory.wfFrom lo m = true) (hl : lo' ≤ lo) :
    Memory.wfFrom lo' m = true := by
  cases m with
  | nil => rfl
  | cons c m =>
    obtain ⟨k, v⟩ := c
    simp only [Memory.wfFrom, Bool.and_eq_true, decide_eq_true_eq] at h ⊢
    exact ⟨⟨⟨by omega, h.1.1.2⟩, h.1.2⟩, h.2⟩

theorem get_of_below {m : Memory} {lo a : Nat} (h : Memory.wfFrom lo m = true) (ha : a < lo) :
    Memory.get m a = 0 := by
  induction m generalizing lo with
  | nil => rfl
  | cons c m ih =>
    obtain ⟨k, v⟩ := c
    simp only [Memory.wfFrom, Bool.and_eq_true, decide_eq_true_eq] at h
    rw [Memory.get, if_neg (by omega)]
    exact ih h.2 (by omega)

theorem wfFrom_cons {m : Memory} {lo a : Nat} {b : Byte} (h : Memory.wfFrom (a + 1) m = true) (hl : lo ≤ a)
    (ha : a < 2 ^ 32) : Memory.wfFrom lo (Memory.cons a b m) = true := by
  unfold Memory.cons
  split
  · exact wfFrom_mono h (by omega)
  · simp_all [Memory.wfFrom]

theorem wfFrom_set {m : Memory} {lo a : Nat} {b : Byte} (h : Memory.wfFrom lo m = true) (hl : lo ≤ a)
    (ha : a < 2 ^ 32) : Memory.wfFrom lo (Memory.set m a b) = true := by
  induction m generalizing lo with
  | nil => exact wfFrom_cons rfl hl ha
  | cons c m ih =>
    obtain ⟨k, v⟩ := c
    have h' := h
    simp only [Memory.wfFrom, Bool.and_eq_true, decide_eq_true_eq] at h
    unfold Memory.set
    split
    · refine wfFrom_cons ?_ hl ha
      simp only [Memory.wfFrom, Bool.and_eq_true, decide_eq_true_eq]
      exact ⟨⟨⟨by omega, h.1.1.2⟩, h.1.2⟩, h.2⟩
    · split
      · subst_vars; exact wfFrom_cons h.2 hl ha
      · simp only [Memory.wfFrom, Bool.and_eq_true, decide_eq_true_eq]
        exact ⟨h.1, ih h.2 (by omega)⟩

/-- A store keeps the canonical form. -/
theorem wf_set {m : Memory} (h : m.wf = true) (a : Word) (b : Byte) : (m.set a.toNat b).wf = true :=
  wfFrom_set h (Nat.zero_le _) a.isLt

/-- The stores of a command keep the canonical form. -/
theorem wf_setAll {m : Memory} (h : m.wf = true) (ws : List (Word × Byte)) : (m.setAll ws).wf = true := by
  induction ws generalizing m with
  | nil => exact h
  | cons w ws ih => exact ih (wf_set h w.1 w.2)

theorem get_cons {m : Memory} {a x : Nat} {b : Byte} (h : Memory.wfFrom (a + 1) m = true) :
    Memory.get (Memory.cons a b m) x = if x = a then b else Memory.get m x := by
  unfold Memory.cons
  split
  · rename_i hb
    split
    · subst_vars; exact get_of_below h (by omega)
    · rfl
  · simp [Memory.get, eq_comm]

theorem get_set_from {m : Memory} {lo a x : Nat} {b : Byte} (h : Memory.wfFrom lo m = true) :
    Memory.get (Memory.set m a b) x = if x = a then b else Memory.get m x := by
  induction m generalizing lo with
  | nil => exact get_cons rfl
  | cons c m ih =>
    obtain ⟨k, v⟩ := c
    simp only [Memory.wfFrom, Bool.and_eq_true, decide_eq_true_eq] at h
    unfold Memory.set
    split
    · refine get_cons ?_
      simp only [Memory.wfFrom, Bool.and_eq_true, decide_eq_true_eq]
      exact ⟨⟨⟨by omega, h.1.1.2⟩, h.1.2⟩, h.2⟩
    · split
      · rename_i hk
        subst hk
        rw [get_cons h.2]
        simp only [Memory.get]
        grind
      · simp only [Memory.get, ih h.2]
        grind

/-- A read after a store: the Byte stored at its address, every other Byte as before. -/
theorem get_set {m : Memory} (h : m.wf = true) (a x : Nat) (b : Byte) :
    Memory.get (m.set a b) x = if x = a then b else Memory.get m x := get_set_from h

/-- A read after stores that do not reach the address. -/
theorem get_setAll_other {m : Memory} (h : m.wf = true) {ws : List (Word × Byte)} {x : Word}
    (hx : ∀ w ∈ ws, w.1 ≠ x) : Memory.get (m.setAll ws) x.toNat = Memory.get m x.toNat := by
  induction ws generalizing m with
  | nil => rfl
  | cons w ws ih =>
    have h1 := ih (wf_set h w.1 w.2) fun w' hw' => hx w' (by simp [hw'])
    have h2 := hx w (by simp)
    have h3 : x.toNat ≠ w.1.toNat := fun he => h2 (BitVec.eq_of_toNat_eq he.symm)
    simpa [Memory.setAll, get_set h, h3] using h1

/-- A read after stores to distinct addresses, one of them its own. -/
theorem get_setAll_mem {m : Memory} (h : m.wf = true) {ws : List (Word × Byte)} {x : Word} {b : Byte}
    (hd : (ws.map (·.1)).Nodup) (hx : (x, b) ∈ ws) : Memory.get (m.setAll ws) x.toNat = b := by
  induction ws generalizing m with
  | nil => simp at hx
  | cons w ws ih =>
    simp only [List.map_cons, List.nodup_cons] at hd
    rcases List.mem_cons.1 hx with hx | hx
    · subst hx
      have := get_setAll_other (wf_set h x b) (ws := ws) (x := x)
        fun w' hw he => hd.1 (List.mem_map.2 ⟨w', hw, he⟩)
      simpa [Memory.setAll, get_set h] using this
    · exact ih (wf_set h w.1 w.2) hd.2 hx

/-- A read after stores gives the old Byte or one of those stored there. -/
theorem get_setAll_cases {m : Memory} (h : m.wf = true) (ws : List (Word × Byte)) (x : Word) :
    Memory.get (m.setAll ws) x.toNat = Memory.get m x.toNat ∨
      ∃ b, (x, b) ∈ ws ∧ Memory.get (m.setAll ws) x.toNat = b := by
  induction ws generalizing m with
  | nil => exact .inl rfl
  | cons w ws ih =>
    rcases ih (wf_set h w.1 w.2) with h1 | ⟨b, hb, h1⟩
    · by_cases hx : x.toNat = w.1.toNat
      · refine .inr ⟨w.2, ?_, ?_⟩
        · rw [BitVec.eq_of_toNat_eq hx]; simp
        · simpa [Memory.setAll, get_set h, hx] using h1
      · left; simpa [Memory.setAll, get_set h, hx] using h1
    · exact .inr ⟨b, by simp [hb], by simpa [Memory.setAll] using h1⟩

theorem wfFrom_lower {k : Nat} {v : Byte} {m : Memory} {lo : Nat} (h : Memory.wfFrom lo ((k, v) :: m) = true) :
    lo ≤ k ∧ k < 2 ^ 32 ∧ v ≠ 0 ∧ Memory.wfFrom (k + 1) m = true := by
  simp only [Memory.wfFrom, Bool.and_eq_true, decide_eq_true_eq, bne_iff_ne] at h
  exact ⟨h.1.1.1, h.1.1.2, h.1.2, h.2⟩

theorem eq_of_get_from {m n : Memory} {lo lo' : Nat} (hm : Memory.wfFrom lo m = true)
    (hn : Memory.wfFrom lo' n = true) (h : ∀ a < 2 ^ 32, Memory.get m a = Memory.get n a) : m = n := by
  induction m generalizing n lo lo' with
  | nil =>
    cases n with
    | nil => rfl
    | cons c n =>
      obtain ⟨k, v⟩ := c
      obtain ⟨-, h2, h3, -⟩ := wfFrom_lower hn
      have := h k h2
      simp [Memory.get] at this
      exact absurd this.symm h3
  | cons c m ih =>
    obtain ⟨k, v⟩ := c
    obtain ⟨h1, h2, h3, h4⟩ := wfFrom_lower hm
    cases n with
    | nil =>
      have := h k h2
      simp [Memory.get] at this
      exact absurd this h3
    | cons c n =>
      obtain ⟨k', v'⟩ := c
      obtain ⟨g1, g2, g3, g4⟩ := wfFrom_lower hn
      have hk : k = k' := by
        rcases Nat.lt_trichotomy k k' with hlt | heq | hlt
        · have := h k h2
          rw [Memory.get, if_pos rfl, Memory.get, if_neg (by omega), get_of_below g4 (by omega)] at this
          exact absurd this h3
        · exact heq
        · have := h k' g2
          rw [Memory.get, if_neg (by omega), get_of_below h4 (by omega), Memory.get, if_pos rfl] at this
          exact absurd this.symm g3
      subst hk
      have hv : v = v' := by simpa [Memory.get] using h k h2
      subst hv
      rw [ih h4 g4 fun a ha => ?_]
      have := h a ha
      simp only [Memory.get] at this
      split at this
      · subst_vars; rw [get_of_below h4 (by omega), get_of_below g4 (by omega)]
      · exact this

/-- Memories in canonical form that read the same are equal. -/
theorem eq_of_get {m n : Memory} (hm : m.wf = true) (hn : n.wf = true)
    (h : ∀ a : Word, m.get a.toNat = n.get a.toNat) : m = n :=
  eq_of_get_from hm hn fun a ha => by
    have := h (BitVec.ofNat 32 a)
    rwa [BitVec.toNat_ofNat, Nat.mod_eq_of_lt ha] at this

end Sys2Proof.Laws
end

