-- ==== Sys2Proof/Laws/Dma.lean ====
section
/-! SUPPORT. The DMA of a mode command: its ranges, the cases of `dmaEffect`, and the memory it leaves. -/

namespace Sys2Proof.Laws

open Sys2Proof.Machine

/-- An address lies in a range exactly when it is the base plus an index below the size (spec/20_memory.md R86). -/
theorem inRange_iff (base size a : Word) :
    inRange base size a = true ↔ ∃ i < size.toNat, a = base + BitVec.ofNat 32 i := by
  simp only [inRange, decide_eq_true_eq]
  constructor
  · intro h
    exact ⟨(a - base).toNat, h, by rw [BitVec.ofNat_toNat, BitVec.setWidth_eq]; simp⟩
  · rintro ⟨i, hi, rfl⟩
    have : i < 2 ^ 32 := by have := size.isLt; omega
    have he : base + BitVec.ofNat 32 i - base = BitVec.ofNat 32 i := by rw [BitVec.add_comm]; simp
    rw [he, BitVec.toNat_ofNat, Nat.mod_eq_of_lt this]
    exact hi

theorem offset_injective {base : Word} {i j : Nat} (hi : i < 2 ^ 32) (hj : j < 2 ^ 32)
    (h : base + BitVec.ofNat 32 i = base + BitVec.ofNat 32 j) : i = j := by
  have h := congrArg BitVec.toNat (add_left_cancel h)
  rwa [BitVec.toNat_ofNat, BitVec.toNat_ofNat, Nat.mod_eq_of_lt hi, Nat.mod_eq_of_lt hj] at h

/-- Partial overlap in the spec's words (R93). -/
theorem rangesOverlap_iff (s : State) :
    s.rangesOverlap = true ↔ s.dst ≠ s.src ∧ ∃ i < s.len.toNat, ∃ j < s.len.toNat,
      s.src + BitVec.ofNat 32 i = s.dst + BitVec.ofNat 32 j := by
  simp only [State.rangesOverlap, Bool.and_eq_true, Bool.or_eq_true, bne_iff_ne, inRange_iff]
  refine and_congr_right fun _ => ?_
  constructor
  · rintro (⟨i, hi, h⟩ | ⟨i, hi, h⟩)
    · exact ⟨i, hi, 0, by omega, by simp [h]⟩
    · exact ⟨0, by omega, i, hi, by simp [h]⟩
  · rintro ⟨i, hi, j, hj, h⟩
    have hi' : i < 2 ^ 32 := by have := s.len.isLt; omega
    have hj' : j < 2 ^ 32 := by have := s.len.isLt; omega
    rcases Nat.le_total j i with hle | hle
    · refine .inl ⟨i - j, by omega, ?_⟩
      have : BitVec.ofNat 32 i = BitVec.ofNat 32 (i - j) + BitVec.ofNat 32 j := by
        rw [← BitVec.ofNat_add]; congr 1; omega
      rw [this, ← BitVec.add_assoc] at h
      exact (add_right_cancel h).symm
    · refine .inr ⟨j - i, by omega, ?_⟩
      have : BitVec.ofNat 32 j = BitVec.ofNat 32 (j - i) + BitVec.ofNat 32 i := by
        rw [← BitVec.ofNat_add]; congr 1; omega
      rw [this, ← BitVec.add_assoc] at h
      exact add_right_cancel h

theorem writeReached_iff (s : State) (needs) (i : Nat) :
    s.writeReached needs i = true ↔
      ∀ j < s.len.toNat, needs i j = true → s.platform.onRead (s.src + BitVec.ofNat 32 j) = .ordinary := by
  simp only [State.writeReached, List.all_eq_true, List.mem_range, Bool.or_eq_true, beq_iff_eq, Bool.not_eq_true',
    State.srcAddr, ← imp_iff_not_or, ← Bool.not_eq_true]

/-- What a command can be answered, in the spec's words (R91): on a read, or on a write whose reads got a Byte. -/
theorem canMeet_iff (s : State) (needs) (w : Answer) :
    s.canMeet needs w = true ↔ ∃ i < s.len.toNat, s.platform.onRead (s.src + BitVec.ofNat 32 i) = w ∨
      s.platform.onWrite (s.dst + BitVec.ofNat 32 i) = w ∧ ∀ j < s.len.toNat, needs i j = true →
        s.platform.onRead (s.src + BitVec.ofNat 32 j) = .ordinary := by
  simp only [State.canMeet, List.any_eq_true, List.mem_range, Bool.or_eq_true, Bool.and_eq_true, beq_iff_eq,
    writeReached_iff, State.srcAddr, State.dstAddr]

theorem deviceInRange_iff (s : State) :
    s.deviceInRange = true ↔ ∃ i < s.len.toNat,
      (s.platform.onRead (s.src + BitVec.ofNat 32 i) = .device ∨
        s.platform.onWrite (s.src + BitVec.ofNat 32 i) = .device) ∨
      s.platform.onRead (s.dst + BitVec.ofNat 32 i) = .device ∨
        s.platform.onWrite (s.dst + BitVec.ofNat 32 i) = .device := by
  simp [State.deviceInRange, Platform.isDevice, State.srcAddr, State.dstAddr]

theorem hostCacheHazard_iff (s : State) :
    s.hostCacheHazard = true ↔ s.platform.dmaCoherent = false ∧ ∃ d ∈ s.hostDirty, ∃ i < s.len.toNat,
      d.1 = s.src + BitVec.ofNat 32 i := by
  simp only [State.hostCacheHazard, Bool.and_eq_true, Bool.not_eq_true', List.any_eq_true, inRange_iff]

/-- A command some of whose accesses get no Byte or acceptance meets one that comes first: off devices it meets a bus
error or a missing answer, and where it can meet none of the one it meets the other. -/
theorem canMeet_of_answer {s : State} {needs} {w v : Answer} (hd : s.deviceInRange = false) (hv : s.canMeet needs v = false)
    (h : ∀ a, a = .ordinary ∨ a = .device ∨ a = v ∨ a = w)
    (hw : ∃ i < s.len.toNat, s.platform.onRead (s.src + BitVec.ofNat 32 i) = w ∨
      s.platform.onWrite (s.dst + BitVec.ofNat 32 i) = w) : s.canMeet needs w = true := by
  rw [← Bool.not_eq_true, deviceInRange_iff] at hd
  rw [← Bool.not_eq_true, canMeet_iff] at hv
  rw [canMeet_iff]
  by_cases hr : ∃ j < s.len.toNat, s.platform.onRead (s.src + BitVec.ofNat 32 j) = w
  · obtain ⟨j, hj, h⟩ := hr
    exact ⟨j, hj, .inl h⟩
  · obtain ⟨i, hi, hw⟩ := hw
    refine ⟨i, hi, .inr ⟨hw.resolve_left fun h => hr ⟨i, hi, h⟩, fun j hj _ => ?_⟩⟩
    rcases h (s.platform.onRead (s.src + BitVec.ofNat 32 j)) with h | h | h | h
    · exact h
    · exact absurd ⟨j, hj, .inl (.inl h)⟩ hd
    · exact absurd ⟨j, hj, .inl h⟩ hv
    · exact absurd ⟨j, hj, h⟩ hr

/-- A command that can meet neither a bus error nor a missing answer has every access answered as ordinary memory does. -/
theorem ordinary_of_not_canMeet {s : State} {needs} (hd : s.deviceInRange = false) (hn : s.canMeet needs .never = false)
    (hb : s.canMeet needs .busError = false) {i : Nat} (hi : i < s.len.toNat) :
    s.platform.onRead (s.src + BitVec.ofNat 32 i) = .ordinary ∧
      s.platform.onWrite (s.dst + BitVec.ofNat 32 i) = .ordinary := by
  have hb' : ¬ ∃ j < s.len.toNat, s.platform.onRead (s.src + BitVec.ofNat 32 j) = .busError ∨
      s.platform.onWrite (s.dst + BitVec.ofNat 32 j) = .busError := fun h => by
    rw [canMeet_of_answer hd hn (fun a => by cases a <;> simp) h] at hb
    exact absurd hb (by decide)
  have hn' : ¬ ∃ j < s.len.toNat, s.platform.onRead (s.src + BitVec.ofNat 32 j) = .never ∨
      s.platform.onWrite (s.dst + BitVec.ofNat 32 j) = .never := fun h => by
    rw [canMeet_of_answer hd hb (fun a => by cases a <;> simp) h] at hn
    exact absurd hn (by decide)
  rw [← Bool.not_eq_true, deviceInRange_iff] at hd
  constructor
  · cases h : s.platform.onRead (s.src + BitVec.ofNat 32 i)
    · rfl
    · exact absurd ⟨i, hi, .inl h⟩ hb'
    · exact absurd ⟨i, hi, .inl h⟩ hn'
    · exact absurd ⟨i, hi, .inl (.inl h)⟩ hd
  · cases h : s.platform.onWrite (s.dst + BitVec.ofNat 32 i)
    · rfl
    · exact absurd ⟨i, hi, .inr h⟩ hb'
    · exact absurd ⟨i, hi, .inr h⟩ hn'
    · exact absurd ⟨i, hi, .inr (.inr h)⟩ hd

/-- Everything the DMA of a mode command that answers a next state can be: a success, a bus error, or a Mem that never
answers. -/
theorem dmaEffect_cases {mode needs} {s : State} {job : Job} (h : dmaEffect mode needs s = .next job) :
    s.rangesOverlap = false ∧ s.hostCacheHazard = false ∧ s.deviceInRange = false ∧
    (job = s.modeJob (mode s) ∧ s.canMeet (needs s) .never = false ∧ s.canMeet (needs s) .busError = false ∨
      job = s.busErrorJob (s.issuableWrites (needs s) (s.modeJob (mode s)).writes) ∧
        s.canMeet (needs s) .busError = true ∨
      job = { s.modeJob (mode s) with
        writes := s.issuableWrites (needs s) (s.modeJob (mode s)).writes, answers := false } ∧
        s.canMeet (needs s) .never = true) := by
  unfold dmaEffect at h
  split at h
  · simp at h
  split at h
  · simp at h
  split at h
  · simp at h
  simp only at h
  split at h
  · simp_all
  split at h
  · simp_all
  · simp_all

/-- A mode command whose premises hold succeeds (spec/20_memory.md R98). -/
theorem dmaEffect_success {mode needs} {s : State} (h1 : s.rangesOverlap = false) (h2 : s.hostCacheHazard = false)
    (h3 : s.deviceInRange = false) (h4 : s.canMeet (needs s) .never = false) (h5 : s.canMeet (needs s) .busError = false) :
    dmaEffect mode needs s = .next (s.modeJob (mode s)) := by simp [dmaEffect, h1, h2, h3, h4, h5]

/-- Where the command can meet a missing answer and no bus error, it stays in RUN
(spec/70_reset_and_hazards.md R346). -/
theorem dmaEffect_never {mode needs} {s : State} (h1 : s.rangesOverlap = false) (h2 : s.hostCacheHazard = false)
    (h3 : s.deviceInRange = false) (h4 : s.canMeet (needs s) .never = true) (h5 : s.canMeet (needs s) .busError = false) :
    dmaEffect mode needs s = .next { s.modeJob (mode s) with
      writes := s.issuableWrites (needs s) (s.modeJob (mode s)).writes, answers := false } := by
  simp [dmaEffect, h1, h2, h3, h4, h5]

/-- Where the command can meet a bus error and no missing answer, it ends with it (spec/42_modes.md R222). -/
theorem dmaEffect_busError {mode needs} {s : State} (h1 : s.rangesOverlap = false) (h2 : s.hostCacheHazard = false)
    (h3 : s.deviceInRange = false) (h4 : s.canMeet (needs s) .never = false) (h5 : s.canMeet (needs s) .busError = true) :
    dmaEffect mode needs s =
      .next (s.busErrorJob (s.issuableWrites (needs s) (s.modeJob (mode s)).writes)) := by
  simp [dmaEffect, h1, h2, h3, h4, h5]

theorem inputBytes_length (s : State) : s.inputBytes.length = s.len.toNat := by simp [State.inputBytes]

theorem outputWrites_map_fst (s : State) (out : List Byte) :
    (s.outputWrites out).map (·.1) = (List.range out.length).map s.dstAddr := by
  apply List.ext_getElem <;> simp [State.outputWrites]

/-- Output Byte `i` goes to DST + i. -/
theorem mem_outputWrites (s : State) (out : List Byte) (w : Word × Byte) :
    w ∈ s.outputWrites out ↔ ∃ i, ∃ h : i < out.length, w = (s.dstAddr i, out[i]) := by
  simp only [State.outputWrites, List.mem_map, Prod.exists]
  constructor
  · rintro ⟨b, i, hm, rfl⟩
    have := List.mem_zipIdx hm
    simp only [Nat.zero_add, Nat.sub_zero] at this
    exact ⟨i, this.2.1, Prod.ext rfl this.2.2⟩
  · rintro ⟨i, hi, rfl⟩
    exact ⟨out[i], i, by simp [List.mk_mem_zipIdx_iff_getElem?, hi], rfl⟩

/-- The addresses of a command's output are distinct. -/
theorem outputWrites_nodup (s : State) (out : List Byte) (h : out.length ≤ 2 ^ 32) :
    ((s.outputWrites out).map (·.1)).Nodup := by
  rw [outputWrites_map_fst]
  refine List.Nodup.map_on (fun i hi j hj he => ?_) List.nodup_range
  simp only [List.mem_range] at hi hj
  exact offset_injective (by omega) (by omega) he

/-- After the output is stored, DST + i holds output Byte i (spec/20_memory.md R89). -/
theorem byte_setAll_output {s : State} (hm : s.mem.wf = true) {out : List Byte} {i : Nat} (hi : i < out.length)
    (hl : out.length ≤ 2 ^ 32) :
    Memory.get (s.mem.setAll (s.outputWrites out)) (s.dstAddr i).toNat = out[i] :=
  get_setAll_mem hm (outputWrites_nodup s out hl) ((mem_outputWrites s out _).2 ⟨i, hi, rfl⟩)

/-- Every Byte outside the output's addresses stays. -/
theorem byte_setAll_frame {s : State} (hm : s.mem.wf = true) {out : List Byte} {a : Word}
    (ha : ∀ i < out.length, a ≠ s.dstAddr i) :
    Memory.get (s.mem.setAll (s.outputWrites out)) a.toNat = Memory.get s.mem a.toNat := by
  refine get_setAll_other hm fun w hw he => ?_
  obtain ⟨i, hi, rfl⟩ := (mem_outputWrites s out w).1 hw
  exact ha i hi he.symm

/-- A write a stopped command can have performed is the write of an output Byte whose needs were answered. -/
theorem mem_issuableWrites {s : State} {needs} {out : List Byte} {w : Word × Byte}
    (h : w ∈ s.issuableWrites needs (s.outputWrites out)) :
    ∃ i, ∃ h : i < out.length, w = (s.dstAddr i, out[i]) ∧ s.issuable needs i = true := by
  simp only [State.issuableWrites, List.mem_map, List.mem_filter] at h
  obtain ⟨⟨w', i⟩, ⟨hx, hi⟩, rfl⟩ := h
  have := List.mem_zipIdx (x := w') (i := i) (by simpa using hx)
  have hl : i < out.length := by simpa [State.outputWrites] using this.2.1
  refine ⟨i, hl, ?_, hi⟩
  simp [this.2.2, State.outputWrites]

/-- What a stopped command can have written lies among its writes. -/
theorem mem_of_mem_issuableWrites {s : State} {needs} {ws : List (Word × Byte)} {w : Word × Byte}
    (h : w ∈ s.issuableWrites needs ws) : w ∈ ws := by
  simp only [State.issuableWrites, List.mem_map, List.mem_filter] at h
  obtain ⟨⟨w', i⟩, ⟨hx, -⟩, rfl⟩ := h
  have := List.mem_zipIdx (x := w') (i := i) (by simpa using hx)
  rw [this.2.2]
  exact List.getElem_mem _

theorem issuable_iff (s : State) (needs) (i : Nat) :
    s.issuable needs i = true ↔ s.platform.onWrite (s.dst + BitVec.ofNat 32 i) = .ordinary ∧
      ∀ j < s.len.toNat, needs i j = true → s.platform.onRead (s.src + BitVec.ofNat 32 j) = .ordinary := by
  simp only [State.issuable, Bool.and_eq_true, beq_iff_eq, writeReached_iff, State.dstAddr]

theorem mem_someWrites {n : Nat} {ws : List (Word × Byte)} {w : Word × Byte} (h : w ∈ someWrites n ws) :
    w ∈ ws := by
  simp only [someWrites, List.mem_map, List.mem_filter] at h
  obtain ⟨x, ⟨hx, -⟩, rfl⟩ := h
  have := List.mem_zipIdx (x := x.1) (i := x.2) (by simpa using hx)
  rw [this.2.2]
  exact List.getElem_mem _

end Sys2Proof.Laws
end

