-- ==== Sys2Proof/Laws/Exec.lean ====
section
/-! SUPPORT. Every write to CMD is `command` with the instruction's checks and rule; the inversion of exec and of the step. -/

namespace Sys2Proof.Laws

open Sys2Proof.Machine

/-- The acceptance checks of an instruction that is a command, in the order of spec/60_exceptions.md R299. -/
def checksOf : Instr → State → List Error
  | .init, _ => []
  | .kexpEnc, a => [a.tablesCheck, a.keyLenCheck]
  | .kexpDec, a => [a.tablesCheck, a.keyLenCheck]
  | .encBlock, a => [a.tablesCheck, a.enc.check]
  | .decBlock, a => [a.tablesCheck, a.dec.check]
  | .resetMode, _ => []
  | .ecbEnc, a => [a.tablesCheck, a.enc.check, a.lengthCheck]
  | .ecbDec, a => [a.tablesCheck, a.dec.check, a.lengthCheck]
  | .cbcEnc, a => [a.tablesCheck, a.enc.check, a.lengthCheck]
  | .cbcDec, a => [a.tablesCheck, a.dec.check, a.lengthCheck]
  | .cfbEnc, a => [a.tablesCheck, a.enc.check]
  | .cfbDec, a => [a.tablesCheck, a.enc.check]
  | .ofbCrypt, a => [a.tablesCheck, a.enc.check]
  | .ctrCrypt, a => [a.tablesCheck, a.enc.check]
  | .cmdIllegal _, _ => [.illegalCommand]
  | .regWrite _ _, _ => []
  | .regRead _, _ => []

/-- The rule of an instruction that is a command. -/
def effectOf : Instr → State → Host.Outcome Job Fault Refusal
  | .init, a => .next { a.workingCopies with tablesReady := true }
  | .kexpEnc, a => .next { a.workingCopies with enc := encContext a.keyLenParams a.key }
  | .kexpDec, a => .next { a.workingCopies with dec := decContext a.keyLenParams a.key }
  | .encBlock, a => .next { a.workingCopies with bout := a.encrypt a.bin }
  | .decBlock, a => .next { a.workingCopies with bout := a.decrypt a.bin }
  | .resetMode, a => .next { a.workingCopies with offset := 0 }
  | .ecbEnc, a => dmaEffect ecbEncMode ecbNeeds a
  | .ecbDec, a => dmaEffect ecbDecMode ecbNeeds a
  | .cbcEnc, a => dmaEffect cbcEncMode cbcEncNeeds a
  | .cbcDec, a => dmaEffect cbcDecMode cbcDecNeeds a
  | .cfbEnc, a => dmaEffect cfbEncMode cfbEncNeeds a
  | .cfbDec, a => dmaEffect cfbDecMode cfbDecNeeds a
  | .ofbCrypt, a => dmaEffect ofbMode ownNeeds a
  | .ctrCrypt, a => dmaEffect ctrMode ownNeeds a
  | .cmdIllegal _, a => .next a.workingCopies
  | .regWrite _ _, a => .next a.workingCopies
  | .regRead _, a => .next a.workingCopies

/-- exec of a command is `command` with its word, checks and rule. -/
theorem exec_command {i : Instr} {w : Word} (h : commandWord i = some w) (s : State) :
    exec i s = command w (checksOf i) (effectOf i) s := by
  cases i <;> simp only [commandWord, Option.some.injEq, reduceCtorEq] at h <;> subst h <;> rfl

/-- A well-formed REG_WRITE, in the order of spec/43_host_access.md R271: no write to CMD among them. -/
theorem exec_regWrite {off : BitVec 8} {v : Word} (h : (Instr.regWrite off v).wf = true) (s : State) :
    exec (.regWrite off v) s =
      if regAt off = .status then .next (s.writeStatus v)
      else if s.busy = true then .next s.dropWrite
      else .next (s.writeReg v (regAt off)) := by
  simp only [Instr.wf, Bool.and_eq_true] at h
  have hc : regAt off ≠ .cmd := by
    revert off; decide
  simp only [exec, execRegWrite, h.1, hc]
  rfl

theorem exec_regRead {off : BitVec 8} (h : (Instr.regRead off).wf = true) (s : State) :
    exec (.regRead off) s = .next { s with response := .data (s.readReg (regAt off)) } := by
  simp only [Instr.wf] at h
  simp [exec, execRegRead, h]

/-- Everything a well-formed instruction that answers a next state can do. -/
theorem exec_cases {i : Instr} {s t : State} (hw : i.wf = true) (h : exec i s = .next t) :
    (∃ off, i = .regRead off ∧ t = { s with response := .data (s.readReg (regAt off)) }) ∨
    (∃ off v, i = .regWrite off v ∧
      (regAt off = .status ∧ t = s.writeStatus v ∨
        regAt off ≠ .status ∧ s.busy = true ∧ t = s.dropWrite ∨
        regAt off ≠ .status ∧ s.busy = false ∧ t = s.writeReg v (regAt off))) ∨
    (∃ w, commandWord i = some w ∧
      (s.busy = true ∧ t = s.dropWrite ∨
        s.busy = false ∧ ∃ job, t = (s.accept w).launch job ∧
          (firstError (checksOf i (s.accept w)) = .none ∧ effectOf i (s.accept w) = .next job ∨
            ∃ e, e ≠ .none ∧ firstError (checksOf i (s.accept w)) = e ∧
              job = { (s.accept w).workingCopies with error := e }))) := by
  by_cases hc : ∃ w, commandWord i = some w
  · obtain ⟨w, hc⟩ := hc
    rw [exec_command hc] at h
    exact .inr (.inr ⟨w, hc, command_cases h⟩)
  · cases i <;> simp [commandWord] at hc
    · rename_i off v
      rw [exec_regWrite hw] at h
      refine .inr (.inl ⟨off, v, rfl, ?_⟩)
      split at h
      · exact .inl ⟨by assumption, by injection h with h; exact h.symm⟩
      · split at h
        · exact .inr (.inl ⟨by assumption, by assumption, by injection h with h; exact h.symm⟩)
        · exact .inr (.inr ⟨by assumption, by simp_all, by injection h with h; exact h.symm⟩)
    · rename_i off
      rw [exec_regRead hw] at h
      exact .inl ⟨off, rfl, by injection h with h; exact h.symm⟩

/-- What the decoder gives is well-formed. -/
theorem wf_of_decode {t : Transaction} {i : Instr} (h : decode t = .ok i) : i.wf = true := by
  unfold decode at h
  split at h
  · simp at h
  · rename_i ha
    simp only [Bool.not_eq_true', Bool.not_eq_false] at ha
    split at h
    · injection h with h; subst h; simpa [Instr.wf] using ha
    · split at h
      · injection h with h
        subst h
        unfold decodeCommand
        split <;> first
          | rfl
          | (simp only [Instr.wf, isCommandWord, definedOpcodes, Bool.not_eq_true', List.contains_eq_mem,
              decide_eq_false_iff_not, List.mem_cons, not_or, List.not_mem_nil]
             simp_all)
      · rename_i ho
        injection h with h
        subst h
        simp only [Instr.wf, ha, Bool.true_and]
        simpa using ho

end Sys2Proof.Laws
end

