-- ==== Sys2Proof/Laws/Modes.lean ====
section
/-! SUPPORT. The mode rules over Byte sequences: lengths, and a run over two sequences in a row. -/

namespace Sys2Proof.Laws

open Sys2Proof.Machine

theorem streamRun_length (unit) (m : ModeState) (x : List Byte) : (streamRun unit m x).2.length = x.length := by
  induction x generalizing m with
  | nil => rfl
  | cons b x ih => simp [streamRun, ih]

/-- A stream mode over two sequences in a row is two runs, the second from the ModeState of the first. -/
theorem streamRun_append (unit) (m : ModeState) (x y : List Byte) :
    streamRun unit m (x ++ y) =
      ((streamRun unit (streamRun unit m x).1 y).1,
        (streamRun unit m x).2 ++ (streamRun unit (streamRun unit m x).1 y).2) := by
  induction x generalizing m with
  | nil => rfl
  | cons b x ih => simp [streamRun, ih]

theorem blockRun_length (unit) (iv : Block) (x : List Block) : (blockRun unit iv x).2.length = x.length := by
  induction x generalizing iv with
  | nil => rfl
  | cons b x ih => simp [blockRun, ih]

theorem blockRun_append (unit) (iv : Block) (x y : List Block) :
    blockRun unit iv (x ++ y) =
      ((blockRun unit (blockRun unit iv x).1 y).1,
        (blockRun unit iv x).2 ++ (blockRun unit (blockRun unit iv x).1 y).2) := by
  induction x generalizing iv with
  | nil => rfl
  | cons b x ih => simp [blockRun, ih]

theorem blocksOf_length (x : List Byte) : (blocksOf x).length = x.length / 16 := by simp [blocksOf]

theorem length_flatMap_toList (bs : List Block) : (bs.flatMap (·.toList)).length = 16 * bs.length := by
  induction bs with
  | nil => rfl
  | cons b bs ih => simp [ih]; omega

/-- Byte `i` of a sequence of Blocks is Byte i mod 16 of Block i / 16. -/
theorem getD_flatMap_toList (bs : List Block) {i : Nat} (h : i < 16 * bs.length) :
    (bs.flatMap (·.toList)).getD i 0 = (bs.getD (i / 16) Block.zero).toList.getD (i % 16) 0 := by
  induction bs generalizing i with
  | nil => simp at h
  | cons b bs ih =>
    rw [List.flatMap_cons]
    by_cases hi : i < 16
    · rw [List.getD_append _ _ _ _ (by simpa using hi), Nat.div_eq_of_lt hi, Nat.mod_eq_of_lt hi]
      rfl
    · rw [List.getD_append_right _ _ _ _ (by simp; omega)]
      have h1 : i / 16 = (i - 16) / 16 + 1 := by omega
      have h2 : i % 16 = (i - 16) % 16 := by omega
      simp only [List.length_cons] at h
      rw [show i - b.toList.length = i - 16 by simp, ih (by omega), h1, h2]
      rfl

/-- The Blocks of two sequences in a row, the first of whole Blocks. -/
theorem blocksOf_append {x y : List Byte} (h : x.length % 16 = 0) : blocksOf (x ++ y) = blocksOf x ++ blocksOf y := by
  have hl : (x ++ y).length / 16 = x.length / 16 + y.length / 16 := by rw [List.length_append]; omega
  simp only [blocksOf, hl, List.range_add, List.map_append, List.map_map]
  refine congrArg₂ (· ++ ·) ?_ ?_
  · refine List.map_congr_left fun j hj => ?_
    simp only [List.mem_range] at hj
    refine Vector.ext fun k hk => ?_
    simp only [blockOf, Vector.getElem_ofFn]
    exact List.getD_append _ _ _ _ (by omega)
  · refine List.map_congr_left fun j hj => ?_
    refine Vector.ext fun k hk => ?_
    simp only [blockOf, Vector.getElem_ofFn, Function.comp]
    rw [List.getD_append_right _ _ _ _ (by omega)]
    exact congrArg (y.getD · 0) (by omega)

theorem blockMode_length (unit) (m : ModeState) (x : List Byte) :
    (blockMode unit m x).2.length = 16 * (x.length / 16) := by
  simp only [blockMode, length_flatMap_toList, blockRun_length, blocksOf_length]

/-- A block mode over two sequences in a row, the first of whole Blocks. -/
theorem blockMode_append (unit) (m : ModeState) {x y : List Byte} (h : x.length % 16 = 0) :
    blockMode unit m (x ++ y) =
      ((blockMode unit (blockMode unit m x).1 y).1,
        (blockMode unit m x).2 ++ (blockMode unit (blockMode unit m x).1 y).2) := by
  simp [blockMode, blocksOf_append h, blockRun_append]

theorem blockMode_off (unit) (m : ModeState) (x : List Byte) : (blockMode unit m x).1.off = m.off := rfl
theorem blockMode_ks (unit) (m : ModeState) (x : List Byte) : (blockMode unit m x).1.ks = m.ks := rfl

/-- Which input Bytes each output Byte of a mode command is computed from (spec/20_memory.md R89). -/
def needsOf : Instr → State → Nat → Nat → Bool
  | .ecbEnc => ecbNeeds
  | .ecbDec => ecbNeeds
  | .cbcEnc => cbcEncNeeds
  | .cbcDec => cbcDecNeeds
  | .cfbEnc => cfbEncNeeds
  | .cfbDec => cfbDecNeeds
  | _ => ownNeeds

/-- The reads of a unit come before its writes (spec/20_memory.md R91 (b)): a unit is a Block in ECB and CBC, else a
Byte. -/
theorem needsOf_unit (i : Instr) (s : State) {j k : Nat}
    (h : if i ∈ [Instr.ecbEnc, .ecbDec, .cbcEnc, .cbcDec] then j / 16 = k / 16 else j = k) :
    needsOf i s k j = true := by
  cases i <;> simp_all [needsOf, ecbNeeds, cbcEncNeeds, cbcDecNeeds, cfbEncNeeds, cfbDecNeeds, ownNeeds]

/-- The rule of a mode command. -/
def modeOf : Instr → Option (State → ModeState → List Byte → ModeState × List Byte)
  | .ecbEnc => some ecbEncMode
  | .ecbDec => some ecbDecMode
  | .cbcEnc => some cbcEncMode
  | .cbcDec => some cbcDecMode
  | .cfbEnc => some cfbEncMode
  | .cfbDec => some cfbDecMode
  | .ofbCrypt => some ofbMode
  | .ctrCrypt => some ctrMode
  | _ => none

theorem effectOf_mode {i : Instr} {mode} (h : modeOf i = some mode) (s : State) :
    effectOf i s = dmaEffect mode (needsOf i) s := by
  cases i <;> simp only [modeOf, Option.some.injEq, reduceCtorEq] at h <;> subst h <;> rfl

/-- No mode rule looks at anything acceptance changes. -/
theorem modeOf_accept {i : Instr} {mode} (h : modeOf i = some mode) (s : State) (w : Word) :
    mode (s.accept w) = mode s := by
  cases i <;> simp only [modeOf, Option.some.injEq, reduceCtorEq] at h <;> subst h <;> rfl

/-- No command writes more Bytes than it reads. -/
theorem modeOf_length_le {i : Instr} {mode} (h : modeOf i = some mode) (s : State) (m : ModeState) (x : List Byte) :
    (mode s m x).2.length ≤ x.length := by
  cases i <;> simp only [modeOf, Option.some.injEq, reduceCtorEq] at h <;> subst h <;>
    first
    | exact (streamRun_length _ m x).le
    | exact (blockMode_length _ m x).trans_le (by omega)

/-- A command over whole Blocks, and a stream command over any length, writes as many Bytes as it reads. -/
theorem modeOf_length {i : Instr} {mode} (h : modeOf i = some mode) (s : State) (m : ModeState) (x : List Byte)
    (hx : i ∈ [Instr.ecbEnc, .ecbDec, .cbcEnc, .cbcDec] → x.length % 16 = 0) :
    (mode s m x).2.length = x.length := by
  cases i <;> simp only [modeOf, Option.some.injEq, reduceCtorEq] at h <;> subst h <;>
    first
    | exact streamRun_length _ m x
    | exact (blockMode_length _ m x).trans (by have := hx (by decide); omega)

theorem modeJob_writes (s : State) (mode) :
    (s.modeJob mode).writes = s.outputWrites (mode s.modeState s.inputBytes).2 := rfl

theorem inputBytes_eq (s : State) :
    s.inputBytes = (List.range s.len.toNat).map fun i => s.byte (s.src + BitVec.ofNat 32 i) := rfl

/-- No needs look at anything acceptance changes. -/
theorem needsOf_accept (i : Instr) (s : State) (w : Word) : needsOf i (s.accept w) = needsOf i s := by
  cases i <;> rfl

end Sys2Proof.Laws
end

