-- ==== Sys2Proof/Laws/Cipher.lean ====
section
/-! SUPPORT. The round transforms by state Byte, which of them undo each other, and the words of a key schedule. -/

namespace Sys2Proof.Laws

open Sys2Proof.Machine

theorem xorBlock_cancel (a b : Block) : xorBlock (xorBlock a b) b = a := by
  refine Vector.ext fun k hk => ?_
  simp [xorBlock]

theorem stateAt_ofState (f : Nat → Nat → Byte) (r c : Nat) : stateAt (ofState f) r c = f (r % 4) (c % 4) := by
  simp only [stateAt, ofState, Vector.getElem_ofFn]
  congr 1 <;> omega

theorem ofState_stateAt (s : Block) : ofState (stateAt s) = s := by
  refine Vector.ext fun k hk => ?_
  simp only [ofState, stateAt, Vector.getElem_ofFn]
  congr 1
  omega

theorem ofState_congr {f g : Nat → Nat → Byte} (h : ∀ r < 4, ∀ c < 4, f r c = g r c) : ofState f = ofState g := by
  refine Vector.ext fun k hk => ?_
  simp only [ofState, Vector.getElem_ofFn]
  exact h _ (by omega) _ (by omega)

theorem stateAt_mod (s : Block) (r c : Nat) : stateAt s (r % 4) (c % 4) = stateAt s r c := by simp [stateAt]

theorem invShiftRows_shiftRows (s : Block) : invShiftRows (shiftRows s) = s := by
  unfold invShiftRows shiftRows
  conv => rhs; rw [← ofState_stateAt s]
  refine ofState_congr fun r hr c hc => ?_
  simp only [stateAt_ofState]
  simp only [stateAt]
  congr 1
  omega

theorem shiftRows_invShiftRows (s : Block) : shiftRows (invShiftRows s) = s := by
  unfold invShiftRows shiftRows
  conv => rhs; rw [← ofState_stateAt s]
  refine ofState_congr fun r hr c hc => ?_
  simp only [stateAt_ofState]
  simp only [stateAt]
  congr 1
  omega

/-- InvShiftRows moves Bytes and InvSubBytes maps them, in either order. -/
theorem invShiftRows_invSubBytes (s : Block) : invShiftRows (invSubBytes s) = invSubBytes (invShiftRows s) := by
  unfold invShiftRows invSubBytes
  refine Vector.ext fun k hk => ?_
  simp [ofState, stateAt]

theorem expandFrom_length (nk n : Nat) (ws : List KeyWord) : (expandFrom nk n ws).length = ws.length + n := by
  induction n generalizing ws with
  | zero => rfl
  | succ n ih => rw [expandFrom, ih]; simp; omega

/-- More words leave the older ones as they are. -/
theorem expandFrom_suffix (nk n : Nat) (ws : List KeyWord) : ∃ new, expandFrom nk n ws = new ++ ws := by
  induction n generalizing ws with
  | zero => exact ⟨[], rfl⟩
  | succ n ih =>
    obtain ⟨new, h⟩ := ih (xorWord (ws.getD (nk - 1) zeroWord) (scheduleTemp nk ws.length (ws.headD zeroWord)) :: ws)
    exact ⟨new ++ [_], by rw [expandFrom, h, List.append_assoc]; rfl⟩

/-- The Blocks of a sequence of Blocks written out are those Blocks. -/
theorem blocksOf_flatMap (bs : List Block) : blocksOf (bs.flatMap (·.toList)) = bs := by
  apply List.ext_getElem
  · rw [blocksOf_length, length_flatMap_toList]; omega
  · intro i h1 h2
    refine Vector.ext fun k hk => ?_
    simp only [blocksOf, List.getElem_map, List.getElem_range, blockOf, Vector.getElem_ofFn]
    rw [getD_flatMap_toList _ (by omega), show (16 * i + k) / 16 = i by omega,
      show (16 * i + k) % 16 = k by omega]
    simp [h2, hk]

end Sys2Proof.Laws
end

