-- ==== Sys2Proof/Laws/Decode.lean ====
section
/-! SUPPORT. The fields of a transaction, and what the decoder gives. -/

namespace Sys2Proof.Laws

@[simp] theorem mk_we (w : Bool) (o : BitVec 8) (d : Word) : (Transaction.mk w o d).we = w := by
  cases w <;> simp [Transaction.mk, Transaction.we]

@[simp] theorem mk_off (w : Bool) (o : BitVec 8) (d : Word) : (Transaction.mk w o d).off = o := by
  ext i hi
  have h1 : ¬ (32 + i < 32) := by omega
  have h2 : 32 + i < 40 := by omega
  have h3 : 32 + i < 41 := by omega
  simp [Transaction.mk, Transaction.off, h1, h2, h3]
  exact BitVec.getLsbD_eq_getElem hi

@[simp] theorem mk_data (w : Bool) (o : BitVec 8) (d : Word) : (Transaction.mk w o d).data = d := by
  ext i hi
  have h2 : i < 40 := by omega
  have h3 : i < 41 := by omega
  simp [Transaction.mk, Transaction.data, h2, h3, hi]

/-- A transaction is its three fields. -/
theorem mk_eta (t : Transaction) : Transaction.mk t.we t.off t.data = t := by
  ext i hi
  simp only [Transaction.mk, Transaction.we, Transaction.off, Transaction.data]
  by_cases h1 : i < 32
  · have h2 : i < 40 := by omega
    simp [h1, h2, hi]
  · by_cases h2 : i < 40
    · have h3 : i - 32 < 8 := by omega
      have h4 : 32 + (i - 32) = i := by omega
      simp [h1, h2, hi, h3, h4]
    · have h3 : i = 40 := by omega
      subst h3
      simp

/-- The command decoder keeps the word. -/
theorem commandWord_decodeCommand (w : Word) : commandWord (decodeCommand w) = some w := by
  unfold decodeCommand
  split <;> first
    | rfl
    | exact congrArg some (BitVec.eq_of_toNat_eq (by simp_all))

theorem decodeCommand_of_undefined {w : Word} (h : isCommandWord w = false) : decodeCommand w = .cmdIllegal w := by
  unfold decodeCommand
  split <;> simp_all [isCommandWord, definedOpcodes]

/-- A command is a write of its word to CMD. -/
theorem encode_of_commandWord {i : Instr} {w : Word} (h : commandWord i = some w) :
    encode i = Transaction.mk true 0x04 w := by cases i <;> simp_all [encode, commandWord]

end Sys2Proof.Laws
end

