-- ==== Sys2Proof/Laws/Needs.lean ====
section
/-! SUPPORT. Which input Bytes an output Byte of a mode command depends on: those it needs, and no other. -/

namespace Sys2Proof.Laws

open Sys2Proof.Machine

/-! ## Stream modes -/

/-- Two runs of OFB or CTR, whose ModeState does not depend on the input, agree wherever their inputs do. -/
theorem streamRun_own {unit : ModeState → Byte → ModeState × Byte} (h : ∀ m a b, (unit m a).1 = (unit m b).1)
    {x y : List Byte} (m : ModeState) (k : Nat) (hx : k < x.length) (hy : k < y.length)
    (hk : x.getD k 0 = y.getD k 0) : (streamRun unit m x).2.getD k 0 = (streamRun unit m y).2.getD k 0 := by
  induction k generalizing m x y with
  | zero =>
    cases x with
    | nil => simp at hx
    | cons a x =>
      cases y with
      | nil => simp at hy
      | cons b y =>
        have : a = b := by simpa using hk
        simp [streamRun, this]
  | succ k ih =>
    cases x with
    | nil => simp at hx
    | cons a x =>
      cases y with
      | nil => simp at hy
      | cons b y =>
        simp only [streamRun, List.getD_cons_succ]
        rw [h m a b]
        exact ih _ (by simpa using hx) (by simpa using hy) (by simpa using hk)

/-- The shape CFB_ENC and CFB_DEC share: the keystream Block is loaded at OFFSET 0, the Byte is xored with it, the feedback
Byte goes into the IV. -/
structure IsCfb (e : Block → Block) (unit : ModeState → Byte → ModeState × Byte) : Prop where
  off : ∀ m a, (unit m a).1.off = m.off + 1
  ks : ∀ m a, (unit m a).1.ks = loadKs e m
  out : ∀ m a, (unit m a).2 = a ^^^ keystreamByte (loadKs e m) m.off

theorem cfbEnc_isCfb (e : Block → Block) : IsCfb e (cfbEncUnit e) := ⟨fun _ _ => rfl, fun _ _ => rfl, fun _ _ => rfl⟩
theorem cfbDec_isCfb (e : Block → Block) : IsCfb e (cfbDecUnit e) := ⟨fun _ _ => rfl, fun _ _ => rfl, fun _ _ => rfl⟩

theorem off_add_one (o : BitVec 4) : (o + 1).toNat = (o.toNat + 1) % 16 := by revert o; decide

/-- Inside a keystream Block the output depends on that Block and on the Byte's own input. -/
theorem cfb_inside {e unit} (hu : IsCfb e unit) {x y : List Byte} (m n : ModeState) (k : Nat)
    (hx : k < x.length) (hy : k < y.length) (hk : x.getD k 0 = y.getD k 0) (ho : m.off = n.off)
    (hks : loadKs e m = loadKs e n) (hin : m.off.toNat + k < 16) :
    (streamRun unit m x).2.getD k 0 = (streamRun unit n y).2.getD k 0 := by
  induction k generalizing m n x y with
  | zero =>
    cases x with
    | nil => simp at hx
    | cons a x =>
      cases y with
      | nil => simp at hy
      | cons b y =>
        have : a = b := by simpa using hk
        simp [streamRun, this, hu.out, ho, hks]
  | succ k ih =>
    cases x with
    | nil => simp at hx
    | cons a x =>
      cases y with
      | nil => simp at hy
      | cons b y =>
        simp only [streamRun, List.getD_cons_succ]
        have hm : (m.off + 1).toNat = m.off.toNat + 1 := by rw [off_add_one]; omega
        have h0 : m.off + 1 ≠ 0 := fun h => by rw [h] at hm; simp at hm
        refine ih _ _ (by simpa using hx) (by simpa using hy) (by simpa using hk) ?_ ?_ ?_
        · rw [hu.off, hu.off, ho]
        · have h0' : n.off + 1 ≠ 0 := ho ▸ h0
          rw [loadKs, loadKs, hu.off, hu.off, if_neg h0, if_neg h0', hu.ks, hu.ks, hks]
        · rw [hu.off]; omega

/-- CFB_ENC: the Byte's own input and those of every keystream Block before its own. -/
theorem cfbEnc_needs (e : Block → Block) {x y : List Byte} (m : ModeState) (k : Nat)
    (hx : k < x.length) (hy : k < y.length) (hk : x.getD k 0 = y.getD k 0)
    (h : ∀ j < x.length, (m.off.toNat + j) / 16 < (m.off.toNat + k) / 16 → x.getD j 0 = y.getD j 0) :
    (streamRun (cfbEncUnit e) m x).2.getD k 0 = (streamRun (cfbEncUnit e) m y).2.getD k 0 := by
  induction k generalizing m x y with
  | zero => exact cfb_inside (cfbEnc_isCfb e) m m 0 hx hy hk rfl rfl (by have := m.off.isLt; omega)
  | succ k ih =>
    by_cases hin : m.off.toNat + (k + 1) < 16
    · exact cfb_inside (cfbEnc_isCfb e) m m _ hx hy hk rfl rfl hin
    · have hlt := m.off.isLt
      cases x with
      | nil => simp at hx
      | cons a x =>
        cases y with
        | nil => simp at hy
        | cons b y =>
          have hab : a = b := by simpa using h 0 (by simp) (by omega)
          subst hab
          simp only [streamRun, List.getD_cons_succ]
          refine ih _ (by simpa using hx) (by simpa using hy) (by simpa using hk) fun j hj hlt' => ?_
          have := h (j + 1) (by simpa using hj) ?_
          · simpa using this
          · rw [(cfbEnc_isCfb e).off, off_add_one] at hlt'; omega

/-- CFB_DEC: the Byte's own input and those of the keystream Block before its own. -/
theorem cfbDec_needs (e : Block → Block) {x y : List Byte} (m n : ModeState) (k : Nat)
    (hx : k < x.length) (hy : k < y.length) (hk : x.getD k 0 = y.getD k 0) (ho : m.off = n.off)
    (h0 : m.off.toNat + k < 16 → loadKs e m = loadKs e n)
    (h1 : (m.off.toNat + k) / 16 = 1 → ∀ p, (hp : p < 16) → p < m.off.toNat → m.iv[p] = n.iv[p])
    (h : ∀ j < x.length, (m.off.toNat + j) / 16 + 1 = (m.off.toNat + k) / 16 → x.getD j 0 = y.getD j 0) :
    (streamRun (cfbDecUnit e) m x).2.getD k 0 = (streamRun (cfbDecUnit e) n y).2.getD k 0 := by
  have hlt := m.off.isLt
  induction k generalizing m n x y with
  | zero => exact cfb_inside (cfbDec_isCfb e) m n 0 hx hy hk ho (h0 (by omega)) (by omega)
  | succ k ih =>
    by_cases hin : m.off.toNat + (k + 1) < 16
    · exact cfb_inside (cfbDec_isCfb e) m n _ hx hy hk ho (h0 hin) hin
    · cases x with
      | nil => simp at hx
      | cons a x =>
        cases y with
        | nil => simp at hy
        | cons b y =>
          simp only [streamRun, List.getD_cons_succ]
          have hoff : (cfbDecUnit e m a).1.off.toNat = (m.off.toNat + 1) % 16 := off_add_one _
          have hab : (m.off.toNat + (k + 1)) / 16 = 1 → a = b := fun hT => by simpa using h 0 (by simp) (by omega)
          have hiv : (m.off.toNat + (k + 1)) / 16 = 1 → ∀ p, (hp : p < 16) → p < m.off.toNat + 1 →
              (cfbDecUnit e m a).1.iv[p] = (cfbDecUnit e n b).1.iv[p] := fun hT p hp hpo => by
            simp only [cfbDecUnit, ← ho, hab hT, Vector.getElem_set]
            split
            · rfl
            · exact h1 hT p hp (by omega)
          refine ih _ _ (by simpa using hx) (by simpa using hy) (by simpa using hk) ?_ ?_ ?_ ?_ (by omega)
          · simp [cfbDecUnit, ho]
          · intro hs
            rw [hoff] at hs
            have h15 : m.off.toNat = 15 := by omega
            have hz : m.off + 1 = 0 := BitVec.eq_of_toNat_eq (by rw [off_add_one, h15]; rfl)
            have hz' : n.off + 1 = 0 := ho ▸ hz
            have : (cfbDecUnit e m a).1.iv = (cfbDecUnit e n b).1.iv :=
              Vector.ext fun p hp => hiv (by omega) p hp (by omega)
            simp only [loadKs, cfbDecUnit, hz, hz', if_true] at this ⊢
            rw [this]
          · intro hT p hp hpo
            rw [hoff] at hT hpo
            exact hiv (by omega) p hp (by omega)
          · intro j hj hT
            rw [hoff] at hT
            have := h (j + 1) (by simpa using hj) (by omega)
            simpa using this

/-! ## Block modes -/

theorem ecb_needs (f : Block → Block) {x y : List Block} (iv : Block) (J : Nat) (hl : x.length = y.length)
    (h : x.getD J Block.zero = y.getD J Block.zero) :
    (blockRun (ecbUnit f) iv x).2.getD J Block.zero = (blockRun (ecbUnit f) iv y).2.getD J Block.zero := by
  induction J generalizing x y with
  | zero => cases x <;> cases y <;> simp_all [blockRun, ecbUnit]
  | succ J ih =>
    cases x <;> cases y <;> simp only [List.length_cons, List.length_nil, Nat.add_right_cancel_iff, Nat.add_eq_zero_iff,
      Nat.right_eq_add, Nat.succ_ne_self, and_false] at hl
    · rfl
    · exact ih hl (by simpa using h)

theorem cbcEnc_needs (e : Block → Block) {x y : List Block} (iv : Block) (J : Nat) (hl : x.length = y.length)
    (h : ∀ j ≤ J, x.getD j Block.zero = y.getD j Block.zero) :
    (blockRun (cbcEncUnit e) iv x).2.getD J Block.zero = (blockRun (cbcEncUnit e) iv y).2.getD J Block.zero := by
  induction J generalizing x y iv with
  | zero =>
    have h0 := h 0 le_rfl
    cases x <;> cases y <;> simp_all [blockRun, cbcEncUnit]
  | succ J ih =>
    have h0 := h 0 (by omega)
    cases x <;> cases y <;> simp only [List.length_cons, List.length_nil, Nat.add_right_cancel_iff, Nat.add_eq_zero_iff,
      Nat.right_eq_add, Nat.succ_ne_self, and_false] at hl
    · rfl
    · simp only [List.getD_cons_zero] at h0
      subst h0
      exact ih _ hl fun j hj => by simpa using h (j + 1) (by omega)

/-- An output Block of CBC_DEC: D of the input Block, ⊕ the Block before it (spec/42_modes.md R226). -/
theorem cbcDec_block (d : Block → Block) (iv : Block) {x : List Block} {J : Nat} (h : J < x.length) :
    (blockRun (cbcDecUnit d) iv x).2.getD J Block.zero =
      xorBlock (d (x.getD J Block.zero)) (if J = 0 then iv else x.getD (J - 1) Block.zero) := by
  induction J generalizing x iv with
  | zero =>
    cases x with
    | nil => simp at h
    | cons c x => rfl
  | succ J ih =>
    cases x with
    | nil => simp at h
    | cons c x =>
      have := ih c (x := x) (by simpa using h)
      simp only [blockRun, cbcDecUnit, List.getD_cons_succ, Nat.succ_ne_zero, if_false, Nat.add_sub_cancel]
      rw [this]
      cases J <;> rfl

/-- CBC_DEC: its own Block, and the Byte at its place in the Block before. -/
theorem cbcDec_needs (d : Block → Block) {x y : List Block} (iv : Block) (J : Nat) {p : Nat} (hp : p < 16)
    (hJ : J < x.length) (hl : x.length = y.length) (h : x.getD J Block.zero = y.getD J Block.zero)
    (h1 : J ≠ 0 → (x.getD (J - 1) Block.zero)[p] = (y.getD (J - 1) Block.zero)[p]) :
    ((blockRun (cbcDecUnit d) iv x).2.getD J Block.zero)[p] =
      ((blockRun (cbcDecUnit d) iv y).2.getD J Block.zero)[p] := by
  rw [cbcDec_block d iv hJ, cbcDec_block d iv (hl ▸ hJ), h]
  simp only [xorBlock, Vector.getElem_zipWith]
  split
  · rfl
  · rw [h1 (by assumption)]

theorem blocksOf_getD {x : List Byte} {b : Nat} (h : b < x.length / 16) : (blocksOf x).getD b Block.zero = blockOf x b := by
  rw [List.getD_eq_getElem _ _ (by simpa [blocksOf_length] using h)]
  simp [blocksOf]

/-- Blocks agree where their Bytes do. -/
theorem blocksOf_congr {x y : List Byte} (hl : x.length = y.length) (b : Nat)
    (h : ∀ j < x.length, j / 16 = b → x.getD j 0 = y.getD j 0) :
    (blocksOf x).getD b Block.zero = (blocksOf y).getD b Block.zero := by
  by_cases hb : b < x.length / 16
  · rw [blocksOf_getD hb, blocksOf_getD (hl ▸ hb)]
    refine Vector.ext fun k hk => ?_
    simp only [blockOf, Vector.getElem_ofFn]
    exact h _ (by omega) (by omega)
  · rw [List.getD_eq_default _ _ (by rw [blocksOf_length]; omega),
      List.getD_eq_default _ _ (by rw [blocksOf_length]; omega)]

theorem block_getD (b : Block) {p : Nat} (hp : p < 16) : b.toList.getD p 0 = b[p] := by simp [hp]

/-- The output Bytes of two runs of a block mode agree where the Bytes of the output Blocks do. -/
theorem blockMode_congr (unit) (m : ModeState) {x y : List Byte} (hl : x.length = y.length) (h16 : x.length % 16 = 0)
    {k : Nat} (hk : k < x.length)
    (h : ((blockRun unit m.iv (blocksOf x)).2.getD (k / 16) Block.zero)[k % 16]'(Nat.mod_lt _ (by decide)) =
      ((blockRun unit m.iv (blocksOf y)).2.getD (k / 16) Block.zero)[k % 16]'(Nat.mod_lt _ (by decide))) :
    (blockMode unit m x).2.getD k 0 = (blockMode unit m y).2.getD k 0 := by
  simp only [blockMode]
  rw [getD_flatMap_toList _ (by rw [blockRun_length, blocksOf_length]; omega),
    getD_flatMap_toList _ (by rw [blockRun_length, blocksOf_length]; omega),
    block_getD _ (Nat.mod_lt _ (by decide)), block_getD _ (Nat.mod_lt _ (by decide)), h]

/-- Output Byte `k` of a mode command depends on the input Bytes it needs and on no other (spec/20_memory.md R89). -/
theorem modeOf_needs {i : Instr} {mode} (hm : modeOf i = some mode) (s : State) {x y : List Byte}
    (hl : x.length = y.length) (h16 : i ∈ [Instr.ecbEnc, .ecbDec, .cbcEnc, .cbcDec] → x.length % 16 = 0) {k : Nat}
    (hk : k < x.length) (h : ∀ j < x.length, needsOf i s k j = true → x.getD j 0 = y.getD j 0) :
    (mode s s.modeState x).2.getD k 0 = (mode s s.modeState y).2.getD k 0 := by
  cases i <;> simp only [modeOf, Option.some.injEq, reduceCtorEq] at hm <;> subst hm <;>
    simp only [needsOf, ecbNeeds, cbcEncNeeds, cbcDecNeeds, cfbEncNeeds, cfbDecNeeds, ownNeeds, beq_iff_eq,
      Bool.or_eq_true, decide_eq_true_eq] at h
  · refine blockMode_congr _ _ hl (h16 (by decide)) hk ?_
    rw [ecb_needs _ _ _ (by simp [blocksOf_length, hl]) (blocksOf_congr hl _ h)]
  · refine blockMode_congr _ _ hl (h16 (by decide)) hk ?_
    rw [ecb_needs _ _ _ (by simp [blocksOf_length, hl]) (blocksOf_congr hl _ h)]
  · refine blockMode_congr _ _ hl (h16 (by decide)) hk ?_
    rw [cbcEnc_needs _ _ _ (by simp [blocksOf_length, hl])
      fun b hb => blocksOf_congr hl _ fun j hj hjb => h j hj (by omega)]
  · have hx := h16 (by decide)
    refine blockMode_congr _ _ hl hx hk (cbcDec_needs _ _ _ (Nat.mod_lt _ (by decide))
      (by rw [blocksOf_length]; omega) (by simp [blocksOf_length, hl])
      (blocksOf_congr hl _ fun j hj hjb => h j hj (.inl hjb)) fun h0 => ?_)
    rw [blocksOf_getD (by omega), blocksOf_getD (by omega)]
    simp only [blockOf, Vector.getElem_ofFn]
    exact h _ (by omega) (.inr (by omega))
  · exact cfbEnc_needs _ s.modeState k hk (hl ▸ hk) (h k hk (.inl rfl)) fun j hj hlt => h j hj (.inr hlt)
  · exact cfbDec_needs _ s.modeState s.modeState k hk (hl ▸ hk) (h k hk (.inl rfl)) rfl (fun _ => rfl)
      (fun _ _ _ _ => rfl) fun j hj hT => h j hj (.inr hT)
  · exact streamRun_own (fun _ _ _ => rfl) _ k hk (hl ▸ hk) (h k hk rfl)
  · exact streamRun_own (fun _ _ _ => rfl) _ k hk (hl ▸ hk) (h k hk rfl)

end Sys2Proof.Laws
end

