-- ==== Sys2Proof/Laws/Operands.lean ====
section
/-! SUPPORT. The byte lanes of a register (spec/10_state.md R33), and what a register write keeps. -/

namespace Sys2Proof.Laws

open Sys2Proof.Machine

/-- Four Bytes side by side are their shifted sum. -/
theorem append_eq_or (p q r t : Byte) : (t ++ r ++ q ++ p : BitVec 32) =
    p.setWidth 32 ||| q.setWidth 32 <<< 8 ||| r.setWidth 32 <<< 16 ||| t.setWidth 32 <<< 24 := by
  apply BitVec.eq_of_getLsbD_eq
  intro i hi
  have g : ∀ (x : Byte) (j : Nat), 8 ≤ j → x.getLsbD j = false := fun x j h => BitVec.getLsbD_of_ge x j h
  simp only [BitVec.getLsbD_append, BitVec.getLsbD_or, BitVec.getLsbD_shiftLeft, BitVec.getLsbD_setWidth]
  by_cases h1 : i < 8
  · simp [h1, show i < 16 by omega, show i < 24 by omega, show i < 32 by omega]
  by_cases h2 : i < 16
  · simp [h1, h2, show i < 24 by omega, show i < 32 by omega, show i - 8 < 8 by omega, g p i (by omega)]
    intro; omega
  by_cases h3 : i < 24
  · simp [h1, h2, h3, show i < 32 by omega, show ¬ i - 8 < 8 by omega, show i - 8 - 8 = i - 16 by omega,
      show i - 16 < 8 by omega, g p i (by omega), g q (i - 8) (by omega)]
    intro; omega
  · simp [h1, h2, h3, show i < 32 by omega, show ¬ i - 8 < 8 by omega, show i - 8 - 8 = i - 16 by omega,
      show ¬ i - 16 < 8 by omega, show i - 16 - 8 = i - 24 by omega, g p i (by omega), g q (i - 8) (by omega),
      g r (i - 16) (by omega)]
    intro; omega

/-- Byte `k` of a buffer after a write of `w` to register `n` of its group. -/
theorem byteAt_writeLanes {m : Nat} (v : Vector Byte m) (n : Nat) (w : Word) {k : Nat} (hk : k < m) :
    byteAt (writeLanes v n w) k = if k / 4 = n then w.extractLsb' (8 * (k % 4)) 8 else byteAt v k := by
  simp [byteAt, writeLanes, hk]

/-- No register write touches what the host cannot write: memory, the contexts, readiness, STATUS, PHASE, OP, POS, BOUT
and what is no state of AES-CORE. -/
theorem writeReg_frame (s : State) (v : Word) (r : Reg) :
    (s.writeReg v r).mem = s.mem ∧ (s.writeReg v r).enc = s.enc ∧ (s.writeReg v r).dec = s.dec ∧
    (s.writeReg v r).tablesReady = s.tablesReady ∧ (s.writeReg v r).phase = s.phase ∧
    (s.writeReg v r).done = s.done ∧ (s.writeReg v r).errCode = s.errCode ∧ (s.writeReg v r).wign = s.wign ∧
    (s.writeReg v r).op = s.op ∧ (s.writeReg v r).pos = s.pos ∧ (s.writeReg v r).bout = s.bout ∧
    (s.writeReg v r).platform = s.platform ∧ (s.writeReg v r).inputs = s.inputs ∧
    (s.writeReg v r).stall = s.stall ∧ (s.writeReg v r).freeCount = s.freeCount ∧
    (s.writeReg v r).response = s.response := by
  cases r <;> simp [State.writeReg, State.writeCtrl]

/-- A write to STATUS touches DONE, ERRCODE and WIGN only (spec/43_host_access.md R274). -/
theorem writeStatus_eq (s : State) (v : Word) :
    s.writeStatus v = { s with
      done := if v.getLsbD 1 then false else s.done
      errCode := if v.getLsbD 1 then .none else s.errCode
      wign := if v.getLsbD 3 then false else s.wign } := by
  simp only [State.writeStatus]
  split <;> split <;> rfl

end Sys2Proof.Laws
end

