-- ==== Sys2Proof/Laws/PerInstr.lean ====
section
/-! SUPPORT. EncodesRow: the transaction of a well-formed instruction carries the fixed bits of its row of spec/opcode_table.json, one lemma for each constructor. -/

namespace Sys2Proof.Laws

/-- The fixed fields of a row: WE, OFF where the row fixes it, and DATA where the row fixes it
(spec/30_encoding.md R113, R114). -/
def rowFields (t : Transaction) : String → Prop
  | "CMD_ILLEGAL" => t.we = true ∧ t.off = 0x04 ∧ isCommandWord t.data = false
  | "REG_WRITE" => t.we = true ∧ t.off ≠ 0x04
  | "REG_READ" => t.we = false ∧ t.data = 0
  | m => ∃ r ∈ opcodeTable, r.mnemonic = m ∧ r.mask = 0x1FFFFFFFFFF ∧ t.toNat = r.pattern

end Sys2Proof.Laws

/-- The transaction of a well-formed instruction has the fixed bits of the row with its mnemonic, at an aligned OFF. -/
def Sys2Proof.Laws.EncodesRow.Statement (i : Sys2Proof.Instr) : Prop :=
  i.wf = true → Sys2Proof.Laws.rowFields (Sys2Proof.encode i) i.mnemonic ∧
    Sys2Proof.offsetAligned (Sys2Proof.encode i).off = true

namespace Sys2Proof.Laws

theorem EncodesRow.init : EncodesRow.Statement .init :=
  fun _ => ⟨⟨⟨"INIT", 0x10400000001, 0x1FFFFFFFFFF⟩, by decide, rfl, rfl, rfl⟩, rfl⟩
theorem EncodesRow.kexpEnc : EncodesRow.Statement .kexpEnc :=
  fun _ => ⟨⟨⟨"KEXP_ENC", 0x10400000002, 0x1FFFFFFFFFF⟩, by decide, rfl, rfl, rfl⟩, rfl⟩
theorem EncodesRow.kexpDec : EncodesRow.Statement .kexpDec :=
  fun _ => ⟨⟨⟨"KEXP_DEC", 0x10400000003, 0x1FFFFFFFFFF⟩, by decide, rfl, rfl, rfl⟩, rfl⟩
theorem EncodesRow.encBlock : EncodesRow.Statement .encBlock :=
  fun _ => ⟨⟨⟨"ENC_BLOCK", 0x10400000004, 0x1FFFFFFFFFF⟩, by decide, rfl, rfl, rfl⟩, rfl⟩
theorem EncodesRow.decBlock : EncodesRow.Statement .decBlock :=
  fun _ => ⟨⟨⟨"DEC_BLOCK", 0x10400000005, 0x1FFFFFFFFFF⟩, by decide, rfl, rfl, rfl⟩, rfl⟩
theorem EncodesRow.resetMode : EncodesRow.Statement .resetMode :=
  fun _ => ⟨⟨⟨"RESET_MODE", 0x10400000006, 0x1FFFFFFFFFF⟩, by decide, rfl, rfl, rfl⟩, rfl⟩
theorem EncodesRow.ecbEnc : EncodesRow.Statement .ecbEnc :=
  fun _ => ⟨⟨⟨"ECB_ENC", 0x10400000010, 0x1FFFFFFFFFF⟩, by decide, rfl, rfl, rfl⟩, rfl⟩
theorem EncodesRow.ecbDec : EncodesRow.Statement .ecbDec :=
  fun _ => ⟨⟨⟨"ECB_DEC", 0x10400000011, 0x1FFFFFFFFFF⟩, by decide, rfl, rfl, rfl⟩, rfl⟩
theorem EncodesRow.cbcEnc : EncodesRow.Statement .cbcEnc :=
  fun _ => ⟨⟨⟨"CBC_ENC", 0x10400000012, 0x1FFFFFFFFFF⟩, by decide, rfl, rfl, rfl⟩, rfl⟩
theorem EncodesRow.cbcDec : EncodesRow.Statement .cbcDec :=
  fun _ => ⟨⟨⟨"CBC_DEC", 0x10400000013, 0x1FFFFFFFFFF⟩, by decide, rfl, rfl, rfl⟩, rfl⟩
theorem EncodesRow.cfbEnc : EncodesRow.Statement .cfbEnc :=
  fun _ => ⟨⟨⟨"CFB_ENC", 0x10400000014, 0x1FFFFFFFFFF⟩, by decide, rfl, rfl, rfl⟩, rfl⟩
theorem EncodesRow.cfbDec : EncodesRow.Statement .cfbDec :=
  fun _ => ⟨⟨⟨"CFB_DEC", 0x10400000015, 0x1FFFFFFFFFF⟩, by decide, rfl, rfl, rfl⟩, rfl⟩
theorem EncodesRow.ofbCrypt : EncodesRow.Statement .ofbCrypt :=
  fun _ => ⟨⟨⟨"OFB_CRYPT", 0x10400000016, 0x1FFFFFFFFFF⟩, by decide, rfl, rfl, rfl⟩, rfl⟩
theorem EncodesRow.ctrCrypt : EncodesRow.Statement .ctrCrypt :=
  fun _ => ⟨⟨⟨"CTR_CRYPT", 0x10400000017, 0x1FFFFFFFFFF⟩, by decide, rfl, rfl, rfl⟩, rfl⟩

theorem EncodesRow.cmdIllegal (word : Word) : EncodesRow.Statement (.cmdIllegal word) := by
  intro h
  simp only [Instr.wf, Bool.not_eq_true'] at h
  exact ⟨⟨mk_we _ _ _, mk_off _ _ _, by rw [← h]; exact congrArg _ (mk_data _ _ _)⟩,
    by rw [encode_of_commandWord rfl, mk_off]; rfl⟩

theorem EncodesRow.regWrite (off : BitVec 8) (value : Word) : EncodesRow.Statement (.regWrite off value) := by
  intro h
  simp only [Instr.wf, Bool.and_eq_true, bne_iff_ne] at h
  exact ⟨⟨mk_we _ _ _, by rw [encode, mk_off]; exact h.2⟩, by rw [encode, mk_off]; exact h.1⟩

theorem EncodesRow.regRead (off : BitVec 8) : EncodesRow.Statement (.regRead off) := by
  intro h
  exact ⟨⟨mk_we _ _ _, mk_data _ _ _⟩, by rw [encode, mk_off]; exact h⟩

end Sys2Proof.Laws
end

