-- ==== Sys2Proof/Laws/Step.lean ====
section
/-! SUPPORT. The inversion of the step: what it can do, said once. -/

namespace Sys2Proof.Laws

open Sys2Proof.Machine

/-- What the sequencer does before an event: nothing, a completion, or one event of the command's count used. -/
theorem tick_cases (s : State) :
    s.tick = s ∨ s.tick = s.complete ∨
      ∃ job, s.phase = .run job ∧ s.tick = { s with phase := .run { job with left := job.left - 1 } } := by
  unfold State.tick
  split
  · exact .inl rfl
  · split
    · exact .inr (.inl rfl)
    · exact .inr (.inr ⟨_, by assumption, rfl⟩)

/-- Completion leaves a state as it is, or writes the results of the command in RUN. -/
theorem complete_cases (s : State) :
    s.complete = s ∨ ∃ job, s.phase = .run job ∧ job.answers = true ∧ s.complete = s.finish job := by
  cases hp : s.phase with
  | idle => exact .inl (complete_of_idle hp)
  | run job =>
    cases ha : job.answers with
    | true => exact .inr ⟨job, rfl, ha, complete_of_run hp ha⟩
    | false => exact .inl (complete_of_unanswered hp ha)

theorem serveTransaction_cases {t : Transaction} {s u : State} (h : serveTransaction t s = .next u) :
    (∃ i, i.wf = true ∧ exec i { s with response := .written } = .next u) ∨ u = s.busErrorResponse := by
  unfold serveTransaction at h
  split at h
  · exact .inl ⟨_, wf_of_decode (by assumption), h⟩
  · exact .inr (by injection h with h; exact h.symm)

/-- Everything a host event that answers a next state can do: an instruction, an answer, a change of memory and of what
the host's caches hold, other answers of Mem, a reset. -/
theorem serve_cases {e : HostEvent} {s t : State} (h : serve e s = .next t) :
    (∃ i, i.wf = true ∧ Safety.isAccess e = true ∧ exec i { s with response := .written } = .next t) ∨
    (∃ r, t = { s with response := r }) ∨
    (∃ ws d c n r, (∀ x ∈ d, s.platform.dmaCoherent = true → x ∈ s.hostDirty) ∧ (∀ x ∈ c, x ∈ s.hostStale) ∧
      t = { s with mem := s.mem.setAll ws, hostDirty := d, hostStale := c, freeCount := n, response := r }) ∨
    (∃ m, e = .memoryAnswers m ∧
      t = { s with platform := { s.platform with memMap := m }, response := .none }) ∨
    (e = .reset ∧ t = s.applyReset) := by
  cases e with
  | transaction w =>
    rcases serveTransaction_cases h with ⟨i, hw, h⟩ | h
    · exact .inl ⟨i, hw, rfl, h⟩
    · exact .inr (.inl ⟨_, h⟩)
  | busAccess w a z v =>
    simp only [serve, serveBusAccess] at h
    split at h
    · exact .inr (.inl ⟨_, by injection h with h; exact h.symm⟩)
    · cases z
      · exact .inr (.inl ⟨_, by injection h with h; exact h.symm⟩)
      · exact .inr (.inl ⟨_, by injection h with h; exact h.symm⟩)
      · rcases serveTransaction_cases h with ⟨i, hw, h⟩ | h
        · exact .inl ⟨i, hw, rfl, h⟩
        · exact .inr (.inl ⟨_, h⟩)
  | load a =>
    simp only [serve, serveLoad] at h
    split at h
    · simp at h
    · split at h
      · simp at h
      · exact .inr (.inl ⟨_, by injection h with h; exact h.symm⟩)
  | store a b =>
    simp only [serve, serveStore] at h
    split at h
    · simp at h
    · split at h
      · injection h with h
        exact .inr (.inr (.inl ⟨[(a, b)], s.hostDirty, s.hostStale, s.freeCount, _, fun _ hx _ => hx,
          fun _ hx => hx, h.symm⟩))
      · rename_i hc
        injection h with h
        exact .inr (.inr (.inl ⟨[], _, s.hostStale, s.freeCount, _, fun _ _ h => absurd h hc, fun _ hx => hx,
          h.symm⟩))
  | masterLoad a =>
    simp only [serve, serveMasterLoad] at h
    split at h
    · simp at h
    · exact .inr (.inl ⟨_, by injection h with h; exact h.symm⟩)
  | masterStore a b =>
    simp only [serve, serveMasterStore] at h
    split at h
    · simp at h
    · injection h with h
      exact .inr (.inr (.inl ⟨[(a, b)], _, s.hostStale, s.freeCount, _, fun _ hx _ => List.mem_of_mem_filter hx,
        fun _ hx => hx, h.symm⟩))
  | cacheClean a z =>
    simp only [serve, serveClean] at h
    split at h
    · simp at h
    · injection h with h
      exact .inr (.inr (.inl ⟨_, _, s.hostStale, s.freeCount, _, fun _ hx _ => List.mem_of_mem_filter hx,
        fun _ hx => hx, h.symm⟩))
  | cacheInvalidate a z =>
    injection h with h
    exact .inr (.inr (.inl ⟨_, _, _, s.freeCount + 1, _, fun _ hx _ => List.mem_of_mem_filter hx,
      fun _ hx => List.mem_of_mem_filter hx, h.symm⟩))
  | memoryAnswers m => exact .inr (.inr (.inr (.inl ⟨m, rfl, by injection h with h; exact h.symm⟩)))
  | reset => exact .inr (.inr (.inr (.inr ⟨rfl, by injection h with h; exact h.symm⟩)))

/-- Everything a step that answers a next state can do. -/
theorem step_cases {s t : State} (h : step s = .next t) :
    (s.inputs = [] ∧ t = s.complete) ∨
    ∃ e rest, s.inputs = e :: rest ∧ serve e { s.tick with inputs := rest } = .next t := by
  unfold step at h
  split at h
  · exact .inl ⟨by assumption, by injection h with h; exact h.symm⟩
  · exact .inr ⟨_, _, by assumption, h⟩

end Sys2Proof.Laws
end

