-- ==== Sys2Proof/Tests/Slice0.lean ====
section
/-! SUPPORT. The model's own tests: ill-formed terms, words written out from the spec's encodings, one step of each instruction on a vector of spec/95_test_vectors.md, and a witness for the hypotheses of each obligation. -/

set_option Elab.async false

namespace Sys2Proof.Tests

open Sys2Proof Sys2Proof.Machine Sys2Proof.Claims Sys2Proof.Safety

/-! ## Well-formedness: one ill-formed term for each check -/

theorem test_wf_legal_word_is_no_illegal_command : (Instr.cmdIllegal 0x17).wf = false := by decide
theorem test_wf_misaligned_write : (Instr.regWrite 0x61 0).wf = false := by decide
theorem test_wf_write_to_cmd_is_no_regWrite : (Instr.regWrite 0x04 1).wf = false := by decide
theorem test_wf_misaligned_read : (Instr.regRead 0x0A).wf = false := by decide

/-! ## Decoding: T written out from WE, OFF and DATA (spec/30_encoding.md R111 to R113) -/

theorem test_decode_init : decode (0b1_00000100_00000000000000000000000000000001 : Transaction) = .ok .init := by decide
theorem test_decode_kexpEnc : decode (0b1_00000100_00000000000000000000000000000010 : Transaction) = .ok .kexpEnc := by
  decide
theorem test_decode_kexpDec : decode (0b1_00000100_00000000000000000000000000000011 : Transaction) = .ok .kexpDec := by
  decide
theorem test_decode_encBlock : decode (0b1_00000100_00000000000000000000000000000100 : Transaction) = .ok .encBlock := by
  decide
theorem test_decode_decBlock : decode (0b1_00000100_00000000000000000000000000000101 : Transaction) = .ok .decBlock := by
  decide
theorem test_decode_resetMode : decode (0b1_00000100_00000000000000000000000000000110 : Transaction) = .ok .resetMode := by
  decide
theorem test_decode_ecbEnc : decode (0b1_00000100_00000000000000000000000000010000 : Transaction) = .ok .ecbEnc := by
  decide
theorem test_decode_ecbDec : decode (0b1_00000100_00000000000000000000000000010001 : Transaction) = .ok .ecbDec := by
  decide
theorem test_decode_cbcEnc : decode (0b1_00000100_00000000000000000000000000010010 : Transaction) = .ok .cbcEnc := by
  decide
theorem test_decode_cbcDec : decode (0b1_00000100_00000000000000000000000000010011 : Transaction) = .ok .cbcDec := by
  decide
theorem test_decode_cfbEnc : decode (0b1_00000100_00000000000000000000000000010100 : Transaction) = .ok .cfbEnc := by
  decide
theorem test_decode_cfbDec : decode (0b1_00000100_00000000000000000000000000010101 : Transaction) = .ok .cfbDec := by
  decide
theorem test_decode_ofbCrypt : decode (0b1_00000100_00000000000000000000000000010110 : Transaction) = .ok .ofbCrypt := by
  decide
theorem test_decode_ctrCrypt : decode (0b1_00000100_00000000000000000000000000010111 : Transaction) = .ok .ctrCrypt := by
  decide
/-- RESET_MODE's opcode with RSV not 0 (V32). -/
theorem test_decode_cmdIllegal :
    decode (0b1_00000100_00000000000000000000000100000110 : Transaction) = .ok (.cmdIllegal 0x106) := by decide
/-- IV0 = 0xf3f2f1f0 (V30). -/
theorem test_decode_regWrite :
    decode (0b1_01100000_11110011111100101111000111110000 : Transaction) = .ok (.regWrite 0x60 0xf3f2f1f0) := by decide
/-- RD STATUS is 00800000000 (spec/30_encoding.md R122); a read's DATA is not looked at. -/
theorem test_decode_regRead :
    decode (0b0_00001000_00000000000000000000000000000000 : Transaction) = .ok (.regRead 0x08) ∧
    decode (0b0_00001000_10000000000000000000000000000001 : Transaction) = .ok (.regRead 0x08) := by decide
theorem test_decode_misaligned : decode (0b1_00000110_00000000000000000000000000000001 : Transaction) =
    .error .misalignedOffset := by decide

/-! ## Small states -/

/-- A result is a next state with the property. -/
def holds (o : Host.Outcome State Fault Refusal) (f : State → Bool) : Bool :=
  match o with
  | .next t => f t
  | .fault _ => false
  | .refused _ => false

/-- RK_E of KA (V10). -/
def encA : Context := { valid := true, nr := 10, rows := #v[
  blockOfHex 0x2b7e151628aed2a6abf7158809cf4f3c, blockOfHex 0xa0fafe1788542cb123a339392a6c7605,
  blockOfHex 0xf2c295f27a96b9435935807a7359f67f, blockOfHex 0x3d80477d4716fe3e1e237e446d7a883b,
  blockOfHex 0xef44a541a8525b7fb671253bdb0bad00, blockOfHex 0xd4d1c6f87c839d87caf2b8bc11f915bc,
  blockOfHex 0x6d88a37a110b3efddbf98641ca0093fd, blockOfHex 0x4e54f70e5f5fc9f384a64fb24ea6dc4f,
  blockOfHex 0xead27321b58dbad2312bf5607f8d292f, blockOfHex 0xac7766f319fadc2128d12941575c006e,
  blockOfHex 0xd014f9a8c9ee2589e13f0cc8b6630ca6, Block.zero, Block.zero, Block.zero, Block.zero] }

/-- RK_D of KA (V11). -/
def decA : Context := { valid := true, nr := 10, rows := #v[
  blockOfHex 0xd014f9a8c9ee2589e13f0cc8b6630ca6, blockOfHex 0x0c7b5a631319eafeb0398890664cfbb4,
  blockOfHex 0xdf7d925a1f62b09da320626ed6757324, blockOfHex 0x12c07647c01f22c7bc42d2f37555114a,
  blockOfHex 0x6efcd876d2df54807c5df034c917c3b9, blockOfHex 0x6ea30afcbc238cf6ae82a4b4b54a338d,
  blockOfHex 0x90884413d280860a12a128421bc89739, blockOfHex 0x7c1f13f74208c219c021ae480969bf7b,
  blockOfHex 0xcc7505eb3e17d1ee82296c51c9481133, blockOfHex 0x2b3708a7f262d405bc3ebdbf4b617d62,
  blockOfHex 0x2b7e151628aed2a6abf7158809cf4f3c, Block.zero, Block.zero, Block.zero, Block.zero] }

/-- KA in KEY0 to KEY3. -/
def keyA : KeyBytes := Vector.ofFn fun k => byteAt (blockOfHex 0x2b7e151628aed2a6abf7158809cf4f3c) k.val

/-- Idle, with both schedules of KA and `len` Bytes to go from 0x3000 to 0x4000. -/
def stA (len : Word) : State :=
  { State.reset with
    tablesReady := true, enc := encA, dec := decA, keyLen := 16, key := keyA
    len := len, src := 0x3000, dst := 0x4000 }

/-- `n` Bytes of the hex digits stored from 0x3000 on. -/
def load (v : BitVec 128) (n : Nat) : Memory :=
  (List.range n).foldl (fun m i => m.set (0x3000 + i) (byteAt (blockOfHex v) i)) []

/-- `n` Bytes from 0x4000 on, big-endian. -/
def stored (s : State) (n : Nat) : Nat :=
  (List.range n).foldl (fun x i => 256 * x + (s.mem.get (0x4000 + i)).toNat) 0

/-- The Block as a big-endian number, as the vectors write it. -/
def num (b : Block) : Nat := b.toList.foldl (fun n x => 256 * n + x.toNat) 0

/-! ## Tables and transforms -/

/-- V7. -/
theorem test_field : gfMul 0x57 0x83 = 0xc1 ∧ gfMul 0x57 0x13 = 0xfe ∧ xtime 0x57 = 0xae ∧ xtime 0x80 = 0x1b ∧
    gfMul 0x53 0xca = 0x01 := by decide +kernel
/-- V7. -/
theorem test_sbox : [0x00, 0x01, 0x10, 0x53, 0x7f, 0xca, 0xff].map sbox =
      [0x63, 0x7c, 0xca, 0xed, 0xd2, 0x74, 0x16] ∧
    [0x00, 0x01, 0x10, 0x53, 0x7f, 0xca, 0xff].map invSbox = [0x52, 0x09, 0x7c, 0x50, 0x6b, 0x10, 0x7d] := by
  decide +kernel
/-- V7. -/
theorem test_rcon : (List.range' 1 10).map rc = [0x01, 0x02, 0x04, 0x08, 0x10, 0x20, 0x40, 0x80, 0x1b, 0x36] := by
  decide +kernel
/-- V8, four columns at once. -/
theorem test_mixColumns : num (mixColumns (blockOfHex 0xdb135345f20a225cd4d4d4d52d26314c)) =
      0x8e4da1bc9fdc589dd5d5d7d64d7ebdf8 ∧
    num (invMixColumns (blockOfHex 0x8e4da1bc9fdc589dd5d5d7d64d7ebdf8)) = 0xdb135345f20a225cd4d4d4d52d26314c := by
  decide +kernel
/-- V9. -/
theorem test_shiftRows : num (shiftRows (blockOfHex 0x000102030405060708090a0b0c0d0e0f)) =
      0x00050a0f04090e03080d02070c01060b ∧
    num (invShiftRows (blockOfHex 0x000102030405060708090a0b0c0d0e0f)) = 0x000d0a0704010e0b0805020f0c090603 := by
  decide +kernel
/-- V12: the word w[12] of KC, the first word of the extra SubWord step. -/
theorem test_schedule_256_extra_subWord : (keyWords 8 14 (Vector.ofFn fun k =>
      byteAt (blockOfHex 0x603deb1015ca71be2b73aef0857d7781 ++ blockOfHex 0x1f352c073b6108d72d9810a30914dff4) k.val)).getD
        12 zeroWord = #v[0xa8, 0xb0, 0x9c, 0x1a] := by decide +kernel
/-- V12: the last word of KB's 192-bit schedule. -/
theorem test_schedule_192_last_word : (keyWords 6 12 (Vector.ofFn fun k =>
      byteAt (blockOfHex 0x8e73b0f7da0e6452c810f32b809079e5 ++ blockOfHex 0x62f8ead2522c6b7b0000000000000000) k.val)).getD
        51 zeroWord = #v[0x01, 0x00, 0x22, 0x02] := by decide +kernel
/-- V23. -/
theorem test_increments :
    num (inc0 (blockOfHex 0x00000000ffffffffffffffffffffffff)) = 0x00000001000000000000000000000000 ∧
    num (inc1 (blockOfHex 0x0001020304050607ffffffffffffffff)) = 0x00010203040506070000000000000000 ∧
    num (inc2 (blockOfHex 0xffffffffffffffffffffffffffffffff)) = 0xffffffffffffffffffffffff00000000 := by
  decide +kernel

/-! ## One step of each instruction -/

/-- RESET_MODE, INIT, then status bits: V32. -/
theorem test_init : holds (exec .init State.reset) (fun t => t.statusWord == 0x00010002) = true := by decide +kernel
theorem test_init_idempotent : holds (exec .init (stA 0)) (fun t => t.statusWord == 0x00070002) = true := by
  decide +kernel
theorem test_resetMode : holds (exec .resetMode { State.reset with offset := 5 })
    (fun t => t.offset == 0 && t.statusWord == 0x00000002) = true := by decide +kernel
/-- V10, with KEYLEN in bits (V13). -/
theorem test_kexpEnc : holds (exec .kexpEnc { stA 0 with enc := Context.empty, dec := Context.empty, keyLen := 128 })
    (fun t => t.enc == encA && t.schedWord == 0x0000000a) = true := by decide +kernel
/-- V32: UNINITIALIZED_TABLES before INVALID_KEY_LENGTH. -/
theorem test_kexpEnc_tables_first : holds (exec .kexpEnc { State.reset with keyLen := 20 })
    (fun t => t.statusWord == 0x00000306) = true := by decide +kernel
/-- V11. -/
theorem test_kexpDec : holds (exec .kexpDec { stA 0 with dec := Context.empty })
    (fun t => t.dec == decA) = true := by decide +kernel
/-- V32. -/
theorem test_kexpDec_bad_length : holds (exec .kexpDec { State.reset with tablesReady := true })
    (fun t => t.statusWord == 0x00010106) = true := by decide +kernel
/-- V14, first Block. -/
theorem test_encBlock : holds (exec .encBlock { stA 0 with bin := blockOfHex 0x6bc1bee22e409f96e93d7e117393172a })
    (fun t => num t.bout == 0x3ad77bb40d7a3660a89ecaf32466ef97) = true := by decide +kernel
/-- V32. -/
theorem test_encBlock_before_init : holds (exec .encBlock State.reset) (fun t => t.statusWord == 0x00000306) = true := by
  decide +kernel
/-- V14 backwards, first Block. -/
theorem test_decBlock : holds (exec .decBlock { stA 0 with bin := blockOfHex 0x3ad77bb40d7a3660a89ecaf32466ef97 })
    (fun t => num t.bout == 0x6bc1bee22e409f96e93d7e117393172a) = true := by decide +kernel
/-- V32. -/
theorem test_decBlock_no_schedule : holds (exec .decBlock { stA 0 with dec := Context.empty })
    (fun t => t.statusWord == 0x00030406) = true := by decide +kernel
/-- V14. -/
theorem test_ecbEnc : holds (exec .ecbEnc { stA 16 with mem := load 0x6bc1bee22e409f96e93d7e117393172a 16 })
    (fun t => stored t 16 == 0x3ad77bb40d7a3660a89ecaf32466ef97 && t.statusWord == 0x00070002) = true := by
  decide +kernel
/-- V32: NO_SCHEDULE before MISALIGNED_LENGTH. -/
theorem test_ecbEnc_schedule_first : holds (exec .ecbEnc { stA 17 with enc := Context.empty, dec := Context.empty })
    (fun t => t.statusWord == 0x00010406) = true := by decide +kernel
/-- V14. -/
theorem test_ecbDec : holds (exec .ecbDec { stA 16 with mem := load 0x3ad77bb40d7a3660a89ecaf32466ef97 16 })
    (fun t => stored t 16 == 0x6bc1bee22e409f96e93d7e117393172a) = true := by decide +kernel
/-- V15. -/
theorem test_cbcEnc : holds (exec .cbcEnc { stA 16 with
      mem := load 0x6bc1bee22e409f96e93d7e117393172a 16, iv := blockOfHex 0x000102030405060708090a0b0c0d0e0f })
    (fun t => stored t 16 == 0x7649abac8119b246cee98e9b12e9197d && num t.iv == 0x7649abac8119b246cee98e9b12e9197d) =
      true := by decide +kernel
/-- V27. -/
theorem test_cbcEnc_misaligned : holds (exec .cbcEnc (stA 17)) (fun t => t.statusWord == 0x00070206 && t.mem == []) =
    true := by decide +kernel
/-- V15 backwards; the end IV is the input Block. -/
theorem test_cbcDec : holds (exec .cbcDec { stA 16 with
      mem := load 0x7649abac8119b246cee98e9b12e9197d 16, iv := blockOfHex 0x000102030405060708090a0b0c0d0e0f })
    (fun t => stored t 16 == 0x6bc1bee22e409f96e93d7e117393172a && num t.iv == 0x7649abac8119b246cee98e9b12e9197d) =
      true := by decide +kernel
/-- V19: five Bytes, the feedback in IV, the keystream in KS. -/
theorem test_cfbEnc : holds (exec .cfbEnc { stA 5 with
      mem := load 0x6bc1bee22e409f96e93d7e117393172a 16, iv := blockOfHex 0x000102030405060708090a0b0c0d0e0f })
    (fun t => stored t 5 == 0x3b3fd92eb7 && num t.iv == 0x3b3fd92eb705060708090a0b0c0d0e0f &&
      num t.ks == 0x50fe67cc996d32b6da0937e99bafec60 && t.offset == 5) = true := by decide +kernel
/-- V20 continued as V19 does: the feedback is the input Byte, and OFFSET wraps to 0. -/
theorem test_cfbDec : holds (exec .cfbDec { stA 11 with
      mem := load 0x2dad20333449f8e83cfb4a0000000000 11, iv := blockOfHex 0x3b3fd92eb705060708090a0b0c0d0e0f
      ks := blockOfHex 0x50fe67cc996d32b6da0937e99bafec60, offset := 5 })
    (fun t => stored t 11 == 0x409f96e93d7e117393172a && num t.iv == 0x3b3fd92eb72dad20333449f8e83cfb4a &&
      t.offset == 0) = true := by decide +kernel
/-- V32: CFB_DEC needs the encryption context. -/
theorem test_cfbDec_needs_enc : holds (exec .cfbDec { stA 5 with enc := Context.empty })
    (fun t => t.statusWord == 0x00050406) = true := by decide +kernel
/-- V19: a load makes the keystream Block the IV. -/
theorem test_ofbCrypt : holds (exec .ofbCrypt { stA 5 with
      mem := load 0x6bc1bee22e409f96e93d7e117393172a 16, iv := blockOfHex 0x000102030405060708090a0b0c0d0e0f })
    (fun t => stored t 5 == 0x3b3fd92eb7 && num t.iv == 0x50fe67cc996d32b6da0937e99bafec60) = true := by
  decide +kernel
/-- V22: mid-Block, OFB uses the stored KS and leaves IV alone. -/
theorem test_ofbCrypt_mid_block : holds (exec .ofbCrypt { stA 11 with
      mem := load 0x409f96e93d7e117393172a0000000000 11, iv := blockOfHex 0x3b3fd92eb705060708090a0b0c0d0e0f
      ks := blockOfHex 0x50fe67cc996d32b6da0937e99bafec60, offset := 5 })
    (fun t => stored t 11 == 0x2dad20333449f8e83cfb4a && num t.iv == 0x3b3fd92eb705060708090a0b0c0d0e0f &&
      t.offset == 0) = true := by decide +kernel
/-- V19: no increment before the Block ends. -/
theorem test_ctrCrypt : holds (exec .ctrCrypt { stA 5 with
      mem := load 0x6bc1bee22e409f96e93d7e117393172a 16, iv := blockOfHex 0xf0f1f2f3f4f5f6f7f8f9fafbfcfdfeff })
    (fun t => stored t 5 == 0x874d6191b6 && num t.iv == 0xf0f1f2f3f4f5f6f7f8f9fafbfcfdfeff &&
      num t.ks == 0xec8cdf7398607cb0f2d21675ea9ea1e4) = true := by decide +kernel
/-- V19 and V18: the sixteenth Byte of a Block steps the counter. -/
theorem test_ctrCrypt_block_end : holds (exec .ctrCrypt { stA 11 with
      mem := load 0x409f96e93d7e117393172a0000000000 11, iv := blockOfHex 0xf0f1f2f3f4f5f6f7f8f9fafbfcfdfeff
      ks := blockOfHex 0xec8cdf7398607cb0f2d21675ea9ea1e4, offset := 5 })
    (fun t => stored t 11 == 0x20e3261bef6864990db6ce && num t.iv == 0xf0f1f2f3f4f5f6f7f8f9fafbfcfdff00 &&
      t.offset == 0) = true := by decide +kernel
/-- V32. -/
theorem test_cmdIllegal : holds (exec (.cmdIllegal 0x100) State.reset) (fun t => t.statusWord == 0x00000506) = true := by
  decide +kernel
/-- R272: a command while BUSY is dropped and sets WIGN. -/
theorem test_dropped_while_busy : holds (exec .init { stA 0 with phase := .run (stA 0).workingCopies })
    (fun t => t.wign && t.busy) = true := by decide +kernel
/-- V30: KEY1's lanes are Bytes 4 to 7. -/
theorem test_regWrite_lanes : holds (exec (.regWrite 0x44 0xa6d2ae28) State.reset)
    (fun t => (t.key.toList.take 9).drop 3 == [0, 0x28, 0xae, 0xd2, 0xa6, 0]) = true := by decide +kernel
/-- V31: a write of all ones to STATUS. -/
theorem test_regWrite_status : holds (exec (.regWrite 0x08 0xffffffff)
      { stA 0 with dec := Context.empty, done := true, errCode := .noSchedule, wign := true })
    (fun t => t.statusWord == 0x00030000) = true := by decide +kernel
/-- V31: CTRL's reserved bits. -/
theorem test_regRead_ctrl : holds (exec (.regRead 0x00) { State.reset with ie := true, ctrInc := 3 })
    (fun t => t.response == .data 0x00000031) = true := by decide +kernel
/-- V1: BOUT0. -/
theorem test_regRead_lanes : holds (exec (.regRead 0x90)
      { State.reset with bout := blockOfHex 0x66e94bd4ef8a2c3b884cfa59ca342b2e })
    (fun t => t.response == .data 0xd44be966) = true := by decide +kernel
/-- V35: the host's word, placed by withFetchWord, is the first instruction after reset. -/
theorem test_first_step_after_reset : holds (step (State.reset.withFetchWord 48 0x10400000004))
    (fun t => t.statusWord == 0x00000306 && t.inputs == []) = true := by decide +kernel
theorem test_decodeTableWord : decodeTableWord 48 0x10400000010 = some .ecbEnc ∧
    decodeTableWord 48 0x20400000010 = none := by decide

/-! ## Memory -/

/-- A stored 0 leaves no entry, so equal memories are equal lists. -/
theorem test_memory_canonical :
    (Memory.set (Memory.set [] 7 5) 7 0 = []) ∧ Memory.set (Memory.set [] 9 1) 3 2 = [(3, 2), (9, 1)] ∧
    Memory.wf [(3, 2), (9, 1)] = true ∧ Memory.wf [(9, 1), (3, 2)] = false ∧ Memory.wf [(3, 0)] = false := by decide

/-! ## The host's caches (spec/20_memory.md R97) and DMA that does not succeed (R91, spec/42_modes.md R222) -/

/-- A store waits in the caches of a host whose DMA is not coherent, and cleaning brings it to memory. -/
theorem test_store_waits_for_the_clean :
    (let s := { State.reset with platform := { Platform.default with dmaCoherent := false } }
     holds (serve (.store 0x10 7) s) (fun t => t.mem == [] && t.hostByte 0x10 == 7 &&
       holds (serve (.cacheClean 0 0x20) t) (fun u => u.mem == [(0x10, 7)] && u.hostDirty == []))) = true := by
  decide +kernel
/-- A DMA write takes the place of a waiting store, and the host must invalidate before it reads. -/
theorem test_dma_write_over_a_waiting_store :
    (let s := ({ State.reset with platform := { Platform.default with dmaCoherent := false }
                                  hostDirty := [(0x10, 7)] } : State).storeAll [(0x10, 9)]
     !holds (serve (.load 0x10) s) (fun _ => true) &&
       holds (serve (.cacheInvalidate 0x10 1) s) (fun t => holds (serve (.load 0x10) t)
         (fun u => u.response == .memory 9))) = true := by decide +kernel
/-- R91 (b): where input Byte 0 gets a bus error, no CBC_ENC output is ever written; CFB_DEC at OFFSET 0 may write Bytes 1
to 15 of its first keystream Block, and CBC_DEC Bytes 17 to 31, whose place in the Block before is not that of Byte 0. -/
theorem test_issuable :
    (let s := { stA 32 with platform := { Platform.default with memMap :=
        [{ base := 0x3000, size := 1, onRead := .busError, onWrite := .ordinary }] } }
     ((List.range 32).filter (s.issuable (cbcEncNeeds s)) == []) &&
     ((List.range 32).filter (s.issuable (cbcDecNeeds s)) == List.range' 17 15) &&
     ((List.range 32).filter (s.issuable (cfbDecNeeds s)) == List.range' 1 15) &&
     ((List.range 32).filter (s.issuable (ecbNeeds s)) == List.range' 16 16)) = true := by decide +kernel

/-- `stA` of one Byte, in and out, that Mem answers as `r` and `w`. -/
def oneByte (r w : Answer) : State :=
  { stA 1 with platform := { Platform.default with memMap :=
      [{ base := 0x3000, size := 1, onRead := r, onWrite := .ordinary },
       { base := 0x4000, size := 1, onRead := .ordinary, onWrite := w }] } }

/-- R91 (c): the read of the one input Byte comes before the write of the one output Byte, so what Mem would answer to that
write does not matter where the read fails. -/
theorem test_the_read_comes_first :
    holds (exec .ctrCrypt (oneByte .busError .never)) (fun t => t.statusWord == 0x00070606 && t.mem == []) = true ∧
    holds (exec .ctrCrypt (oneByte .never .busError)) (fun t => t.statusWord == 0x00070001 && t.complete == t) = true := by
  decide +kernel

/-! ## Witnesses: concrete states and operands that meet the hypotheses of the obligations -/

/-- `stA` with a host event next. -/
def withEvents (s : State) (es : List HostEvent) : State := { s with inputs := es }

/-- `stA` with a command in RUN: three more host events, one Byte to write. -/
def inRunA : State :=
  { stA 16 with phase := .run { (stA 16).workingCopies with left := 3, dma := true, writes := [(0x4000, 7)] } }

/-- `stA` with a platform whose first source Byte answers as `r` and whose second destination Byte as `w`. -/
def onPlatform (r w : Answer) : State :=
  { stA 16 with platform := { Platform.default with memMap :=
      [{ base := 0x3000, size := 1, onRead := r, onWrite := .ordinary },
       { base := 0x4001, size := 1, onRead := .ordinary, onWrite := w }] } }

/-- `stA` on a platform that is not coherent, with a store to the source range not cleaned. -/
def dirtyA : State :=
  { stA 16 with platform := { Platform.default with dmaCoherent := false }, hostDirty := [(0x300F, 1)] }

/-- InitSetsTablesReady, ResetModeClearsOffset, EncBlockEnciphersBin, DecBlockDeciphersBin,
RegWriteSetsTheWritableBits, IllegalWordCompletesWithCodeFive. -/
theorem witness_idle : (stA 16).busy = false ∧ (stA 16).tablesReady = true ∧ (stA 16).enc.valid = true ∧
    (stA 16).dec.valid = true := by decide +kernel

theorem witness_DecodeOfEncodeIsTheInstruction : (Instr.regWrite 0xFC 0xFFFFFFFF).wf = true ∧
    (Instr.cmdIllegal 0).wf = true ∧ (Instr.cmdIllegal 0xFFFFFFFF).wf = true ∧ (Instr.regRead 0x04).wf = true := by
  decide

theorem witness_EncodeOfDecodeIsTheTransaction :
    decode (0x00400000001 : Transaction) = .ok (.regRead 0x04) := by decide

theorem witness_DecodeTakesTheFirstMatchingRow : (0x10400000018 : Transaction).off.toNat % 4 = 0 ∧
    (0x1FC00000000 : Transaction).off.toNat % 4 = 0 := by decide

theorem witness_StepRunsTheDecodedInstruction :
    (withEvents inRunA [.transaction 0x10400000001]).inputs = .transaction 0x10400000001 :: [] ∧
      decode 0x10400000001 = .ok .init := ⟨rfl, by decide⟩

theorem witness_StepWithoutEventsCompletesOrWaits : inRunA.inputs = [] ∧
    (∃ job, inRunA.phase = .run job ∧ job.answers = true) ∧ (stA 16).inputs = [] ∧ (stA 16).busy = false :=
  ⟨rfl, ⟨_, rfl, rfl⟩, rfl, rfl⟩

theorem witness_PollingSeesTheCompletion :
    let s := withEvents inRunA (List.replicate 4 (.transaction 0x00800000000))
    ∃ job, s.phase = .run job ∧ job.answers = true ∧ job.left = 3 ∧
      s.inputs = List.replicate (job.left + 1) (.transaction 0x00800000000) ++ [] :=
  ⟨_, rfl, rfl, rfl, rfl⟩

theorem witness_WindowServesAlignedWordsOnly :
    (withEvents (stA 16) [.busAccess true 0xFC .word 1]).inputs =
      .busAccess true (256 * (stA 16).platform.regPage + 0xFC) .word 1 :: [] ∧ 0xFC < 256 ∧ 0xFC % 4 = 0 ∧
    decode (Transaction.mk true (BitVec.ofNat 8 0xFC) 1) = .ok (.regWrite 0xFC 1) ∧
    (withEvents (stA 16) [.busAccess false 0xFF .word 0]).inputs =
      .busAccess false (256 * (stA 16).platform.regPage + 0xFF) .word 0 :: [] ∧ 0xFF % 4 ≠ 0 ∧
    (withEvents (stA 16) [.busAccess false 0 .half 0]).inputs =
      .busAccess false (256 * (stA 16).platform.regPage + 0) .half 0 :: [] ∧ AccessSize.half ≠ .word :=
  ⟨rfl, by decide, by decide, by decide, rfl, by decide, rfl, by decide⟩

/-- KexpEncBuildsTheEncryptionSchedule and KexpDecBuildsTheDecryptionSchedule, each of the six lengths. -/
theorem witness_Kexp : ∀ p ∈ [((16 : Word), 4, 10), (128, 4, 10), (24, 6, 12), (192, 6, 12), (32, 8, 14), (256, 8, 14)],
    let s := { stA 0 with keyLen := p.1 }
    s.busy = false ∧ s.tablesReady = true ∧
    ((s.keyLen = 16 ∨ s.keyLen = 128) ∧ p.2.1 = 4 ∧ p.2.2 = 10 ∨ (s.keyLen = 24 ∨ s.keyLen = 192) ∧ p.2.1 = 6 ∧
      p.2.2 = 12 ∨ (s.keyLen = 32 ∨ s.keyLen = 256) ∧ p.2.1 = 8 ∧ p.2.2 = 14) := by decide +kernel

theorem witness_IllegalWordCompletesWithCodeFive : (Instr.cmdIllegal 0).wf = true ∧
    (Instr.cmdIllegal 0x18).wf = true ∧ (Instr.cmdIllegal 0x101).wf = true := by decide

theorem witness_UninitializedTablesComesFirst : Instr.ctrCrypt ∈ gatedCommands ∧ State.reset.busy = false ∧
    State.reset.tablesReady = false := by decide

theorem witness_InvalidKeyLengthFailsExpansion : ∀ k ∈ [(0 : Word), 20, 257],
    let s := { stA 0 with keyLen := k }
    s.busy = false ∧ s.tablesReady = true ∧ s.keyLen.toNat ∉ [16, 24, 32, 128, 192, 256] := by
  intro k hk
  fin_cases hk <;> exact ⟨rfl, rfl, by simp⟩

theorem witness_MissingScheduleFailsCommand :
    let s := { stA 17 with enc := Context.empty }
    Instr.cfbDec ∈ [Instr.encBlock, .decBlock] ++ modeCommands ∧ s.busy = false ∧ s.tablesReady = true ∧
      (contextOf .cfbDec s).valid = false := by decide +kernel

theorem witness_MisalignedLengthFailsBlockModes : Instr.cbcDec ∈ blockCommands ∧ (stA 17).busy = false ∧
    (stA 17).tablesReady = true ∧ (contextOf .cbcDec (stA 17)).valid = true ∧ (stA 17).len.toNat % 16 ≠ 0 := by
  decide +kernel

theorem dmaReady_stA16 : DmaReady (stA 16) where
  memory := rfl
  overlap := .inr (by decide +kernel)
  visible := .inl rfl
  memoryOnly := by unfold ReachesDevice; decide +kernel
  answers := fun _ _ => ⟨rfl, rfl⟩

/-- EcbWritesEachBlockThroughTheCipher, CbcEncChainsTheOutputBlocks, CbcDecChainsTheInputBlocks, CfbFollowsItsLoops,
OfbFollowsItsLoop; with witness_CommandsMayBeSplit, CommandsMayBeSplit. -/
theorem witness_DmaReady_Accepts : DmaReady (stA 16) ∧ ∀ i ∈ modeCommands, Accepts i (stA 16) :=
  ⟨dmaReady_stA16, fun i hi => by fin_cases hi <;> exact ⟨rfl, rfl, rfl, fun _ => rfl⟩⟩

/-- The same in place. -/
theorem witness_in_place : DmaReady { stA 16 with dst := 0x3000 } where
  memory := rfl
  overlap := .inl rfl
  visible := .inl rfl
  memoryOnly := by unfold ReachesDevice; decide +kernel
  answers := fun _ _ => ⟨rfl, rfl⟩

/-- The same on a platform whose DMA is not coherent, a host store to the destination range waiting in the caches. -/
theorem witness_waiting_store : DmaReady { stA 16 with
    platform := { Platform.default with dmaCoherent := false }, hostDirty := [(0x4000, 1)] } where
  memory := rfl
  overlap := .inr (by decide +kernel)
  visible := .inr fun d hd => by
    rw [List.mem_singleton.1 hd]
    decide +kernel
  memoryOnly := by unfold ReachesDevice; decide +kernel
  answers := fun _ _ => ⟨rfl, rfl⟩

theorem witness_CtrFollowsItsLoop : ∀ c : BitVec 2, ∃ inc, DmaReady { stA 16 with ctrInc := c } ∧
    Accepts .ctrCrypt { stA 16 with ctrInc := c } ∧
    (c = 0 ∧ inc = inc0 ∨ c = 1 ∧ inc = inc1 ∨ c = 2 ∧ inc = inc2 ∨ c = 3 ∧ inc = Config.extInc) := by
  intro c
  have h : c = 0 ∨ c = 1 ∨ c = 2 ∨ c = 3 := by revert c; decide
  have hd : ∀ c, DmaReady { stA 16 with ctrInc := c } := fun c => ⟨rfl, dmaReady_stA16.overlap, .inl rfl,
    dmaReady_stA16.memoryOnly, fun _ _ => ⟨rfl, rfl⟩⟩
  have ha : ∀ c, Accepts .ctrCrypt { stA 16 with ctrInc := c } := fun c => ⟨rfl, rfl, rfl, fun h => absurd h (by decide)⟩
  rcases h with h | h | h | h
  · exact ⟨inc0, hd c, ha c, .inl ⟨h, rfl⟩⟩
  · exact ⟨inc1, hd c, ha c, .inr (.inl ⟨h, rfl⟩)⟩
  · exact ⟨inc2, hd c, ha c, .inr (.inr (.inl ⟨h, rfl⟩))⟩
  · exact ⟨Config.extInc, hd c, ha c, .inr (.inr (.inr ⟨h, rfl⟩))⟩

theorem witness_ZeroLengthChangesNothing : (stA 0).len = 0 ∧ ∀ i ∈ modeCommands, Accepts i (stA 0) :=
  ⟨rfl, fun i hi => by fin_cases hi <;> exact ⟨rfl, rfl, rfl, fun _ => rfl⟩⟩

/-- The bounds of k: 0, LEN, and one inside for a stream command. -/
theorem witness_CommandsMayBeSplit : 0 ≤ (stA 16).len.toNat ∧ 16 ≤ (stA 16).len.toNat ∧ 5 ≤ (stA 16).len.toNat ∧
    (Instr.cbcEnc ∈ blockCommands → 16 % 16 = 0) ∧ (Instr.ctrCrypt ∈ blockCommands → 5 % 16 = 0) := by decide +kernel

theorem witness_CtrKeystreamIsIndependentOfTheInput : [(1 : Byte), 2].length = [(3 : Byte), 4].length := rfl

theorem witness_PartialOverlapFaults : ¬ NoPartialOverlap { stA 16 with dst := 0x300F } ∧
    ¬ NoPartialOverlap { stA 16 with src := 0xFFFFFFFF, dst := 0 } ∧ Accepts .ecbEnc { stA 16 with dst := 0x300F } := by
  refine ⟨?_, ?_, rfl, rfl, rfl, fun _ => rfl⟩
  · rintro (h | h)
    · exact absurd h (by decide +kernel)
    · exact h 15 (by decide +kernel) 0 (by decide +kernel) (by decide +kernel)
  · rintro (h | h)
    · exact absurd h (by decide +kernel)
    · exact h 1 (by decide +kernel) 0 (by decide +kernel) (by decide +kernel)

theorem witness_BrokenCacheDutyFaults_command : ¬ StoresVisible dirtyA ∧ NoPartialOverlap dirtyA ∧ Accepts .ofbCrypt dirtyA := by
  refine ⟨?_, .inr (by decide +kernel), rfl, rfl, rfl, fun _ => rfl⟩
  rintro (h | h)
  · exact absurd h (by decide +kernel)
  · exact h (0x300F, 1) (by decide +kernel) 15 (by decide +kernel) (by decide +kernel)

theorem witness_BrokenCacheDutyFaults_load :
    let s := { inRunA with platform := { Platform.default with dmaCoherent := false }, hostStale := [0x400F, 0x4010] }
    (0x4010 ∈ s.hostStale ∧ ∀ job, s.phase = .run job → job.dma = true → ∀ i < s.len.toNat,
      (0x4010 : Word) ≠ s.dst + BitVec.ofNat 32 i) ∧
    let t := { s with phase := .idle }
    0x400F ∈ t.hostStale ∧ ∀ job, t.phase = .run job → job.dma = true → ∀ i < t.len.toNat,
      (0x400F : Word) ≠ t.dst + BitVec.ofNat 32 i :=
  ⟨⟨by decide, fun _ _ _ => by decide +kernel⟩, by decide, fun _ h => by cases h⟩

/-- `stA` with a device at one address: `r` to reads, `w` to writes. -/
def deviceAt (base : Nat) (r w : Answer) : State :=
  { stA 16 with platform := { Platform.default with memMap := [{ base := base, size := 1, onRead := r, onWrite := w }] } }

/-- A device to reads or to writes, in the source range or in the destination range. -/
theorem witness_DeviceRangeIsRefused : ReachesDevice (deviceAt 0x3000 .device .ordinary) ∧
    ReachesDevice (deviceAt 0x300F .ordinary .device) ∧ ReachesDevice (deviceAt 0x4000 .ordinary .device) ∧
    ReachesDevice (deviceAt 0x400F .device .ordinary) ∧ NoPartialOverlap (deviceAt 0x400F .device .ordinary) ∧
    StoresVisible (deviceAt 0x400F .device .ordinary) ∧ Accepts .ctrCrypt (deviceAt 0x400F .device .ordinary) :=
  ⟨by unfold ReachesDevice; decide +kernel, by unfold ReachesDevice; decide +kernel,
    by unfold ReachesDevice; decide +kernel, by unfold ReachesDevice; decide +kernel, .inr (by decide +kernel), .inl rfl,
    rfl, rfl, rfl, fun _ => rfl⟩

/-- R91 (c) rules the missing answer of the write out, behind the read that gets a bus error; and the other way round. -/
theorem witness_order_of_answers :
    (∀ i ∈ [Instr.cfbEnc, .cfbDec, .ofbCrypt, .ctrCrypt], ¬ CanMeet i (oneByte .busError .never) .never ∧
      ¬ CanMeet i (oneByte .never .busError) .busError) ∧
    Meets (oneByte .busError .never) .busError ∧ Meets (oneByte .busError .never) .never ∧
    Meets (oneByte .never .busError) .never ∧ ¬ ReachesDevice (oneByte .busError .never) ∧
    NoPartialOverlap (oneByte .busError .never) ∧ StoresVisible (oneByte .busError .never) ∧
    (oneByte .busError .never).mem.wf = true ∧ Accepts .ctrCrypt (oneByte .busError .never) := by
  refine ⟨fun i hi => ?_, ⟨0, by decide +kernel, .inl (by decide +kernel)⟩, ⟨0, by decide +kernel, .inr (by decide +kernel)⟩,
    ⟨0, by decide +kernel, .inl (by decide +kernel)⟩, by unfold ReachesDevice; decide +kernel, .inr (by decide +kernel),
    .inl rfl, rfl, rfl, rfl, rfl, fun h => absurd h (by decide)⟩
  unfold CanMeet SameUnit
  revert i
  decide +kernel

/-- In a block mode whose first Byte is not answered and whose second write is refused, the unit's reads come first; where
the write refused is of another unit, the command can meet both. -/
theorem witness_mixed_answers : Meets (onPlatform .never .busError) .busError ∧ Meets (onPlatform .never .busError) .never ∧
    ¬ ReachesDevice (onPlatform .never .busError) ∧ NoPartialOverlap (onPlatform .never .busError) ∧
    StoresVisible (onPlatform .never .busError) ∧ (onPlatform .never .busError).mem.wf = true ∧
    Accepts .cbcEnc (onPlatform .never .busError) ∧ ¬ CanMeet .cbcEnc (onPlatform .never .busError) .busError ∧
    CanMeet .ctrCrypt (onPlatform .never .busError) .busError :=
  ⟨⟨1, by decide +kernel, .inr (by decide +kernel)⟩, ⟨0, by decide +kernel, .inl (by decide +kernel)⟩,
    by unfold ReachesDevice; decide +kernel, .inr (by decide +kernel), .inl rfl, rfl, ⟨rfl, rfl, rfl, fun _ => rfl⟩,
    by unfold CanMeet SameUnit; decide +kernel, by unfold CanMeet SameUnit; decide +kernel⟩

theorem witness_BusErrorKeepsTheRegisters : Meets (onPlatform .busError .busError) .busError ∧
    ¬ ReachesDevice (onPlatform .busError .busError) ∧ ¬ CanMeet .cbcEnc (onPlatform .busError .busError) .never ∧
    NoPartialOverlap (onPlatform .busError .busError) ∧ StoresVisible (onPlatform .busError .busError) ∧
    (onPlatform .busError .busError).mem.wf = true ∧ Accepts .cbcEnc (onPlatform .busError .busError) :=
  ⟨⟨0, by decide +kernel, .inl (by decide +kernel)⟩, by unfold ReachesDevice; decide +kernel,
    by unfold CanMeet SameUnit; decide +kernel, .inr (by decide +kernel), .inl rfl, rfl, rfl, rfl, rfl, fun _ => rfl⟩

theorem witness_UnansweredCommandEntersRun : Meets (onPlatform .never .ordinary) .never ∧
    ¬ ReachesDevice (onPlatform .never .ordinary) ∧ ¬ CanMeet .cfbDec (onPlatform .never .ordinary) .busError ∧
    NoPartialOverlap (onPlatform .never .ordinary) ∧ StoresVisible (onPlatform .never .ordinary) ∧
    Accepts .cfbDec (onPlatform .never .ordinary) :=
  ⟨⟨0, by decide +kernel, .inl (by decide +kernel)⟩, by unfold ReachesDevice; decide +kernel,
    by unfold CanMeet SameUnit; decide +kernel, .inr (by decide +kernel), .inl rfl, rfl, rfl, rfl, fun _ => rfl⟩

/-- The second clause's hypotheses are those of BusErrorKeepsTheRegisters, with a word at the head of the queue and an
empty tape; the third's are met by an idle machine. -/
theorem witness_ClaimStepFaultsOnBusErrorCompletion :
    (∃ job, ({ stA 16 with phase := .run { (stA 16).workingCopies with error := .busError } } : State).phase = .run job ∧
      job.answers = true ∧ job.error = .busError ∧ job.left = 0) ∧
    (withEvents (onPlatform .busError .busError) [.transaction (encode .cbcEnc)]).inputs =
      .transaction (encode .cbcEnc) :: [] ∧ (onPlatform .busError .busError).stall.headD 0 = 0 ∧
    ∃ t, Safety.claimStep State.reset = .next t := ⟨⟨_, rfl, rfl, rfl, rfl⟩, rfl, rfl, _, rfl⟩

theorem witness_UnansweredCommandStaysInRun :
    let s := { stA 16 with phase := .run { (stA 16).workingCopies with answers := false } }
    (∃ job, s.phase = .run job ∧ job.answers = false) ∧ s.inputs.head? ≠ some .reset ∧ ∃ t, step s = .next t :=
  ⟨⟨_, rfl, rfl⟩, by decide +kernel, _, rfl⟩

theorem witness_LoadOfDestinationOrStoreToARangeInRunFaults : (∃ job, inRunA.phase = .run job ∧ job.dma = true) ∧
    0 < inRunA.len.toNat ∧ 15 < inRunA.len.toNat := ⟨⟨_, rfl, rfl⟩, by decide +kernel⟩

theorem witness_WritesInRunAreDropped : inRunA.busy = true ∧ (0x00 : BitVec 8).toNat % 4 = 0 ∧ (0x00 : BitVec 8) ≠ 0x08 ∧
    (0xFC : BitVec 8).toNat % 4 = 0 ∧ (0xFC : BitVec 8) ≠ 0x08 := by decide +kernel

theorem witness_ReadsInRunGiveTheAcceptanceValues :
    let s := { stA 16 with stall := [1] }
    Instr.init.wf = true ∧ s.busy = false ∧ ∃ t, exec .init s = .next t ∧ t.busy = true := ⟨rfl, rfl, _, rfl, rfl⟩

/-- The later steps in RUN: an event while some are left, and one, or none, while Mem gives no answer. -/
theorem witness_ReadsInRunGiveTheAcceptanceValues_later :
    let s := withEvents inRunA [.transaction 0x00800000000]
    let u := { stA 16 with phase := .run { (stA 16).workingCopies with answers := false } }
    (∃ job, s.phase = .run job ∧ job.left ≠ 0) ∧ s.inputs ≠ [] ∧ s.inputs.head? ≠ some .reset ∧ (∃ t, step s = .next t) ∧
    s.done = false ∧ s.errCode = .none ∧
    (∃ job, u.phase = .run job ∧ job.answers = false) ∧ u.inputs.head? ≠ some .reset ∧ ∃ t, step u = .next t :=
  ⟨⟨_, rfl, by decide⟩, by simp [withEvents], by simp [withEvents], ⟨_, rfl⟩, rfl, rfl, ⟨_, rfl, rfl⟩, by decide +kernel,
    _, rfl⟩

/-- RegReadAnswersTheRegister, RegWriteSetsTheWritableBits, ResetRegistersReadZero: the ends of the reserved ranges and
of each group of lanes. -/
theorem witness_RegAccess : ∀ o ∈ [(0x24 : BitVec 8), 0x3C, 0x40, 0x5C, 0x60, 0x6C, 0x70, 0x7C, 0x80, 0x8C, 0x90, 0x9C,
      0xA0, 0xFC], o.toNat % 4 = 0 ∧
    regAt o = if o.toNat < 0x40 then .reserved else if o.toNat < 0x60 then .key (Fin.ofNat 8 (o.toNat / 4))
      else if o.toNat < 0x70 then .iv (Fin.ofNat 4 (o.toNat / 4)) else if o.toNat < 0x80 then .ks (Fin.ofNat 4 (o.toNat / 4))
      else if o.toNat < 0x90 then .bin (Fin.ofNat 4 (o.toNat / 4))
      else if o.toNat < 0xA0 then .bout (Fin.ofNat 4 (o.toNat / 4)) else .reserved := by decide +kernel

theorem witness_ReadAfterWrite : ∀ o ∈ [(0x00 : BitVec 8), 0x10, 0x20, 0x60, 0x8C], o.toNat % 4 = 0 ∧
    (o.toNat < 0x24 ∧ o ≠ 0x04 ∧ o ≠ 0x08 ∧ o ≠ 0x0C ∨ 0x60 ≤ o.toNat ∧ o.toNat < 0x90) := by decide

theorem witness_ResetInputClearsTheRegisters : inRunA.mem.wf = true ∧ (∃ job, inRunA.phase = .run job) ∧
    (stA 16).mem.wf = true ∧ (stA 16).busy = false := ⟨rfl, ⟨_, rfl⟩, rfl, rfl⟩

theorem witness_InterruptFollowsCompletion : (commandWord .init).isSome = true ∧ (stA 16).busy = false ∧
    (∃ t, exec .init (stA 16) = .next t ∧ t.busy = false) ∧
    (∃ t job, exec .init { stA 16 with stall := [1] } = .next t ∧ t.busy = true ∧ t.phase = .run job ∧
      job.answers = true) ∧
    ((0x2 : Word).getLsbD 1 = true ∧ ∃ t, exec (.regWrite 0x08 0x2) (stA 16) = .next t) :=
  ⟨rfl, rfl, ⟨_, rfl, rfl⟩, ⟨_, _, rfl, rfl, rfl, rfl⟩, by decide, _, rfl⟩

theorem inv_reset : Inv State.reset where
  memory := rfl
  encOk := .inl ⟨rfl, rfl⟩
  decOk := .inl ⟨rfl, rfl⟩
  tables := by rintro (h | h) <;> cases h
  noErrorUndone := fun _ => rfl
  caches := fun _ => ⟨rfl, rfl⟩
  job := fun _ h => by cases h

theorem witness_StepKeepsTheInvariant : Inv State.reset ∧ State.reset.inputs.head? ≠ some .reset ∧
    ∃ t, step State.reset = .next t := ⟨inv_reset, by decide, _, rfl⟩

theorem inv_inRunA : Inv inRunA := by
  have he : contextOk encA := .inr ⟨rfl, .inl rfl, fun r hr => by
    have h : (10 : Nat) < r.val := hr
    fin_cases r <;> first | rfl | simp at h⟩
  have hd : contextOk decA := .inr ⟨rfl, .inl rfl, fun r hr => by
    have h : (10 : Nat) < r.val := hr
    fin_cases r <;> first | rfl | simp at h⟩
  refine ⟨rfl, he, hd, fun _ => rfl, fun _ => rfl, fun _ => ⟨rfl, rfl⟩, fun job h => ?_⟩
  injection h with h
  subst h
  refine ⟨rfl, he, hd, fun _ => rfl, fun _ => rfl, fun _ => rfl, fun _ => rfl, fun w hw => ?_⟩
  rw [List.mem_singleton.1 hw]
  exact ⟨rfl, by decide +kernel⟩

theorem witness_ReadinessFallsOnlyAtReset : Inv inRunA ∧ inRunA.inputs.head? ≠ some .reset ∧
    (∃ t, step inRunA = .next t) ∧ inRunA.tablesReady = true ∧ inRunA.enc.valid = true ∧ inRunA.dec.valid = true :=
  ⟨inv_inRunA, by decide +kernel, ⟨_, rfl⟩, rfl, rfl, rfl⟩

/-- OnlyKeyExpansionChangesASchedule and OnlyModeCommandsChangeMemory. -/
theorem witness_OnlyKeyExpansion_OnlyModeCommands : Instr.init.wf = true ∧ (stA 16).busy = false ∧
    Instr.init ∉ modeCommands ∧ ∃ t, exec .init (stA 16) = .next t := ⟨rfl, rfl, by decide, _, rfl⟩

/-- DecryptionInvertsEncryption and CbcDecInvertsCbcEnc: both contexts of one key, for each key length, and a whole
number of Blocks. -/
theorem witness_DecryptionInvertsEncryption : ∀ p ∈ [(4, 10), (6, 12), (8, 14)], ∃ s : State,
    s.enc = encContext p s.key ∧ s.dec = decContext p s.key ∧ (List.replicate 32 (5 : Byte)).length % 16 = 0 :=
  fun p _ => ⟨{ stA 0 with enc := encContext p keyA, dec := decContext p keyA }, rfl, rfl, rfl⟩

/-- SboxIsTheAffineImageOfTheInverse, RowAndColumnTransformsFollowTheirMatrices, CiphersFollowTheirRounds. -/
theorem witness_ciphers : (0xFF : Byte) ≠ 0 ∧ 3 < 4 ∧ 10 ∈ [10, 12, 14] ∧ 14 ∈ [10, 12, 14] := by decide

end Sys2Proof.Tests
end

/-! PROOF. What a command's result does to the two contexts and to TABLES_READY, said once for every command; that only
key expansion changes a schedule (spec/10_state.md R50). -/

namespace Sys2Proof.Proofs

open Sys2Proof.Machine Sys2Proof.Claims Sys2Proof.Laws

/-- However its DMA ends, a mode command carries the contexts and TABLES_READY through unchanged. -/
theorem dmaEffect_contexts {mode needs} {s : State} {job : Job} (h : dmaEffect mode needs s = .next job) :
    job.enc = s.enc ∧ job.dec = s.dec ∧ job.tablesReady = s.tablesReady := by
  obtain ⟨-, -, -, ⟨rfl, -, -⟩ | ⟨rfl, -⟩ | ⟨rfl, -⟩⟩ := dmaEffect_cases h <;> exact ⟨rfl, rfl, rfl⟩

/-- Everything a command's rule can give: the end of a mode rule's DMA, an expanded key as one of the contexts, or the
working copies with other values in OFFSET and BOUT and no lower TABLES_READY. -/
theorem effectOf_cases {i : Instr} {s : State} {job : Job} (h : effectOf i s = .next job) :
    (∃ mode, modeOf i = some mode ∧ dmaEffect mode (needsOf i) s = .next job) ∨
    (i = .kexpEnc ∧ job = { s.workingCopies with enc := encContext s.keyLenParams s.key }) ∨
    (i = .kexpDec ∧ job = { s.workingCopies with dec := decContext s.keyLenParams s.key }) ∨
    ∃ ready off out, (s.tablesReady = true → ready = true) ∧
      job = { s.workingCopies with tablesReady := ready, offset := off, bout := out } := by
  cases hm : modeOf i with
  | some mode => exact .inl ⟨mode, rfl, effectOf_mode hm s ▸ h⟩
  | none =>
    cases i with
    | kexpEnc => cases h; exact .inr (.inl ⟨rfl, rfl⟩)
    | kexpDec => cases h; exact .inr (.inr (.inl ⟨rfl, rfl⟩))
    | init => cases h; exact .inr (.inr (.inr ⟨true, s.offset, s.bout, fun _ => rfl, rfl⟩))
    | resetMode => cases h; exact .inr (.inr (.inr ⟨s.tablesReady, 0, s.bout, id, rfl⟩))
    | _ => cases hm <;> cases h <;> exact .inr (.inr (.inr ⟨s.tablesReady, s.offset, _, id, rfl⟩))

/-- Only KEXP_ENC gives a job another encryption context. -/
theorem effectOf_enc {i : Instr} {s : State} {job : Job} (h : effectOf i s = .next job) (hi : i ≠ .kexpEnc) :
    job.enc = s.enc := by
  obtain ⟨mode, -, hd⟩ | ⟨rfl, -⟩ | ⟨-, rfl⟩ | ⟨ready, off, out, -, rfl⟩ := effectOf_cases h
  · exact (dmaEffect_contexts hd).1
  · exact absurd rfl hi
  · rfl
  · rfl

/-- Only KEXP_DEC gives a job another decryption context. -/
theorem effectOf_dec {i : Instr} {s : State} {job : Job} (h : effectOf i s = .next job) (hi : i ≠ .kexpDec) :
    job.dec = s.dec := by
  obtain ⟨mode, -, hd⟩ | ⟨-, rfl⟩ | ⟨rfl, -⟩ | ⟨ready, off, out, -, rfl⟩ := effectOf_cases h
  · exact (dmaEffect_contexts hd).2.1
  · rfl
  · exact absurd rfl hi
  · rfl

/-- No command clears TABLES_READY. -/
theorem effectOf_tablesReady {i : Instr} {s : State} {job : Job} (h : effectOf i s = .next job)
    (hs : s.tablesReady = true) : job.tablesReady = true := by
  obtain ⟨mode, -, hd⟩ | ⟨-, rfl⟩ | ⟨-, rfl⟩ | ⟨ready, off, out, hready, rfl⟩ := effectOf_cases h
  · exact (dmaEffect_contexts hd).2.2.trans hs
  · exact hs
  · exact hs
  · exact hready hs

/-- Completion leaves the contexts, or takes those of the job (spec/60_exceptions.md R301). -/
theorem finish_contexts (s : State) (job : Job) :
    ((s.finish job).enc = s.enc ∨ (s.finish job).enc = job.enc) ∧
      ((s.finish job).dec = s.dec ∨ (s.finish job).dec = job.dec) := by
  by_cases he : job.error = .none
  · rw [finish_none s job he]; exact ⟨.inr rfl, .inr rfl⟩
  · rw [finish_error s job he]; exact ⟨.inl rfl, .inl rfl⟩

/-- The contexts after a launched command completes, or waits for an answer that never comes. -/
theorem launch_complete_contexts (s : State) (job : Job) :
    ((s.launch job).complete.enc = s.enc ∨ (s.launch job).complete.enc = job.enc) ∧
      ((s.launch job).complete.dec = s.dec ∨ (s.launch job).complete.dec = job.dec) := by
  cases ha : job.answers with
  | true => rw [launch_complete s job ha]; exact finish_contexts _ job
  | false =>
    have hl : s.launch job = inRun s job := by rw [launch_eq, inRun_unanswered s job ha, ite_self]
    rw [hl, inRun_unanswered s job ha]
    exact ⟨.inl rfl, .inl rfl⟩

/-- Settles O52: an instruction reads, writes a register, or launches a job, and only a key expansion's job has another
context. -/
theorem onlyKeyExpansionChangesASchedule : Obligations.OnlyKeyExpansionChangesASchedule := by
  intro s t i hw hb h
  have hidle := idle_of_not_busy hb
  obtain ⟨off, -, rfl⟩ | ⟨off, v, -, hwrite⟩ | ⟨w, -, hcmd⟩ := exec_cases hw h
  · rw [complete_of_idle (by exact hidle)]; exact ⟨fun _ => rfl, fun _ => rfl⟩
  · obtain ⟨-, rfl⟩ | ⟨-, hbusy, -⟩ | ⟨-, -, rfl⟩ := hwrite
    · rw [writeStatus_eq, complete_of_idle (by exact hidle)]; exact ⟨fun _ => rfl, fun _ => rfl⟩
    · simp [hb] at hbusy
    · obtain ⟨-, henc, hdec, -, hphase, -⟩ := writeReg_frame s v (regAt off)
      rw [complete_of_idle (hphase.trans hidle)]
      exact ⟨fun _ => henc, fun _ => hdec⟩
  · obtain ⟨hbusy, -⟩ | ⟨-, job, rfl, hjob⟩ := hcmd
    · simp [hb] at hbusy
    · obtain ⟨henc, hdec⟩ := launch_complete_contexts (s.accept w) job
      obtain ⟨-, heff⟩ | ⟨e, -, -, rfl⟩ := hjob
      · exact ⟨fun hi => henc.elim id (·.trans (effectOf_enc (s := s.accept w) heff hi)),
          fun hi => hdec.elim id (·.trans (effectOf_dec (s := s.accept w) heff hi))⟩
      · exact ⟨fun _ => henc.elim id id, fun _ => hdec.elim id id⟩

end Sys2Proof.Proofs

/-! PROOF. The invariant `Safety.Inv` holds after reset and every step keeps it: what it looks at, acceptance and launch of
a command, completion, the host events. -/

namespace Sys2Proof.Proofs

open Sys2Proof.Machine Sys2Proof.Claims Sys2Proof.Safety Sys2Proof.Laws

/-! ## What the invariant looks at -/

theorem contextOk_empty : contextOk Context.empty := .inl ⟨rfl, rfl⟩

/-- A sound command stays sound where the state keeps the readiness bits and the destination range and DONE does not
rise. -/
theorem jobOk_of_same {s t : State} {job : Job} (h : JobOk s job) (hdone : s.done = false → t.done = false)
    (htables : t.tablesReady = s.tablesReady) (henc : t.enc = s.enc) (hdec : t.dec = s.dec)
    (hrange : t.dst = s.dst ∧ t.len = s.len) : JobOk t job where
  notDone := hdone h.notDone
  encOk := h.encOk
  decOk := h.decOk
  tables := h.tables
  tablesStay := by rw [htables]; exact h.tablesStay
  encStays := by rw [henc]; exact h.encStays
  decStays := by rw [hdec]; exact h.decStays
  writesDst := by rw [hrange.1, hrange.2]; exact h.writesDst

/-- How many events a command waits for does not matter to its soundness. -/
theorem jobOk_left {s : State} {job : Job} (h : JobOk s job) (n : Nat) : JobOk s { job with left := n } :=
  ⟨h.notDone, h.encOk, h.decOk, h.tables, h.tablesStay, h.encStays, h.decStays, h.writesDst⟩

/-- `t` has the readiness, the contexts and PHASE of `s`, the destination range where a command runs, and a STATUS no
higher: all the invariant says of the registers. -/
structure SameRegisters (s t : State) : Prop where
  enc : t.enc = s.enc
  dec : t.dec = s.dec
  tables : t.tablesReady = s.tablesReady
  phase : t.phase = s.phase
  range : s.phase ≠ .idle → t.dst = s.dst ∧ t.len = s.len
  done : s.done = false → t.done = false
  code : (s.done = false → s.errCode = .none) → t.done = false → t.errCode = .none

/-- Memory, the platform, the host's side and WIGN are none of these registers. -/
theorem sameRegisters_surroundings (s : State) (m : Memory) (p : Platform) (d : List (Word × Byte)) (c : List Word)
    (q : List HostEvent) (n : Nat) (r : Response) (w : Bool) :
    SameRegisters s { s with
      mem := m, platform := p, hostDirty := d, hostStale := c
      inputs := q, freeCount := n, response := r, wign := w } :=
  ⟨rfl, rfl, rfl, rfl, fun _ => ⟨rfl, rfl⟩, id, id⟩

/-- A change of memory, of the host's caches and of registers the invariant does not look at keeps it. -/
theorem inv_of_sameRegisters {s t : State} (h : Inv s) (hr : SameRegisters s t) (hmem : t.mem.wf = true)
    (hcaches : t.platform.dmaCoherent = true → t.hostDirty = [] ∧ t.hostStale = []) : Inv t where
  memory := hmem
  encOk := hr.enc ▸ h.encOk
  decOk := hr.dec ▸ h.decOk
  tables := by rw [hr.enc, hr.dec, hr.tables]; exact h.tables
  noErrorUndone := hr.code h.noErrorUndone
  caches := hcaches
  job := fun job hp => by
    have hs : s.phase = .run job := hr.phase ▸ hp
    exact jobOk_of_same (h.job job hs) hr.done hr.tables hr.enc hr.dec (hr.range (by simp [hs]))

/-- DMA writes keep what the invariant says of memory and of the host's caches. -/
theorem storeAll_caches {s : State} (h : Inv s) (ws : List (Word × Byte)) (hc : s.platform.dmaCoherent = true) :
    (s.storeAll ws).hostDirty = [] ∧ (s.storeAll ws).hostStale = [] := by
  simpa [hc] using h.caches hc

/-- The state after reset has the invariant, over any memory in canonical form and caches with nothing in them where DMA
is coherent. -/
theorem inv_of_reset {t : State} (hmem : t.mem.wf = true)
    (hcaches : t.platform.dmaCoherent = true → t.hostDirty = [] ∧ t.hostStale = [])
    (hreg : t.enc = Context.empty ∧ t.dec = Context.empty ∧ t.errCode = .none ∧ t.phase = .idle) : Inv t := by
  obtain ⟨henc, hdec, hcode, hphase⟩ := hreg
  refine ⟨hmem, henc ▸ contextOk_empty, hdec ▸ contextOk_empty, ?_, fun _ => hcode, hcaches, fun job hp => ?_⟩
  · rw [henc, hdec]; rintro (h | h) <;> cases h
  · cases hphase.symm.trans hp

/-- Settles O49: an empty memory, empty contexts and an idle machine. -/
theorem resetHasTheInvariant : Obligations.ResetHasTheInvariant :=
  inv_of_reset rfl (fun _ => ⟨rfl, rfl⟩) ⟨rfl, rfl, rfl, rfl⟩

/-! ## A command's rule makes a sound job -/

/-- KEYLEN selects 10, 12 or 14 rounds. -/
theorem keyLenParams_rounds (s : State) :
    s.keyLenParams.2 = 10 ∨ s.keyLenParams.2 = 12 ∨ s.keyLenParams.2 = 14 := by
  unfold State.keyLenParams keyParams
  split <;> decide

/-- The encryption schedule of a key makes a whole context (spec/40_key_schedule.md R151). -/
theorem contextOk_encContext {p : Nat × Nat} (h : p.2 = 10 ∨ p.2 = 12 ∨ p.2 = 14) (key : KeyBytes) :
    contextOk (encContext p key) := by
  have hnr : (BitVec.ofNat 4 p.2).toNat = p.2 := by rw [BitVec.toNat_ofNat]; omega
  refine .inr ⟨rfl, ?_, fun r hr => ?_⟩
  · rcases h with h | h | h <;> simp [encContext, h]
  · simp only [encContext, hnr] at hr
    simp [encContext, encSchedule, Nat.not_le.2 hr]

/-- The decryption schedule of a key makes a whole context (spec/40_key_schedule.md R152). -/
theorem contextOk_decContext {p : Nat × Nat} (h : p.2 = 10 ∨ p.2 = 12 ∨ p.2 = 14) (key : KeyBytes) :
    contextOk (decContext p key) := by
  have hnr : (BitVec.ofNat 4 p.2).toNat = p.2 := by rw [BitVec.toNat_ofNat]; omega
  refine .inr ⟨rfl, ?_, fun r hr => ?_⟩
  · rcases h with h | h | h <;> simp [decContext, h]
  · simp only [decContext, hnr] at hr
    have hr0 : r ≠ 0 := by rintro rfl; simp at hr
    simp [decContext, decSchedule, hr0, show ¬ r.val < p.2 by omega, show r.val ≠ p.2 by omega]

/-- Both contexts of a job are whole where those of the state are: each is the state's, or a key expansion's. -/
theorem effectOf_contextOk {i : Instr} {s : State} {job : Job} (h : effectOf i s = .next job)
    (henc : contextOk s.enc) (hdec : contextOk s.dec) : contextOk job.enc ∧ contextOk job.dec := by
  constructor
  · by_cases hi : i = .kexpEnc
    · subst hi; cases h; exact contextOk_encContext (keyLenParams_rounds s) s.key
    · rw [effectOf_enc h hi]; exact henc
  · by_cases hi : i = .kexpDec
    · subst hi; cases h; exact contextOk_decContext (keyLenParams_rounds s) s.key
    · rw [effectOf_dec h hi]; exact hdec

/-- A job never loses a valid context. -/
theorem effectOf_contextsStay {i : Instr} {s : State} {job : Job} (h : effectOf i s = .next job) :
    (s.enc.valid = true → job.enc.valid = true) ∧ (s.dec.valid = true → job.dec.valid = true) := by
  constructor <;> intro hv
  · by_cases hi : i = .kexpEnc
    · subst hi; cases h; rfl
    · rw [effectOf_enc h hi]; exact hv
  · by_cases hi : i = .kexpDec
    · subst hi; cases h; rfl
    · rw [effectOf_dec h hi]; exact hv

/-- A key expansion whose checks pass has the tables (spec/60_exceptions.md R295). -/
theorem tablesReady_of_checks {i : Instr} {s : State} (hi : i = .kexpEnc ∨ i = .kexpDec)
    (h : firstError (checksOf i s) = .none) : s.tablesReady = true := by
  cases hs : s.tablesReady with
  | true => rfl
  | false =>
    rcases hi with rfl | rfl <;> rw [checksOf, firstError_cons, tablesCheck_of_not_ready hs] at h <;> cases h

/-- No job has a schedule before the tables: a new one is a key expansion's, which checks for them. -/
theorem effectOf_tablesBeforeSchedules {i : Instr} {s : State} {job : Job} (h : effectOf i s = .next job)
    (hc : firstError (checksOf i s) = .none) (hs : tablesBeforeSchedules s.tablesReady s.enc s.dec) :
    tablesBeforeSchedules job.tablesReady job.enc job.dec := by
  intro hv
  refine effectOf_tablesReady h ?_
  by_cases hi : i = .kexpEnc ∨ i = .kexpDec
  · exact tablesReady_of_checks hi hc
  · rw [not_or] at hi
    rw [effectOf_enc h hi.1, effectOf_dec h hi.2] at hv
    exact hs hv

/-- A mode command's output goes to its destination range (spec/20_memory.md R89). -/
theorem modeJob_writes_inRange {i : Instr} {mode} (hm : modeOf i = some mode) {s : State} {w : Word × Byte}
    (hw : w ∈ (s.modeJob (mode s)).writes) : (w.1 - s.dst).toNat < s.len.toNat := by
  rw [modeJob_writes] at hw
  obtain ⟨k, hk, rfl⟩ := (mem_outputWrites s _ w).1 hw
  have hk' : k < s.len.toNat :=
    hk.trans_le ((modeOf_length_le hm s _ _).trans_eq (inputBytes_length s))
  exact of_decide_eq_true ((inRange_iff s.dst s.len _).2 ⟨k, hk', rfl⟩)

/-- A job writes by DMA only, and to the destination range only. -/
theorem effectOf_writes {i : Instr} {s : State} {job : Job} (h : effectOf i s = .next job) :
    ∀ w ∈ job.writes, job.dma = true ∧ (w.1 - s.dst).toNat < s.len.toNat := by
  obtain ⟨mode, hm, hd⟩ | ⟨-, rfl⟩ | ⟨-, rfl⟩ | ⟨ready, off, out, -, rfl⟩ := effectOf_cases h
  · intro w hw
    obtain ⟨-, -, -, ⟨rfl, -, -⟩ | ⟨rfl, -⟩ | ⟨rfl, -⟩⟩ := dmaEffect_cases hd
    · exact ⟨rfl, modeJob_writes_inRange hm hw⟩
    · exact ⟨rfl, modeJob_writes_inRange hm (mem_of_mem_issuableWrites (mem_someWrites hw))⟩
    · exact ⟨rfl, modeJob_writes_inRange hm (mem_of_mem_issuableWrites hw)⟩
  all_goals simp

/-- The job of a command whose checks pass is sound. -/
theorem jobOk_of_effect {i : Instr} {s : State} {job : Job} (hs : Inv s) (hdone : s.done = false)
    (hc : firstError (checksOf i s) = .none) (h : effectOf i s = .next job) : JobOk s job where
  notDone := hdone
  encOk := (effectOf_contextOk h hs.encOk hs.decOk).1
  decOk := (effectOf_contextOk h hs.encOk hs.decOk).2
  tables := effectOf_tablesBeforeSchedules h hc hs.tables
  tablesStay := effectOf_tablesReady h
  encStays := (effectOf_contextsStay h).1
  decStays := (effectOf_contextsStay h).2
  writesDst := effectOf_writes h

/-- The job of a command whose checks fail is sound: it holds the registers and writes nothing. -/
theorem jobOk_of_error {s : State} (hs : Inv s) (hdone : s.done = false) (e : Error) :
    JobOk s { s.workingCopies with error := e } :=
  ⟨hdone, hs.encOk, hs.decOk, hs.tables, id, id, id, fun w hw => by simp at hw⟩

/-! ## Acceptance, launch and completion -/

/-- The completion of a sound command keeps the invariant. -/
theorem inv_finish {s : State} {job : Job} (h : Inv s) (hj : JobOk s job) : Inv (s.finish job) := by
  have hmem : (s.finish job).mem.wf = true := by
    rw [(finish_memory s job).1]; exact wf_setAll h.memory job.writes
  have hcaches := storeAll_caches h job.writes
  by_cases he : job.error = .none
  · rw [finish_none s job he] at hmem ⊢
    exact ⟨hmem, hj.encOk, hj.decOk, hj.tables, fun hd => (by cases hd), hcaches, fun _ hp => (by cases hp)⟩
  · rw [finish_error s job he] at hmem ⊢
    exact ⟨hmem, h.encOk, h.decOk, h.tables, fun hd => (by cases hd), hcaches, fun _ hp => (by cases hp)⟩

theorem inv_complete {s : State} (h : Inv s) : Inv s.complete := by
  obtain hs | ⟨job, hp, -, hs⟩ := complete_cases s
  · rwa [hs]
  · rw [hs]; exact inv_finish h (h.job job hp)

/-- A state is as good with a sound command in RUN, whatever is left of its tape. -/
theorem inv_run {s : State} {job : Job} (h : Inv s) (hj : JobOk s job) (n : Nat) (tape : List Nat) :
    Inv { s with phase := .run { job with left := n }, stall := tape } := by
  refine ⟨h.memory, h.encOk, h.decOk, h.tables, h.noErrorUndone, h.caches, fun job' hp => ?_⟩
  cases hp
  exact jobOk_of_same (jobOk_left hj n) id rfl rfl rfl ⟨rfl, rfl⟩

/-- What the sequencer does before an event keeps the invariant. -/
theorem inv_tick {s : State} (h : Inv s) : Inv s.tick := by
  obtain hs | hs | ⟨job, hp, hs⟩ := tick_cases s
  · rwa [hs]
  · rw [hs]; exact inv_complete h
  · rw [hs]; exact inv_run h (h.job job hp) (job.left - 1) s.stall

theorem inv_launch {s : State} {job : Job} (h : Inv s) (hj : JobOk s job) : Inv (s.launch job) := by
  have hrun : Inv (inRun s job) := inv_run h hj (s.stall.headD 0) s.stall.tail
  rw [launch_eq]
  split
  · exact inv_complete hrun
  · exact hrun

/-- Acceptance by an idle machine keeps the invariant: no command is yet in RUN. -/
theorem inv_accept {s : State} (h : Inv s) (w : Word) : Inv (s.accept w) :=
  inv_of_sameRegisters h ⟨rfl, rfl, rfl, rfl, fun _ => ⟨rfl, rfl⟩, fun _ => rfl, fun _ _ => rfl⟩ h.memory h.caches

/-! ## Instructions, host events and the step -/

theorem inv_response {s : State} (h : Inv s) (r : Response) : Inv { s with response := r } :=
  inv_of_sameRegisters h (sameRegisters_surroundings _ ..) h.memory h.caches

theorem inv_dropWrite {s : State} (h : Inv s) : Inv s.dropWrite :=
  inv_of_sameRegisters h (sameRegisters_surroundings _ ..) h.memory h.caches

/-- A write to STATUS lowers DONE and ERRCODE together or neither (spec/43_host_access.md R274). -/
theorem inv_writeStatus {s : State} (h : Inv s) (v : Word) : Inv (s.writeStatus v) := by
  rw [writeStatus_eq]
  refine inv_of_sameRegisters h ⟨rfl, rfl, rfl, rfl, fun _ => ⟨rfl, rfl⟩, ?_, ?_⟩ h.memory h.caches
  · intro hd; simp [hd]
  · cases v.getLsbD 1 <;> simp

/-- A register write leaves what the host's caches hold. -/
theorem writeReg_caches (s : State) (v : Word) (r : Reg) :
    (s.writeReg v r).hostDirty = s.hostDirty ∧ (s.writeReg v r).hostStale = s.hostStale := by
  cases r <;> simp [State.writeReg]

/-- A write to a register of an idle machine touches nothing the invariant looks at. -/
theorem inv_writeReg {s : State} (h : Inv s) (hidle : s.phase = .idle) (v : Word) (r : Reg) :
    Inv (s.writeReg v r) := by
  obtain ⟨hmem, henc, hdec, htables, hphase, hdone, hcode, -, -, -, -, hplatform, -⟩ := writeReg_frame s v r
  obtain ⟨hdirty, hstale⟩ := writeReg_caches s v r
  refine inv_of_sameRegisters h ⟨henc, hdec, htables, hphase, fun hp => absurd hidle hp, ?_, ?_⟩ ?_ ?_
  · rw [hdone]; exact id
  · rw [hdone, hcode]; exact id
  · rw [hmem]; exact h.memory
  · rw [hplatform, hdirty, hstale]; exact h.caches

/-- Every instruction keeps the invariant. -/
theorem inv_exec {i : Instr} {s t : State} (hw : i.wf = true) (hs : Inv s) (h : exec i s = .next t) : Inv t := by
  obtain ⟨off, -, rfl⟩ | ⟨off, v, -, hwrite⟩ | ⟨w, -, hcmd⟩ := exec_cases hw h
  · exact inv_response hs _
  · obtain ⟨-, rfl⟩ | ⟨-, -, rfl⟩ | ⟨-, hb, rfl⟩ := hwrite
    · exact inv_writeStatus hs v
    · exact inv_dropWrite hs
    · exact inv_writeReg hs (idle_of_not_busy hb) v _
  · obtain ⟨-, rfl⟩ | ⟨-, job, rfl, hjob⟩ := hcmd
    · exact inv_dropWrite hs
    · have ha : Inv (s.accept w) := inv_accept hs w
      obtain ⟨hc, heff⟩ | ⟨e, -, -, rfl⟩ := hjob
      · exact inv_launch ha (jobOk_of_effect ha rfl hc heff)
      · exact inv_launch ha (jobOk_of_error ha rfl e)

/-- The reset input: an abandoned command's writes are stores like any other (spec/70_reset_and_hazards.md R331). -/
theorem inv_applyReset {s : State} (h : Inv s) : Inv s.applyReset := by
  cases hp : s.phase with
  | idle =>
    refine inv_of_reset ?_ ?_ ⟨rfl, rfl, rfl, rfl⟩ <;> simp only [State.applyReset, hp]
    · exact h.memory
    · exact h.caches
  | run job =>
    refine inv_of_reset ?_ ?_ ⟨rfl, rfl, rfl, rfl⟩ <;> simp only [State.applyReset, hp]
    · exact wf_setAll h.memory _
    · exact storeAll_caches h _

/-- Every host event keeps the invariant. -/
theorem inv_serve {e : HostEvent} {s t : State} (hs : Inv s) (h : serve e s = .next t) : Inv t := by
  obtain ⟨i, hw, -, hi⟩ | ⟨r, rfl⟩ | ⟨ws, d, c, n, r, hd, hc, rfl⟩ | ⟨m, -, rfl⟩ | ⟨-, rfl⟩ := serve_cases h
  · exact inv_exec hw (inv_response hs .written) hi
  · exact inv_response hs r
  · refine inv_of_sameRegisters hs (sameRegisters_surroundings _ ..) (wf_setAll hs.memory ws)
      fun hco => ?_
    obtain ⟨hdirty, hstale⟩ := hs.caches hco
    exact ⟨List.eq_nil_iff_forall_not_mem.2 fun x hx => by simpa [hdirty] using hd x hx hco,
      List.eq_nil_iff_forall_not_mem.2 fun x hx => by simpa [hstale] using hc x hx⟩
  · exact inv_of_sameRegisters hs (sameRegisters_surroundings _ ..) hs.memory hs.caches
  · exact inv_applyReset hs

/-- Settles O50: the step is a completion, or what the sequencer does and then a host event; each keeps it. -/
theorem stepKeepsTheInvariant : Obligations.StepKeepsTheInvariant := by
  intro s t hs h
  obtain ⟨-, rfl⟩ | ⟨e, rest, -, he⟩ := step_cases h
  · exact inv_complete hs
  · have htick : Inv s.tick := inv_tick hs
    have htaken : Inv { s.tick with inputs := rest } :=
      inv_of_sameRegisters htick (sameRegisters_surroundings _ ..) htick.memory htick.caches
    exact inv_serve htaken he

end Sys2Proof.Proofs

/-! PROOF. The step on a transaction, and what a register read answers: the fields of STATUS, nothing of the keys, 0
after reset. -/

namespace Sys2Proof.Proofs

open Sys2Proof.Machine Sys2Proof.Claims Sys2Proof.Laws

/-- Settles O5: the step takes the event from the queue after the sequencer's part and serves it as its decoding says. -/
theorem stepRunsTheDecodedInstruction : Obligations.StepRunsTheDecodedInstruction := by
  intro s t rest i hinputs hdecode
  have hserve : step s = serveTransaction t { s.tick with inputs := rest } := by simp [step, hinputs, serve]
  rw [hserve, serveTransaction, hdecode]

/-! ## STATUS (spec/10_state.md R36) -/

theorem getLsbD_bitField (b : Bool) (n i : Nat) (hn : n < 32) : (bitField b n).getLsbD i = (decide (i = n) && b) := by
  simp only [bitField, BitVec.getLsbD_shiftLeft, BitVec.getLsbD_setWidth, BitVec.getLsbD_ofBool]
  by_cases h : i = n
  · simp [h, hn]
  · have : i < n ∨ i - n ≠ 0 := by omega
    rcases this with h' | h' <;> simp [h, h']

/-- Bit `i` of STATUS: a flag at its own place, ERRCODE from bit 8 on, else 0. -/
theorem getLsbD_statusWord (s : State) {i : Nat} (hi : i < 32) :
    s.statusWord.getLsbD i =
      (decide (i = 0) && s.busy || decide (i = 1) && s.done || decide (i = 2) && s.err || decide (i = 3) && s.wign ||
        decide (8 ≤ i) && s.errCode.code.getLsbD (i - 8) || decide (i = 16) && s.tablesReady ||
        decide (i = 17) && s.enc.valid || decide (i = 18) && s.dec.valid) := by
  have hcode : (s.errCode.code.setWidth 32 <<< 8).getLsbD i = (decide (8 ≤ i) && s.errCode.code.getLsbD (i - 8)) := by
    rw [BitVec.getLsbD_shiftLeft, BitVec.getLsbD_setWidth]
    by_cases h : 8 ≤ i
    · simp [hi, h, show i - 8 < 32 by omega]
    · simp [h, Nat.not_le.1 h]
  simp only [State.statusWord, BitVec.getLsbD_or, getLsbD_bitField, hcode, Nat.reduceLT]

/-- The bits of STATUS between its fields are 0. -/
theorem extract_statusWord_reserved (s : State) {k n : Nat}
    (h : 4 ≤ k ∧ k + n ≤ 8 ∨ 12 ≤ k ∧ k + n ≤ 16 ∨ 19 ≤ k ∧ k + n ≤ 32) : s.statusWord.extractLsb' k n = 0 := by
  refine BitVec.eq_of_getLsbD_eq fun i hi => ?_
  have hplace : k + i ≠ 0 ∧ k + i ≠ 1 ∧ k + i ≠ 2 ∧ k + i ≠ 3 ∧ k + i ≠ 16 ∧ k + i ≠ 17 ∧ k + i ≠ 18 := by omega
  have hcode : (decide (8 ≤ k + i) && s.errCode.code.getLsbD (k + i - 8)) = false := by
    by_cases h8 : 8 ≤ k + i
    · rw [BitVec.getLsbD_of_ge _ _ (by omega), Bool.and_false]
    · simp [h8]
  rw [BitVec.getLsbD_extractLsb', getLsbD_statusWord s (by omega), hcode]
  simp only [hplace, decide_false, Bool.false_and, Bool.or_false, Bool.and_false, BitVec.ofNat_eq_ofNat,
    BitVec.getLsbD_zero]

/-- ERRCODE stands in bits 8 to 11. -/
theorem extract_statusWord_errCode (s : State) : s.statusWord.extractLsb' 8 4 = s.errCode.code := by
  refine BitVec.eq_of_getLsbD_eq fun i hi => ?_
  have hplace : 8 + i ≠ 0 ∧ 8 + i ≠ 1 ∧ 8 + i ≠ 2 ∧ 8 + i ≠ 3 ∧ 8 + i ≠ 16 ∧ 8 + i ≠ 17 ∧ 8 + i ≠ 18 := by omega
  rw [BitVec.getLsbD_extractLsb', getLsbD_statusWord s (by omega)]
  simp only [hplace, hi, decide_false, decide_true, Nat.le_add_right, Nat.add_sub_cancel_left, Bool.false_and,
    Bool.true_and, Bool.false_or, Bool.or_false]

/-- ERR is 1 exactly when the code is not 0. -/
theorem err_eq_code (s : State) : s.err = (s.errCode.code != 0) := by
  cases h : s.errCode <;> simp [State.err, h, Error.code]

/-- The flags stand at their bits. -/
theorem statusWord_flags (s : State) :
    s.statusWord.getLsbD 0 = s.busy ∧ s.statusWord.getLsbD 1 = s.done ∧ s.statusWord.getLsbD 2 = s.err ∧
      s.statusWord.getLsbD 3 = s.wign ∧ s.statusWord.getLsbD 16 = s.tablesReady ∧
      s.statusWord.getLsbD 17 = s.enc.valid ∧ s.statusWord.getLsbD 18 = s.dec.valid := by
  refine ⟨?_, ?_, ?_, ?_, ?_, ?_, ?_⟩ <;> rw [getLsbD_statusWord s (by decide)] <;> simp

/-- Settles O41: each flag by its bit, the runs of bits by their places. -/
theorem statusReadsItsFields : Obligations.StatusReadsItsFields := by
  intro s
  obtain ⟨hbusy, hdone, herr, hwign, htables, henc, hdec⟩ := statusWord_flags s
  refine ⟨s.errCode.code, ?_, exec_regRead rfl s, hbusy, hdone, herr.trans (err_eq_code s), hwign,
    extract_statusWord_reserved s (by omega), extract_statusWord_errCode s, extract_statusWord_reserved s (by omega),
    htables, henc, hdec, extract_statusWord_reserved s (by omega)⟩
  cases s.errCode <;> simp [Error.code]

/-! ## What a read answers -/

/-- A register reads the same whatever KEY and the round-key stores hold (spec/10_state.md R43, R49). -/
theorem readReg_keys (s : State) (k : KeyBytes) (e d : Vector Block 15) (r : Reg) :
    ({ s with key := k, enc := { s.enc with rows := e }, dec := { s.dec with rows := d } } : State).readReg r =
      s.readReg r := by
  cases r <;> rfl

/-- Settles O45: at an aligned offset the answer is the register's value, else a bus error. -/
theorem readsDoNotRevealKeys : Obligations.ReadsDoNotRevealKeys := by
  intro s off k e d
  by_cases ha : offsetAligned off = true
  · refine ⟨.data (s.readReg (regAt off)), exec_regRead ha s, ?_⟩
    rw [← readReg_keys s k e d]
    exact exec_regRead ha _
  · exact ⟨.busError, by simp [exec, execRegRead, ha, State.busErrorResponse],
      by simp [exec, execRegRead, ha, State.busErrorResponse]⟩

theorem readLanes_zero (m n : Nat) : readLanes (Vector.replicate m (0 : Byte)) n = 0 := by
  have hbyte : ∀ k, byteAt (Vector.replicate m (0 : Byte)) k = 0 := fun k => by
    by_cases hk : k < m <;> simp [byteAt, hk]
  simp only [readLanes, hbyte]
  rfl

/-- After reset every register reads 0 (spec/10_state.md R58). -/
theorem readReg_reset (r : Reg) : State.reset.readReg r = 0 := by
  cases r with
  | iv n => exact readLanes_zero 16 n.val
  | ks n => exact readLanes_zero 16 n.val
  | bin n => exact readLanes_zero 16 n.val
  | bout n => exact readLanes_zero 16 n.val
  | _ => rfl

/-- Settles O47: an aligned read answers the register, which reads 0; IE and DONE are 0. -/
theorem resetRegistersReadZero : Obligations.ResetRegistersReadZero := by
  refine ⟨rfl, fun off hoff => ?_⟩
  rw [exec_regRead (by simp [Instr.wf, offsetAligned, hoff]), readReg_reset]

end Sys2Proof.Proofs

/-! PROOF. What a mode command's DMA stops on, in the spec's words (spec/20_memory.md R90, R93, R97); the touches of a
running command's ranges (R94); which instructions change memory (R80). -/

namespace Sys2Proof.Proofs

open Sys2Proof.Machine Sys2Proof.Claims Sys2Proof.Laws

/-! ## Mode commands whose checks pass -/

/-- The mode commands are the instructions with a mode rule. -/
theorem mem_modeCommands_iff (i : Instr) : i ∈ modeCommands ↔ ∃ mode, modeOf i = some mode := by
  cases i <;> simp [modeCommands, modeOf]

/-- A mode command is a write to CMD. -/
theorem commandWord_of_modeOf {i : Instr} {mode} (h : modeOf i = some mode) : commandWord i = some (wordOf i) := by
  cases i <;> simp only [modeOf, Option.some.injEq, reduceCtorEq] at h <;> rfl

/-- The acceptance checks of a mode command: the tables, its context and, in ECB and CBC, LEN
(spec/60_exceptions.md R299). -/
theorem checksOf_mode {i : Instr} {mode} (h : modeOf i = some mode) (s : State) :
    checksOf i s = s.tablesCheck :: (contextOf i s).check :: if i ∈ blockCommands then [s.lengthCheck] else [] := by
  cases i <;> simp only [modeOf, Option.some.injEq, reduceCtorEq] at h <;> rfl

/-- `Accepts` says that these checks pass. -/
theorem firstError_of_accepts {i : Instr} {mode} {s : State} (hm : modeOf i = some mode) (h : Accepts i s) :
    firstError (checksOf i s) = .none := by
  rw [checksOf_mode hm, tablesCheck_of_ready h.tables, check_of_valid h.context]
  by_cases hi : i ∈ blockCommands
  · rw [if_pos hi, lengthCheck_of_aligned (h.length hi)]; rfl
  · rw [if_neg hi]; rfl

/-- Acceptance changes nothing `Accepts` looks at. -/
theorem accepts_accept {i : Instr} {s : State} (h : Accepts i s) (w : Word) : Accepts i (s.accept w) :=
  ⟨h.idle, h.tables, h.context, h.length⟩

/-- An accepted mode command is its DMA, with no check left. -/
theorem exec_of_accepts {i : Instr} {mode} {s : State} (hm : modeOf i = some mode) (h : Accepts i s) :
    exec i s = command (wordOf i) (fun _ => []) (dmaEffect mode (needsOf i)) s := by
  rw [exec_command (commandWord_of_modeOf hm),
    command_effect _ _ _ h.idle (firstError_of_accepts hm (accepts_accept h _)),
    command_effect _ _ _ h.idle rfl, effectOf_mode hm]

/-- A command whose checks pass faults where its rule does. -/
theorem command_fault {w : Word} {checks effect} {s : State} {r : Fault} (hb : s.busy = false)
    (hc : firstError (checks (s.accept w)) = .none) (he : effect (s.accept w) = .fault r) :
    command w checks effect s = .fault r := by rw [command_effect w checks effect hb hc, he]

/-- A command whose checks pass is refused where its rule is. -/
theorem command_refused {w : Word} {checks effect} {s : State} {r : Refusal} (hb : s.busy = false)
    (hc : firstError (checks (s.accept w)) = .none) (he : effect (s.accept w) = .refused r) :
    command w checks effect s = .refused r := by rw [command_effect w checks effect hb hc, he]

/-! ## The premises on the ranges -/

theorem noPartialOverlap_iff (s : State) : NoPartialOverlap s ↔ s.rangesOverlap = false := by
  rw [← Bool.not_eq_true, rangesOverlap_iff, not_and_or, not_ne_iff]
  simp only [NoPartialOverlap, not_exists, not_and, ne_eq]

theorem storesVisible_iff (s : State) : StoresVisible s ↔ s.hostCacheHazard = false := by
  rw [← Bool.not_eq_true, hostCacheHazard_iff, not_and_or, Bool.not_eq_false]
  simp only [StoresVisible, not_exists, not_and, ne_eq]

theorem reachesDevice_iff (s : State) : ReachesDevice s ↔ s.deviceInRange = true := (deviceInRange_iff s).symm

theorem dmaEffect_overlap {mode needs} {s : State} (h : ¬ NoPartialOverlap s) :
    dmaEffect mode needs s = .fault .overlap := by
  rw [noPartialOverlap_iff, Bool.not_eq_false] at h
  simp [dmaEffect, h]

theorem dmaEffect_hostCache {mode needs} {s : State} (ho : NoPartialOverlap s) (h : ¬ StoresVisible s) :
    dmaEffect mode needs s = .fault .hostCache := by
  rw [noPartialOverlap_iff] at ho
  rw [storesVisible_iff, Bool.not_eq_false] at h
  simp [dmaEffect, ho, h]

theorem dmaEffect_device {mode needs} {s : State} (ho : NoPartialOverlap s) (hv : StoresVisible s)
    (h : ReachesDevice s) : dmaEffect mode needs s = .refused .deviceRange := by
  rw [noPartialOverlap_iff] at ho
  rw [storesVisible_iff] at hv
  rw [reachesDevice_iff] at h
  simp [dmaEffect, ho, hv, h]

/-- Settles O32: the overlap is the first thing an accepted mode command looks at; acceptance moves no range. -/
theorem partialOverlapFaults : Obligations.PartialOverlapFaults := by
  intro s i hi haccepts hoverlap
  obtain ⟨mode, hm⟩ := (mem_modeCommands_iff i).1 hi
  exact (exec_of_accepts hm haccepts).trans (command_fault haccepts.idle rfl (dmaEffect_overlap hoverlap))

/-- Settles O34: a device is looked for where neither the ranges nor the caches stop the command. -/
theorem deviceRangeIsRefused : Obligations.DeviceRangeIsRefused := by
  intro s i hi haccepts hoverlap hvisible hdevice
  obtain ⟨mode, hm⟩ := (mem_modeCommands_iff i).1 hi
  exact (exec_of_accepts hm haccepts).trans
    (command_refused haccepts.idle rfl (dmaEffect_device hoverlap hvisible hdevice))

/-! ## The ranges of a running command -/

/-- The addresses a command in RUN with DMA writes: its destination range (R94). -/
theorem dstBusy_iff (s : State) (a : Word) : s.dstBusy a = true ↔
    ∃ job, s.phase = .run job ∧ job.dma = true ∧ ∃ i < s.len.toNat, a = s.dst + BitVec.ofNat 32 i := by
  cases hp : s.phase <;> simp [State.dstBusy, hp, inRange_iff]

/-- The addresses a command in RUN with DMA reads: its source range (R94). -/
theorem srcBusy_iff (s : State) (a : Word) : s.srcBusy a = true ↔
    ∃ job, s.phase = .run job ∧ job.dma = true ∧ ∃ i < s.len.toNat, a = s.src + BitVec.ofNat 32 i := by
  cases hp : s.phase <;> simp [State.srcBusy, hp, inRange_iff]

/-- A load of the destination range is a race, whoever loads. -/
theorem load_race {s : State} {a : Word} (h : s.dstBusy a = true) :
    serve (.load a) s = .fault .race ∧ serve (.masterLoad a) s = .fault .race := by
  simp [serve, serveLoad, serveMasterLoad, h]

/-- A store to either range is a race, whoever stores. -/
theorem store_race {s : State} {a : Word} (b : Byte) (h : s.dstBusy a = true ∨ s.srcBusy a = true) :
    serve (.store a b) s = .fault .race ∧ serve (.masterStore a b) s = .fault .race := by
  simp [serve, serveStore, serveMasterStore, h]

/-- Settles O37: the two addresses are busy, and each agent's access to them is a race. -/
theorem loadOfDestinationOrStoreToARangeInRunFaults : Obligations.LoadOfDestinationOrStoreToARangeInRunFaults := by
  intro s job i b hphase hdma hi
  have hdst := (dstBusy_iff s _).2 ⟨job, hphase, hdma, i, hi, rfl⟩
  have hsrc := (srcBusy_iff s _).2 ⟨job, hphase, hdma, i, hi, rfl⟩
  exact ⟨(load_race hdst).1, (store_race b (.inl hdst)).1, (store_race b (.inr hsrc)).1, (load_race hdst).2,
    (store_race b (.inl hdst)).2, (store_race b (.inr hsrc)).2⟩

/-- A host load of a Byte that DMA wrote and the host has not invalidated faults, unless it is a race (R97, R98). -/
theorem load_stale {s : State} {a : Word} (hbusy : s.dstBusy a = false) (hstale : a ∈ s.hostStale) :
    serve (.load a) s = .fault .hostCache := by
  simp [serve, serveLoad, hbusy, hstale]

/-- Settles O33: the command stops at the second thing its DMA looks at; the load is no race and the Byte is stale. -/
theorem brokenCacheDutyFaults : Obligations.BrokenCacheDutyFaults := by
  constructor
  · intro s i hi haccepts hoverlap hvisible
    obtain ⟨mode, hm⟩ := (mem_modeCommands_iff i).1 hi
    exact (exec_of_accepts hm haccepts).trans
      (command_fault haccepts.idle rfl (dmaEffect_hostCache hoverlap hvisible))
  · intro s a hstale hrace
    refine load_stale (Bool.eq_false_iff.2 fun hbusy => ?_) hstale
    obtain ⟨job, hphase, hdma, i, hi, ha⟩ := (dstBusy_iff s a).1 hbusy
    exact hrace job hphase hdma i hi ha

/-! ## Which instructions change memory -/

/-- Only a mode command's rule gives a job with DMA writes. -/
theorem effectOf_writes_nil {i : Instr} {s : State} {job : Job} (h : effectOf i s = .next job)
    (hi : i ∉ modeCommands) : job.writes = [] := by
  obtain ⟨mode, hm, -⟩ | ⟨-, rfl⟩ | ⟨-, rfl⟩ | ⟨_, _, _, -, rfl⟩ := effectOf_cases h
  · exact absurd ((mem_modeCommands_iff i).2 ⟨mode, hm⟩) hi
  · rfl
  · rfl
  · rfl

/-- Completing a state changes memory by the writes of the command in RUN only. -/
theorem complete_mem_of_no_writes {s : State} (h : ∀ job, s.phase = .run job → job.writes = []) :
    s.complete.mem = s.mem := by
  obtain hs | ⟨job, hphase, -, hs⟩ := complete_cases s
  · rw [hs]
  · rw [hs, (finish_memory s job).1, h job hphase, storeAll_nil]

/-- A launched command without DMA writes leaves memory, at its completion too. -/
theorem launch_complete_mem {s : State} {job : Job} (h : job.writes = []) : (s.launch job).complete.mem = s.mem := by
  have hrun : (inRun s job).complete.mem = s.mem :=
    complete_mem_of_no_writes fun job' hp => by cases hp; exact h
  cases ha : job.answers with
  | true => rw [launch_complete s job ha, ← inRun_complete s job ha, hrun]
  | false => rw [launch_eq, inRun_unanswered s job ha, ite_self, hrun]

/-- Settles O53: an instruction reads, writes a register, or launches a job, and only a mode command's job has DMA
writes. -/
theorem onlyModeCommandsChangeMemory : Obligations.OnlyModeCommandsChangeMemory := by
  intro s t i hw hb hi h
  have hidle := idle_of_not_busy hb
  obtain ⟨off, -, rfl⟩ | ⟨off, v, -, hwrite⟩ | ⟨w, -, hcmd⟩ := exec_cases hw h
  · rw [complete_of_idle (by exact hidle)]
  · obtain ⟨-, rfl⟩ | ⟨-, hbusy, -⟩ | ⟨-, -, rfl⟩ := hwrite
    · rw [writeStatus_eq, complete_of_idle (by exact hidle)]
    · simp [hb] at hbusy
    · obtain ⟨hmem, -, -, -, hphase, -⟩ := writeReg_frame s v (regAt off)
      rw [complete_of_idle (hphase.trans hidle), hmem]
  · obtain ⟨hbusy, -⟩ | ⟨-, job, rfl, ⟨-, heff⟩ | ⟨e, -, -, rfl⟩⟩ := hcmd
    · simp [hb] at hbusy
    · exact launch_complete_mem (s := s.accept w) (effectOf_writes_nil heff hi)
    · exact launch_complete_mem (s := s.accept w) rfl

end Sys2Proof.Proofs

/-! PROOF. Accesses at the host's addresses: the window serves aligned words only (spec/20_memory.md R82, R83). -/

namespace Sys2Proof.Proofs

open Sys2Proof.Machine Sys2Proof.Claims Sys2Proof.Laws

/-- What the sequencer does before an event changes no parameter. -/
theorem tick_platform (s : State) : s.tick.platform = s.platform := by
  obtain h | h | ⟨job, -, h⟩ := tick_cases s
  · rw [h]
  · obtain hc | ⟨job, -, -, hc⟩ := complete_cases s
    · rw [h, hc]
    · obtain ⟨-, -, -, -, -, -, -, -, -, -, hplatform, -⟩ := finish_frame s job
      rw [h, hc, hplatform]
  · rw [h]

/-- A 32-bit access at an offset of the window is that offset's transaction (R82). -/
theorem serveBusAccess_word {s : State} {page off : Nat} (hp : s.platform.regPage = page) (hoff : off < 256)
    (w : Bool) (v : Word) : serveBusAccess w (256 * page + off) .word v s =
      serveTransaction (Transaction.mk w (BitVec.ofNat 8 off) (if w then v else 0)) s := by
  have hpage : (256 * page + off) / 256 = page := by omega
  have hlow : BitVec.ofNat 8 (256 * page + off) = BitVec.ofNat 8 off :=
    BitVec.eq_of_toNat_eq (by simp)
  simp only [serveBusAccess, hpage, hp, ne_eq, not_true_eq_false, if_false, hlow]

/-- A narrower access to the window is answered with a bus error (R83). -/
theorem serveBusAccess_narrow {s : State} {page off : Nat} (hp : s.platform.regPage = page) (hoff : off < 256)
    {z : AccessSize} (hz : z ≠ .word) (w : Bool) (v : Word) :
    serveBusAccess w (256 * page + off) z v s = .next s.busErrorResponse := by
  have hpage : (256 * page + off) / 256 = page := by omega
  cases z <;> simp_all [serveBusAccess]

/-- A transaction at a misaligned offset is answered with a bus error (spec/30_encoding.md R111). -/
theorem serveTransaction_misaligned {t : Transaction} (h : t.off.toNat % 4 ≠ 0) (s : State) :
    serveTransaction t s = .next s.busErrorResponse := by
  have hdecode : decode t = .error .misalignedOffset := by simp [decode, offsetAligned, h]
  rw [serveTransaction, hdecode]

/-- Settles O8: the sequencer's part leaves REG_BASE, so the access is to the window; its size, then its offset, say
how it is answered. -/
theorem windowServesAlignedWordsOnly : Obligations.WindowServesAlignedWordsOnly := by
  intro s rest w off z value hoff hinputs
  have hstep : step s = serveBusAccess w (256 * s.platform.regPage + off) z value { s.tick with inputs := rest } := by
    simp [step, hinputs, serve]
  have hpage : ({ s.tick with inputs := rest } : State).platform.regPage = s.platform.regPage :=
    congrArg Platform.regPage (tick_platform s)
  refine ⟨?_, fun h => ?_⟩
  · rintro rfl - i hdecode
    rw [hstep, serveBusAccess_word hpage hoff, serveTransaction, hdecode]
  · by_cases hz : z = .word
    · subst hz
      have hmisaligned := h.resolve_left (not_not_intro rfl)
      rw [hstep, serveBusAccess_word hpage hoff,
        serveTransaction_misaligned (by simpa [Nat.mod_eq_of_lt hoff] using hmisaligned)]
      rfl
    · rw [hstep, serveBusAccess_narrow hpage hoff hz]
      rfl

end Sys2Proof.Proofs

/-! PROOF. Decoder, encoder and opcode table agree (spec/30_encoding.md R111 to R114, R122). -/

namespace Sys2Proof.Proofs

open Sys2Proof.Laws

/-! ## The decoder's answer, form by form (R114) -/

section

variable {t : Transaction}

theorem decode_read (ha : offsetAligned t.off = true) (hw : t.we = false) : decode t = .ok (.regRead t.off) := by
  simp [decode, ha, hw]

theorem decode_write (ha : offsetAligned t.off = true) (hw : t.we = true) (ho : t.off ≠ 0x04) :
    decode t = .ok (.regWrite t.off t.data) := by
  rw [decode, ha, hw, beq_false_of_ne ho]
  rfl

theorem decode_cmd (hw : t.we = true) (ho : t.off = 0x04) : decode t = .ok (decodeCommand t.data) := by
  simp [decode, offsetAligned, hw, ho]

/-- What the decoder gives is a read, a command or a write elsewhere. -/
theorem decode_cases {i : Instr} (h : decode t = .ok i) :
    (t.we = false ∧ i = .regRead t.off) ∨ (t.we = true ∧ t.off = 0x04 ∧ i = decodeCommand t.data) ∨
      (t.we = true ∧ t.off ≠ 0x04 ∧ i = .regWrite t.off t.data) := by
  have ha : offsetAligned t.off = true := by
    by_contra hn
    rw [decode, Bool.eq_false_of_not_eq_true hn] at h
    cases h
  cases hw : t.we with
  | false =>
    rw [decode_read ha hw] at h
    exact .inl ⟨rfl, (Except.ok.inj h).symm⟩
  | true =>
    by_cases ho : t.off = 0x04
    · rw [decode_cmd hw ho] at h
      exact .inr (.inl ⟨rfl, ho, (Except.ok.inj h).symm⟩)
    · rw [decode_write ha hw ho] at h
      exact .inr (.inr ⟨rfl, ho, (Except.ok.inj h).symm⟩)

end

/-! ## The round trips -/

/-- The command decoder inverts the map of R113 and keeps an illegal word. -/
theorem decodeCommand_of_commandWord {i : Instr} {w : Word} (hwf : i.wf = true) (h : commandWord i = some w) :
    decodeCommand w = i := by
  cases i with
  | cmdIllegal word =>
    obtain rfl : word = w := Option.some.inj h
    exact decodeCommand_of_undefined (by simpa [Instr.wf] using hwf)
  | regWrite off value => cases h
  | regRead off => cases h
  | _ => cases h; rfl

/-- Settles O1: a command by its word, a register access by its fields. -/
theorem decodeOfEncodeIsTheInstruction : Obligations.DecodeOfEncodeIsTheInstruction := by
  intro i hwf
  cases hc : commandWord i with
  | some w =>
    rw [encode_of_commandWord hc, decode_cmd (mk_we ..) (mk_off ..), mk_data, decodeCommand_of_commandWord hwf hc]
  | none =>
    cases i with
    | regRead off =>
      rw [encode, decode_read (by rwa [mk_off]) (mk_we ..), mk_off]
    | regWrite off value =>
      obtain ⟨ha, ho⟩ : offsetAligned off = true ∧ off ≠ 0x04 := by simpa [Instr.wf] using hwf
      rw [encode, decode_write (by rwa [mk_off]) (mk_we ..) (by rwa [mk_off]), mk_off, mk_data]
    | _ => cases hc

/-- Settles O2: the decoder keeps the fields it looks at, and a transaction is its fields. -/
theorem encodeOfDecodeIsTheTransaction : Obligations.EncodeOfDecodeIsTheTransaction := by
  intro t i h
  refine ⟨wf_of_decode h, ?_⟩
  obtain ⟨hw, rfl⟩ | ⟨hw, ho, rfl⟩ | ⟨hw, -, rfl⟩ := decode_cases h
  · simp [encode, hw]
  · rw [encode_of_commandWord (commandWord_decodeCommand _), hw, ho, if_pos rfl]
  · simp [encode, hw]

/-! ## The masked bits of a transaction -/

/-- `n` bits of `a` from bit `k` on, in place. -/
theorem and_field_mask (a k n : Nat) : a &&& (2 ^ n - 1) * 2 ^ k = a / 2 ^ k % 2 ^ n * 2 ^ k := by
  have hlow : (a &&& (2 ^ n - 1) * 2 ^ k) % 2 ^ k = 0 := by
    rw [Nat.and_mod_two_pow, Nat.mul_mod_left, Nat.and_zero]
  have hhigh : (a &&& (2 ^ n - 1) * 2 ^ k) / 2 ^ k = a / 2 ^ k % 2 ^ n := by
    rw [Nat.and_div_two_pow, Nat.mul_div_cancel _ (Nat.two_pow_pos k), Nat.and_two_pow_sub_one_eq_mod]
  rw [← hhigh, Nat.div_mul_cancel (Nat.dvd_of_mod_eq_zero hlow)]

/-- T as a number, by its fields (R111). -/
theorem toNat_eq_fields (t : Transaction) : t.toNat = t.we.toNat * 2 ^ 40 + t.off.toNat * 2 ^ 32 + t.data.toNat := by
  have hwe : t.we.toNat = t.toNat / 2 ^ 40 % 2 := by
    rw [Transaction.we, BitVec.getLsbD, Nat.toNat_testBit]
  have hoff : t.off.toNat = t.toNat / 2 ^ 32 % 2 ^ 8 := by
    rw [Transaction.off, BitVec.extractLsb'_toNat, Nat.shiftRight_eq_div_pow]
  have hdata : t.data.toNat = t.toNat % 2 ^ 32 := by
    rw [Transaction.data, BitVec.extractLsb'_toNat, Nat.shiftRight_zero]
  have hlt : t.toNat < 2 ^ 41 := t.isLt
  omega

/-- The command rows fix every bit of T. -/
theorem and_mask_all (t : Transaction) : t.toNat &&& 0x1FFFFFFFFFF = t.toNat :=
  (and_field_mask t.toNat 0 41).trans (by have := t.isLt; omega)

/-- CMD_ILLEGAL fixes WE and OFF. -/
theorem and_mask_cmdIllegal (t : Transaction) :
    t.toNat &&& 0x1FF00000000 = t.we.toNat * 2 ^ 40 + t.off.toNat * 2 ^ 32 := by
  have hoff := t.off.isLt
  have hdata := t.data.isLt
  have hwe := Bool.toNat_lt t.we
  have h := and_field_mask t.toNat 32 9
  rw [toNat_eq_fields t] at h ⊢
  exact h.trans (by omega)

/-- REG_WRITE and REG_READ fix WE. -/
theorem and_mask_access (t : Transaction) : t.toNat &&& 0x10000000000 = t.we.toNat * 2 ^ 40 := by
  have hoff := t.off.isLt
  have hdata := t.data.isLt
  have hwe := Bool.toNat_lt t.we
  have h := and_field_mask t.toNat 40 1
  rw [toNat_eq_fields t] at h ⊢
  exact h.trans (by omega)

/-! ## The rows of the opcode table -/

/-- The rows of the defined opcodes. -/
def commandRows : List OpcodeRow := opcodeTable.take 14

theorem opcodeTable_eq : opcodeTable = commandRows ++
    [⟨"CMD_ILLEGAL", 0x10400000000, 0x1FF00000000⟩, ⟨"REG_WRITE", 0x10000000000, 0x10000000000⟩,
     ⟨"REG_READ", 0x00000000000, 0x10000000000⟩] := rfl

/-- A command row is a write of its defined opcode to CMD (R113). -/
theorem commandRows_pattern : ∀ r ∈ commandRows,
    r.mask = 0x1FFFFFFFFFF ∧ ∃ n ∈ definedOpcodes, r.pattern = 0x10400000000 + n := by decide

/-- The first row that matches the write of a defined opcode to CMD is the one of its instruction. -/
theorem find_definedOpcode : ∀ n ∈ definedOpcodes,
    ∃ r ∈ opcodeTable, opcodeTable.find? (fun r => (0x10400000000 + n) &&& r.mask == r.pattern) = some r ∧
      r.mnemonic = (decodeCommand (BitVec.ofNat 32 n)).mnemonic := by decide

section

variable {t : Transaction}

/-- A command row matches a write of its word to CMD only. -/
theorem fields_of_commandRow_fits {r : OpcodeRow} (hr : r ∈ commandRows) (h : r.fits t = true) :
    t.we = true ∧ t.off = 0x04 ∧ isCommandWord t.data = true := by
  obtain ⟨hmask, n, hn, hpattern⟩ := commandRows_pattern r hr
  have hn32 : n < 2 ^ 32 := (by decide : ∀ n ∈ definedOpcodes, n < 2 ^ 32) n hn
  rw [OpcodeRow.fits, hmask, hpattern, and_mask_all, toNat_eq_fields, beq_iff_eq] at h
  have hoff := t.off.isLt
  have hdata := t.data.isLt
  have hwe := Bool.toNat_lt t.we
  refine ⟨Bool.toNat_eq_one.1 (by omega), BitVec.eq_of_toNat_eq (show t.off.toNat = 4 by omega), ?_⟩
  rw [isCommandWord, List.contains_iff_mem, show t.data.toNat = n by omega]
  exact hn

theorem cmdIllegalRow_fits :
    OpcodeRow.fits ⟨"CMD_ILLEGAL", 0x10400000000, 0x1FF00000000⟩ t = (t.we && t.off == 0x04) := by
  have hcmd : t.off = 0x04 ↔ t.off.toNat = 4 := BitVec.toNat_inj.symm
  have hoff := t.off.isLt
  rw [OpcodeRow.fits, and_mask_cmdIllegal, Bool.eq_iff_iff, Bool.and_eq_true, beq_iff_eq, beq_iff_eq, hcmd,
    ← Bool.toNat_eq_one]
  show t.we.toNat * 2 ^ 40 + t.off.toNat * 2 ^ 32 = 0x10400000000 ↔ _
  omega

theorem regWriteRow_fits : OpcodeRow.fits ⟨"REG_WRITE", 0x10000000000, 0x10000000000⟩ t = t.we := by
  rw [OpcodeRow.fits, and_mask_access]
  cases t.we <;> rfl

theorem regReadRow_fits : OpcodeRow.fits ⟨"REG_READ", 0x00000000000, 0x10000000000⟩ t = !t.we := by
  rw [OpcodeRow.fits, and_mask_access]
  cases t.we <;> rfl

/-- Where no command row can match, the last three rows are told apart by WE and OFF. -/
theorem find_of_no_commandRow (h : ¬ (t.we = true ∧ t.off = 0x04 ∧ isCommandWord t.data = true)) :
    opcodeTable.find? (fun r => r.fits t) = some
      (match t.we, t.off == 0x04 with
       | false, _ => ⟨"REG_READ", 0x00000000000, 0x10000000000⟩
       | true, true => ⟨"CMD_ILLEGAL", 0x10400000000, 0x1FF00000000⟩
       | true, false => ⟨"REG_WRITE", 0x10000000000, 0x10000000000⟩) := by
  have hnone : commandRows.find? (fun r => r.fits t) = none :=
    List.find?_eq_none.2 fun r hr hfits => h (fields_of_commandRow_fits hr hfits)
  rw [opcodeTable_eq, List.find?_append, hnone, Option.none_or]
  simp only [List.find?_cons, cmdIllegalRow_fits, regWriteRow_fits, regReadRow_fits]
  cases t.we <;> cases t.off == 0x04 <;> rfl

/-- A write of a defined opcode to CMD is matched first by its instruction's row. -/
theorem find_of_command (hw : t.we = true) (ho : t.off = 0x04) (hc : isCommandWord t.data = true) :
    ∃ r, opcodeTable.find? (fun r => r.fits t) = some r ∧ r.mnemonic = (decodeCommand t.data).mnemonic := by
  rw [isCommandWord, List.contains_iff_mem] at hc
  obtain ⟨r, -, hfind, hname⟩ := find_definedOpcode _ hc
  rw [BitVec.ofNat_toNat, BitVec.setWidth_eq] at hname
  have ht : t.toNat = 0x10400000000 + t.data.toNat := by rw [toNat_eq_fields, hw, ho]; rfl
  rw [← ht] at hfind
  exact ⟨r, hfind, hname⟩

end

/-- Settles O3: the command rows match their own words only; the last three rows are told apart by WE and OFF. -/
theorem decodeTakesTheFirstMatchingRow : Obligations.DecodeTakesTheFirstMatchingRow := by
  intro t halign
  have ha : offsetAligned t.off = true := by simpa [offsetAligned] using halign
  by_cases hcmd : t.we = true ∧ t.off = 0x04 ∧ isCommandWord t.data = true
  · obtain ⟨hw, ho, hc⟩ := hcmd
    obtain ⟨r, hfind, hname⟩ := find_of_command hw ho hc
    exact ⟨_, r, decode_cmd hw ho, hfind, hname⟩
  · have hfind := find_of_no_commandRow hcmd
    cases hw : t.we with
    | false => exact ⟨_, _, decode_read ha hw, hfind, by rw [hw]; rfl⟩
    | true =>
      by_cases ho : t.off = 0x04
      · have hc : isCommandWord t.data = false := Bool.eq_false_iff.2 fun hc => hcmd ⟨hw, ho, hc⟩
        refine ⟨_, _, decode_cmd hw ho, hfind, ?_⟩
        rw [decodeCommand_of_undefined hc, hw, ho]
        rfl
      · exact ⟨_, _, decode_write ha hw ho, hfind, by rw [hw, beq_false_of_ne ho]; rfl⟩

/-- Settles O4: each word is the transaction of its instruction (R122). -/
theorem writtenOutWordsDecode : Obligations.WrittenOutWordsDecode :=
  ⟨decodeOfEncodeIsTheInstruction .kexpEnc rfl, decodeOfEncodeIsTheInstruction .decBlock rfl,
    decodeOfEncodeIsTheInstruction .resetMode rfl, decodeOfEncodeIsTheInstruction .ctrCrypt rfl,
    decodeOfEncodeIsTheInstruction (.cmdIllegal 0x101) rfl,
    decodeOfEncodeIsTheInstruction (.regWrite 0x60 0xf3f2f1f0) rfl,
    decodeOfEncodeIsTheInstruction (.regRead 0x08) rfl⟩

end Sys2Proof.Proofs

/-! PROOF. A command without DMA whose checks pass completes with the results of its rule, whatever the tape: INIT, and
the key expansions with the words of R147 and R148 (spec/40_key_schedule.md R150 to R152). -/

namespace Sys2Proof.Proofs

open Sys2Proof.Machine Sys2Proof.Claims Sys2Proof.Laws

/-- A command whose checks pass, whose rule gives `job` and which Mem answers runs to the completion of `job`, whatever
the tape. -/
theorem runs_of_effect {i : Instr} {w : Word} {s : State} {job : Job} (hw : commandWord i = some w)
    (hb : s.busy = false) (hc : firstError (checksOf i (s.accept w)) = .none)
    (he : effectOf i (s.accept w) = .next job) (ha : job.answers = true) :
    Runs i s w (inRun (s.accept w) job).complete := by
  refine ⟨{ job with left := s.stall.headD 0 }, rfl, ha, rfl, ?_⟩
  rw [exec_command hw, command_effect _ _ _ hb hc, he]
  rfl

/-- A job that succeeds without DMA leaves its working copies in the registers and changes nothing else (R301). -/
theorem runs_of_effect_registers {i : Instr} {w : Word} {s : State} {job : Job} (hw : commandWord i = some w)
    (hb : s.busy = false) (hc : firstError (checksOf i (s.accept w)) = .none)
    (he : effectOf i (s.accept w) = .next job) (ha : job.answers = true) (herror : job.error = .none)
    (hwrites : job.writes = []) :
    Runs i s w { completed s w .none with
      iv := job.iv, ks := job.ks, offset := job.offset, bout := job.bout, enc := job.enc, dec := job.dec
      tablesReady := job.tablesReady, pos := job.pos } := by
  have h := runs_of_effect hw hb hc he ha
  rw [inRun_complete _ job ha, finish_none _ job herror, hwrites, storeAll_nil] at h
  exact h

/-- Settles O9: INIT has no check, and its job sets TABLES_READY. -/
theorem initSetsTablesReady : Obligations.InitSetsTablesReady := by
  intro s hb
  exact runs_of_effect_registers (job := { (s.accept 0x01).workingCopies with tablesReady := true })
    rfl hb rfl rfl rfl rfl rfl

/-! ## The words of a key (R147, R148) -/

theorem byteAt_eq_getD {m : Nat} (v : Vector Byte m) (k : Nat) : byteAt v k = v.toList.getD k 0 := by
  simp [byteAt, List.getD_eq_getElem?_getD]

theorem roundKey_eq_roundKeyOf : roundKey = roundKeyOf := by
  funext ws r
  simp only [roundKey, roundKeyOf, byteAt_eq_getD]

/-- Rcon by its recursion and by its list (R144). -/
theorem rc_eq_roundConstant : ∀ j ≤ 10, 1 ≤ j → rc j = roundConstant j := by decide

/-- SubWord on Bytes (R146). -/
theorem subWord_eq (w : KeyWord) : subWord w = #v[sbox w[0], sbox w[1], sbox w[2], sbox w[3]] := by
  refine Vector.ext fun k hk => ?_
  interval_cases k <;> simp [subWord]

/-- The round constant changes Byte 0 only (R144). -/
theorem xorWord_rcon (a b c d : Byte) (j : Nat) : xorWord #v[a, b, c, d] (rcon j) = #v[a ^^^ rc j, b, c, d] := by
  simp [xorWord, rcon]

/-- The steps of R144 to R146 on Bytes, at the words where the list of round constants reaches. -/
theorem scheduleTemp_eq_temp {nk i : Nat} (hpos : 0 < nk) (hnk : nk ≤ i) (hi : i / nk ≤ 10) (prev : KeyWord) :
    scheduleTemp nk i prev = temp nk i prev := by
  simp only [scheduleTemp, temp, subWord_eq, xorWord_rcon, rc_eq_roundConstant _ hi (Nat.div_pos hnk hpos)]
  rfl

/-- The words that stood before an expansion stand where they stood. -/
theorem getD_reverse_expandFrom {nk n j : Nat} {ws : List KeyWord} (hj : j < ws.length) :
    (expandFrom nk n ws).reverse.getD j zeroWord = ws.getD (ws.length - 1 - j) zeroWord := by
  obtain ⟨new, h⟩ := expandFrom_suffix nk n ws
  rw [h, List.reverse_append, List.getD_append _ _ _ _ (by simpa using hj), List.getD_reverse _ hj]

/-- Every word an expansion adds is made of the word `nk` before it and the word before it (R148). -/
theorem expandFrom_recurrence {nk n i : Nat} {ws : List KeyWord} (hpos : 0 < nk) (hws : nk ≤ ws.length)
    (hi : ws.length ≤ i) (hn : i < ws.length + n) :
    (expandFrom nk n ws).reverse.getD i zeroWord =
      xorWord ((expandFrom nk n ws).reverse.getD (i - nk) zeroWord)
        (scheduleTemp nk i ((expandFrom nk n ws).reverse.getD (i - 1) zeroWord)) := by
  induction n generalizing ws with
  | zero => omega
  | succ n ih =>
    obtain rfl | hlt := hi.eq_or_lt
    · have hback : ws.length - 1 - (ws.length - nk) = nk - 1 := by omega
      have hprev : ws.length - 1 - (ws.length - 1) = 0 := by omega
      rw [getD_reverse_expandFrom (j := ws.length - nk) (by omega), hback,
        getD_reverse_expandFrom (j := ws.length - 1) (by omega), hprev, expandFrom, getD_reverse_expandFrom (by simp)]
      cases ws <;> simp
    · rw [expandFrom]
      exact ih (by simp; omega) (by simpa using hlt) (by simp; omega)

/-- The words of a key are its expansion. -/
theorem isExpansion_keyWords {nk nr : Nat} (hpos : 0 < nk) (hnk : nk ≤ 4 * nr + 4) (hnr : (4 * nr + 3) / nk ≤ 10)
    (key : KeyBytes) : IsExpansion nk nr key (keyWords nk nr key) where
  length := by
    simp only [keyWords, List.length_reverse, expandFrom_length, List.length_map, List.length_range]
    omega
  first i hi k hk := by
    rw [keyWords, getD_reverse_expandFrom (by simpa using hi), ← List.getD_reverse _ (by simpa using hi),
      List.reverse_reverse]
    simp [hi, hk, keyWord, byteAt]
  later i hi hlt := by
    have hlen : ((List.range nk).map (keyWord key)).reverse.length = nk := by simp
    rw [← scheduleTemp_eq_temp hpos hi ((Nat.div_le_div_right (by omega)).trans hnr)]
    exact expandFrom_recurrence hpos (by simp) (by simpa using hi) (by rw [hlen]; omega)

/-- KEYLEN is one of the six legal lengths, and `nk` and `nr` are its Nk and Nr (spec/30_encoding.md R115). -/
def LegalKeyLen (k : Word) (nk nr : Nat) : Prop :=
  (k = 16 ∨ k = 128) ∧ nk = 4 ∧ nr = 10 ∨ (k = 24 ∨ k = 192) ∧ nk = 6 ∧ nr = 12 ∨
    (k = 32 ∨ k = 256) ∧ nk = 8 ∧ nr = 14

section

variable {s : State} {nk nr : Nat} (h : LegalKeyLen s.keyLen nk nr)

include h

theorem keyParams_of_legal : keyParams s.keyLen = some (nk, nr) := by
  obtain ⟨hk | hk, rfl, rfl⟩ | ⟨hk | hk, rfl, rfl⟩ | ⟨hk | hk, rfl, rfl⟩ := h <;> rw [hk] <;> rfl

theorem keyLenParams_of_legal : s.keyLenParams = (nk, nr) := by
  rw [State.keyLenParams, keyParams_of_legal h, Option.getD_some]

/-- The words of a key of legal length are its expansion; the last round constant used is the tenth. -/
theorem isExpansion_of_legal (key : KeyBytes) : IsExpansion nk nr key (keyWords nk nr key) := by
  obtain ⟨-, rfl, rfl⟩ | ⟨-, rfl, rfl⟩ | ⟨-, rfl, rfl⟩ := h <;>
    exact isExpansion_keyWords (by decide) (by decide) (by decide) key

/-- A key expansion passes its checks where the tables are ready and KEYLEN is legal. -/
theorem keyExpansion_checks (ht : s.tablesReady = true) : firstError [s.tablesCheck, s.keyLenCheck] = .none := by
  rw [tablesCheck_of_ready ht, State.keyLenCheck, keyParams_of_legal h]
  rfl

end

/-- Settles O11: the checks pass, and the job's new encryption context is the schedule of the key's words. -/
theorem kexpEncBuildsTheEncryptionSchedule : Obligations.KexpEncBuildsTheEncryptionSchedule := by
  intro s nk nr hb ht h
  refine ⟨keyWords nk nr s.key, isExpansion_of_legal h s.key, ?_⟩
  have hruns := runs_of_effect_registers
    (job := { (s.accept 0x02).workingCopies with enc := encContext (s.accept 0x02).keyLenParams s.key })
    (i := .kexpEnc) rfl hb (keyExpansion_checks (s := s.accept 0x02) h ht) rfl rfl rfl rfl
  rw [keyLenParams_of_legal (s := s.accept 0x02) h] at hruns
  rw [← roundKey_eq_roundKeyOf]
  exact hruns

/-- Settles O12: the checks pass, and the job's new decryption context is the reversed schedule of the key's words. -/
theorem kexpDecBuildsTheDecryptionSchedule : Obligations.KexpDecBuildsTheDecryptionSchedule := by
  intro s nk nr hb ht h
  refine ⟨keyWords nk nr s.key, isExpansion_of_legal h s.key, ?_⟩
  have hruns := runs_of_effect_registers
    (job := { (s.accept 0x03).workingCopies with dec := decContext (s.accept 0x03).keyLenParams s.key })
    (i := .kexpDec) rfl hb (keyExpansion_checks (s := s.accept 0x03) h ht) rfl rfl rfl rfl
  rw [keyLenParams_of_legal (s := s.accept 0x03) h] at hruns
  rw [← roundKey_eq_roundKeyOf]
  exact hruns

end Sys2Proof.Proofs

/-! PROOF. TABLES_READY, ENC_VALID and DEC_VALID fall at a reset only (spec/40_key_schedule.md R143,
spec/10_state.md R36): no completion, instruction or other host event clears one. -/

namespace Sys2Proof.Proofs

open Sys2Proof.Machine Sys2Proof.Safety Sys2Proof.Laws

/-- No readiness bit falls from `s` to `t`. -/
structure ReadinessKept (s t : State) : Prop where
  tables : s.tablesReady = true → t.tablesReady = true
  enc : s.enc.valid = true → t.enc.valid = true
  dec : s.dec.valid = true → t.dec.valid = true

theorem ReadinessKept.trans {s t u : State} (h : ReadinessKept s t) (h' : ReadinessKept t u) : ReadinessKept s u :=
  ⟨h'.tables ∘ h.tables, h'.enc ∘ h.enc, h'.dec ∘ h.dec⟩

/-- A change of other registers and of the surroundings keeps readiness. -/
theorem readinessKept_of_eq {s t : State} (htables : t.tablesReady = s.tablesReady) (henc : t.enc = s.enc)
    (hdec : t.dec = s.dec) : ReadinessKept s t :=
  ⟨htables ▸ id, henc ▸ id, hdec ▸ id⟩

/-- A sound command's results clear no readiness bit. -/
theorem readinessKept_finish {s : State} {job : Job} (hj : JobOk s job) : ReadinessKept s (s.finish job) := by
  by_cases he : job.error = .none
  · rw [finish_none s job he]; exact ⟨hj.tablesStay, hj.encStays, hj.decStays⟩
  · rw [finish_error s job he]; exact readinessKept_of_eq rfl rfl rfl

theorem readinessKept_complete {s : State} (h : Inv s) : ReadinessKept s s.complete := by
  obtain hs | ⟨job, hp, -, hs⟩ := complete_cases s
  · rw [hs]; exact readinessKept_of_eq rfl rfl rfl
  · rw [hs]; exact readinessKept_finish (h.job job hp)

theorem readinessKept_tick {s : State} (h : Inv s) : ReadinessKept s s.tick := by
  obtain hs | hs | ⟨job, -, hs⟩ := tick_cases s
  · rw [hs]; exact readinessKept_of_eq rfl rfl rfl
  · rw [hs]; exact readinessKept_complete h
  · rw [hs]; exact readinessKept_of_eq rfl rfl rfl

theorem readinessKept_launch {s : State} {job : Job} (h : Inv s) (hj : JobOk s job) :
    ReadinessKept s (s.launch job) := by
  have hrun : ReadinessKept s (inRun s job) := readinessKept_of_eq rfl rfl rfl
  rw [launch_eq]
  split
  · exact hrun.trans (readinessKept_complete (inv_run h hj (s.stall.headD 0) s.stall.tail))
  · exact hrun

/-- No instruction clears a readiness bit: a register write does not reach them, and a command's job is sound. -/
theorem readinessKept_exec {i : Instr} {s t : State} (hw : i.wf = true) (hs : Inv s) (h : exec i s = .next t) :
    ReadinessKept s t := by
  obtain ⟨off, -, rfl⟩ | ⟨off, v, -, hwrite⟩ | ⟨w, -, hcmd⟩ := exec_cases hw h
  · exact readinessKept_of_eq rfl rfl rfl
  · obtain ⟨-, rfl⟩ | ⟨-, -, rfl⟩ | ⟨-, -, rfl⟩ := hwrite
    · rw [writeStatus_eq]; exact readinessKept_of_eq rfl rfl rfl
    · exact readinessKept_of_eq rfl rfl rfl
    · obtain ⟨-, henc, hdec, htables, -⟩ := writeReg_frame s v (regAt off)
      exact readinessKept_of_eq htables henc hdec
  · obtain ⟨-, rfl⟩ | ⟨-, job, rfl, hjob⟩ := hcmd
    · exact readinessKept_of_eq rfl rfl rfl
    · have ha : Inv (s.accept w) := inv_accept hs w
      have hjobOk : JobOk (s.accept w) job := by
        obtain ⟨hc, heff⟩ | ⟨e, -, -, rfl⟩ := hjob
        · exact jobOk_of_effect ha rfl hc heff
        · exact jobOk_of_error ha rfl e
      have haccept : ReadinessKept s (s.accept w) := readinessKept_of_eq rfl rfl rfl
      exact haccept.trans (readinessKept_launch ha hjobOk)

/-- No host event but a reset clears a readiness bit. -/
theorem readinessKept_serve {e : HostEvent} {s t : State} (hs : Inv s) (he : e ≠ .reset) (h : serve e s = .next t) :
    ReadinessKept s t := by
  obtain ⟨i, hw, -, hi⟩ | ⟨r, rfl⟩ | ⟨ws, d, c, n, r, -, -, rfl⟩ | ⟨m, -, rfl⟩ | ⟨hreset, -⟩ := serve_cases h
  · have hresponse : ReadinessKept s { s with response := .written } := readinessKept_of_eq rfl rfl rfl
    exact hresponse.trans (readinessKept_exec hw (inv_response hs .written) hi)
  · exact readinessKept_of_eq rfl rfl rfl
  · exact readinessKept_of_eq rfl rfl rfl
  · exact readinessKept_of_eq rfl rfl rfl
  · exact absurd hreset he

/-- Settles O51: the step is a completion, or what the sequencer does and then a host event; each keeps readiness. -/
theorem readinessFallsOnlyAtReset : Obligations.ReadinessFallsOnlyAtReset := by
  intro s t hs hreset h
  have hkept : ReadinessKept s t := by
    obtain ⟨-, rfl⟩ | ⟨e, rest, hinputs, he⟩ := step_cases h
    · exact readinessKept_complete hs
    · have hnot : e ≠ .reset := by rintro rfl; exact hreset (by rw [hinputs, List.head?_cons])
      have htick : Inv s.tick := inv_tick hs
      have htaken : Inv { s.tick with inputs := rest } :=
        inv_of_sameRegisters htick (sameRegisters_surroundings _ ..) htick.memory htick.caches
      have htake : ReadinessKept s.tick { s.tick with inputs := rest } := readinessKept_of_eq rfl rfl rfl
      exact ((readinessKept_tick hs).trans htake).trans (readinessKept_serve htaken hnot he)
  exact ⟨hkept.tables, hkept.enc, hkept.dec⟩

end Sys2Proof.Proofs

/-! PROOF. GF(2^8): multiplication is bilinear, so its laws follow from those of Bytes with one bit set
(spec/40_key_schedule.md R140); the S-box and the inverse it is made of (R141, R142). -/

namespace Sys2Proof.Proofs

open Sys2Proof.Machine Sys2Proof.Laws

/-! ## Additive maps -/

/-- The low `n + 1` bits of a Byte are its low `n` bits and bit `n`. -/
theorem setWidth_succ_eq_xor_twoPow (a : Byte) {n : Nat} (hn : n < 8) :
    (a.setWidth (n + 1)).setWidth 8 =
      (a.setWidth n).setWidth 8 ^^^ if a.getLsbD n then BitVec.twoPow 8 n else 0 := by
  refine BitVec.eq_of_getLsbD_eq fun i hi => ?_
  have hbit : (if a.getLsbD n then BitVec.twoPow 8 n else 0).getLsbD i = (decide (n = i) && a.getLsbD i) := by
    by_cases h : n = i
    · subst h; cases a.getLsbD n <;> simp [hn]
    · cases a.getLsbD n <;> simp [h]
  rw [BitVec.getLsbD_xor, hbit]
  obtain hlt | rfl | hgt := Nat.lt_trichotomy i n
  · simp [hi, hlt, hlt.ne', Nat.lt_succ_of_lt hlt]
  · simp [hi]
  · simp [hi, hgt.ne, hgt.not_gt, (Nat.succ_le_of_lt hgt).not_gt]

/-- Every Byte is a sum of Bytes with one bit set. -/
theorem byte_induction {P : Byte → Prop} (zero : P 0) (bit : ∀ k < 8, P (BitVec.twoPow 8 k))
    (xor : ∀ a b, P a → P b → P (a ^^^ b)) (a : Byte) : P a := by
  have hlow : ∀ n ≤ 8, P ((a.setWidth n).setWidth 8) := by
    intro n
    induction n with
    | zero => intro _; rw [BitVec.of_length_zero (x := a.setWidth 0)]; exact zero
    | succ n ih =>
      intro hn
      rw [setWidth_succ_eq_xor_twoPow a hn]
      refine xor _ _ (ih (Nat.le_of_succ_le hn)) ?_
      split
      · exact bit n hn
      · exact zero
  simpa using hlow 8 le_rfl

/-- Additive maps that agree on the Bytes with one bit set are equal. -/
theorem eq_of_additive {f g : Byte → Byte} (hf : ∀ a b, f (a ^^^ b) = f a ^^^ f b)
    (hg : ∀ a b, g (a ^^^ b) = g a ^^^ g b) (h : ∀ k < 8, f (BitVec.twoPow 8 k) = g (BitVec.twoPow 8 k)) (a : Byte) :
    f a = g a := by
  induction a using byte_induction with
  | zero =>
    have hf0 : f 0 = 0 := by simpa using hf 0 0
    have hg0 : g 0 = 0 := by simpa using hg 0 0
    rw [hf0, hg0]
  | bit k hk => exact h k hk
  | xor a b ha hb => rw [hf, hg, ha, hb]

/-! ## The laws of multiplication (R140) -/

/-- xtime in nine bits, folded by the field's polynomial. -/
theorem xtime_eq_fold (a : Byte) :
    xtime a = ((a.setWidth 9 <<< 1) ^^^ (if a.getLsbD 7 then 0x11B else 0)).setWidth 8 := by
  rw [BitVec.setWidth_xor, BitVec.setWidth_shiftLeft_of_le (by decide), BitVec.setWidth_setWidth_of_le _ (by decide),
    BitVec.setWidth_eq, xtime]
  split <;> rfl

theorem gfMul_xor_right (a b c : Byte) : gfMul a (b ^^^ c) = gfMul a b ^^^ gfMul a c := by
  simpa [gfMul] using gfMulFrom_xor_right 8 a b c 0 0

/-- The Bytes with one bit set commute, so all do. -/
theorem gfMul_comm (a b : Byte) : gfMul a b = gfMul b a := by
  have hbits : ∀ i < 8, ∀ k < 8, gfMul (BitVec.twoPow 8 i) (BitVec.twoPow 8 k) =
      gfMul (BitVec.twoPow 8 k) (BitVec.twoPow 8 i) := by decide
  have hbit : ∀ k < 8, ∀ a, gfMul a (BitVec.twoPow 8 k) = gfMul (BitVec.twoPow 8 k) a := fun k hk =>
    eq_of_additive (f := (gfMul · _)) (fun a b => gfMul_xor_left a _ b) (gfMul_xor_right _) fun i hi => hbits i hi k hk
  exact eq_of_additive (g := (gfMul · a)) (gfMul_xor_right a) (fun b c => gfMul_xor_left b a c)
    (fun k hk => hbit k hk a) b

theorem gfMul_one (a : Byte) : gfMul a 1 = a := by
  simp [gfMul, gfMulFrom]

theorem gfMul_zero (a : Byte) : gfMul a 0 = 0 := by
  simp [gfMul, gfMulFrom]

theorem gfMul_two (a : Byte) : gfMul a 2 = xtime a := by
  simp [gfMul, gfMulFrom]

/-- Doubling passes through the rounds of the product. -/
theorem gfMulFrom_xtime (n : Nat) (a b r : Byte) : gfMulFrom n (xtime a) b (xtime r) = xtime (gfMulFrom n a b r) := by
  induction n generalizing a b r with
  | zero => rfl
  | succ n ih =>
    rw [gfMulFrom, gfMulFrom, ← ih]
    split
    · rw [xtime_xor]
    · rfl

theorem gfMul_xtime_left (a b : Byte) : gfMul (xtime a) b = xtime (gfMul a b) :=
  gfMulFrom_xtime 8 a b 0

theorem gfMul_xtime_right (a b : Byte) : gfMul a (xtime b) = xtime (gfMul a b) := by
  rw [gfMul_comm, gfMul_xtime_left, gfMul_comm]

/-- A Byte with one bit set is 1 doubled. -/
theorem twoPow_succ_eq_xtime : ∀ k < 7, BitVec.twoPow 8 (k + 1) = xtime (BitVec.twoPow 8 k) := by decide

/-- Multiplication by a Byte with one bit set is doubling, which passes through a product. -/
theorem gfMul_assoc_twoPow (a b : Byte) {k : Nat} (hk : k < 8) :
    gfMul (gfMul a b) (BitVec.twoPow 8 k) = gfMul a (gfMul b (BitVec.twoPow 8 k)) := by
  induction k with
  | zero =>
    show gfMul (gfMul a b) 1 = gfMul a (gfMul b 1)
    rw [gfMul_one, gfMul_one]
  | succ k ih =>
    rw [twoPow_succ_eq_xtime k (by omega), gfMul_xtime_right, gfMul_xtime_right, gfMul_xtime_right, ih (by omega)]

theorem gfMul_assoc (a b c : Byte) : gfMul (gfMul a b) c = gfMul a (gfMul b c) :=
  eq_of_additive (g := fun c => gfMul a (gfMul b c)) (gfMul_xor_right _)
    (fun c d => by rw [gfMul_xor_right, gfMul_xor_right])
    (fun _ hk => gfMul_assoc_twoPow a b hk) c

/-! ## Inverses and the S-box (R141, R142) -/

/-- The affine map of R141. -/
def affineMap (b : Byte) : Byte :=
  b ^^^ b.rotateLeft 1 ^^^ b.rotateLeft 2 ^^^ b.rotateLeft 3 ^^^ b.rotateLeft 4 ^^^ 0x63

/-- The Byte whose affine image is SBOX[a]. -/
def inverseOf (a : Byte) : Byte :=
  (sbox a).rotateLeft 1 ^^^ (sbox a).rotateLeft 3 ^^^ (sbox a).rotateLeft 6 ^^^ 0x05

/-- The table, Byte by Byte: SBOX[a] is the affine image of a Byte that is the inverse of `a`, and INVSBOX undoes it. -/
theorem sbox_table : ∀ a : Byte, sbox a = affineMap (inverseOf a) ∧ (a ≠ 0 → gfMul a (inverseOf a) = 1) ∧
    invSbox (sbox a) = a := by decide +kernel

theorem gfMul_inverse_unique {a b c : Byte} (hb : gfMul a b = 1) (hc : gfMul a c = 1) : c = b :=
  calc c = gfMul c (gfMul a b) := by rw [hb, gfMul_one]
    _ = gfMul (gfMul a c) b := by rw [← gfMul_assoc, gfMul_comm c a]
    _ = b := by rw [hc, gfMul_comm, gfMul_one]

/-- Settles O54: the inverse is read off the table. -/
theorem sboxIsTheAffineImageOfTheInverse : Obligations.SboxIsTheAffineImageOfTheInverse := by
  refine ⟨rfl, fun a ha => ?_, fun a => ?_⟩
  · obtain ⟨haffine, hinverse, -⟩ := sbox_table a
    exact ⟨inverseOf a, hinverse ha, haffine⟩
  · obtain ⟨-, -, hinv⟩ := sbox_table a
    exact hinv

/-- Settles O55: associativity makes the inverse the only one. -/
theorem fieldMultiplicationLaws : Obligations.FieldMultiplicationLaws := by
  refine ⟨xtime_eq_fold, fun a b c => ?_, fun a ha => ?_⟩
  · exact ⟨gfMul_comm a b, gfMul_assoc a b c, gfMul_one a, gfMul_zero a, (gfMul_comm 2 a).trans (gfMul_two a),
      gfMul_xor_right a b c⟩
  · obtain ⟨-, hinverse, -⟩ := sbox_table a
    exact ⟨inverseOf a, hinverse ha, fun c hc => gfMul_inverse_unique (hinverse ha) hc⟩

end Sys2Proof.Proofs

/-! PROOF. The round transforms of the block core by their lists and matrices (spec/41_block_core.md R182, R183, R187,
R188): the column matrices are circulants, so their product is one, and MixColumns' and InvMixColumns' is the identity. -/

namespace Sys2Proof.Proofs

open Sys2Proof.Machine Sys2Proof.Laws

/-! ## ShiftRows and InvShiftRows -/

/-- The Bytes of a Block in the order of R180. -/
theorem ofState_toList (f : Nat → Nat → Byte) : (ofState f).toList =
    [f 0 0, f 1 0, f 2 0, f 3 0, f 0 1, f 1 1, f 2 1, f 3 1, f 0 2, f 1 2, f 2 2, f 3 2, f 0 3, f 1 3, f 2 3, f 3 3] :=
  rfl

theorem stateAt_eq_getD (s : Block) (r c : Nat) : stateAt s r c = s.toList.getD (r % 4 + 4 * (c % 4)) 0 :=
  (block_getD s _).symm

theorem shiftRows_toList (s : Block) : (shiftRows s).toList =
    [0, 5, 10, 15, 4, 9, 14, 3, 8, 13, 2, 7, 12, 1, 6, 11].map (s.toList.getD · 0) := by
  simp only [shiftRows, ofState_toList, stateAt_eq_getD]
  rfl

theorem invShiftRows_toList (s : Block) : (invShiftRows s).toList =
    [0, 13, 10, 7, 4, 1, 14, 11, 8, 5, 2, 15, 12, 9, 6, 3].map (s.toList.getD · 0) := by
  simp only [invShiftRows, ofState_toList, stateAt_eq_getD]
  rfl

/-! ## MixColumns and InvMixColumns -/

theorem gfMul_one_left (a : Byte) : gfMul 1 a = a := (gfMul_comm 1 a).trans (gfMul_one a)

theorem gfMul_zero_left (a : Byte) : gfMul 0 a = 0#8 := (gfMul_comm 0 a).trans (gfMul_zero a)

/-- A row of a matrix times a column. -/
def dot (m₀ m₁ m₂ m₃ x y z w : Byte) : Byte := gfMul m₀ x ^^^ gfMul m₁ y ^^^ gfMul m₂ z ^^^ gfMul m₃ w

theorem dot_one (x y z w : Byte) : dot 1 0 0 0 x y z w = x := by
  simp only [dot, gfMul_one_left, gfMul_zero_left, BitVec.xor_zero]

/-- The row of the product of two circulants. -/
theorem dot_dot (n₀ n₁ n₂ n₃ m₀ m₁ m₂ m₃ x y z w : Byte) :
    dot n₀ n₁ n₂ n₃ (dot m₀ m₁ m₂ m₃ x y z w) (dot m₀ m₁ m₂ m₃ y z w x) (dot m₀ m₁ m₂ m₃ z w x y)
        (dot m₀ m₁ m₂ m₃ w x y z) =
      dot (dot n₀ n₁ n₂ n₃ m₀ m₃ m₂ m₁) (dot n₀ n₁ n₂ n₃ m₁ m₀ m₃ m₂) (dot n₀ n₁ n₂ n₃ m₂ m₁ m₀ m₃)
        (dot n₀ n₁ n₂ n₃ m₃ m₂ m₁ m₀) x y z w := by
  simp only [dot, gfMul_xor_right, gfMul_xor_left, gfMul_assoc]
  ac_rfl

/-- Every column multiplied by the matrix whose row r is `m₀ m₁ m₂ m₃` rotated right by r. -/
def circulant (m₀ m₁ m₂ m₃ : Byte) (s : Block) : Block := ofState fun r c =>
  dot m₀ m₁ m₂ m₃ (stateAt s r c) (stateAt s (r + 1) c) (stateAt s (r + 2) c) (stateAt s (r + 3) c)

theorem mixColumns_eq_circulant : mixColumns = circulant 2 3 1 1 := by
  funext s
  simp only [mixColumns, circulant, dot, gfMul_one_left]

theorem invMixColumns_eq_circulant : invMixColumns = circulant 0xe 0xb 0xd 0x9 := rfl

theorem stateAt_congr (s : Block) {r r' : Nat} (c : Nat) (h : r % 4 = r' % 4) : stateAt s r c = stateAt s r' c := by
  simp only [stateAt, h]

theorem stateAt_circulant (m₀ m₁ m₂ m₃ : Byte) (s : Block) (r c : Nat) : stateAt (circulant m₀ m₁ m₂ m₃ s) r c =
    dot m₀ m₁ m₂ m₃ (stateAt s r c) (stateAt s (r + 1) c) (stateAt s (r + 2) c) (stateAt s (r + 3) c) := by
  rw [circulant, stateAt_ofState]
  simp only [stateAt, Nat.mod_add_mod, Nat.mod_mod]

theorem circulant_one (s : Block) : circulant 1 0 0 0 s = s := by
  simp only [circulant, dot_one]
  exact ofState_stateAt s

/-- Circulants multiply as their first rows do. -/
theorem circulant_circulant (n₀ n₁ n₂ n₃ m₀ m₁ m₂ m₃ : Byte) (s : Block) :
    circulant n₀ n₁ n₂ n₃ (circulant m₀ m₁ m₂ m₃ s) =
      circulant (dot n₀ n₁ n₂ n₃ m₀ m₃ m₂ m₁) (dot n₀ n₁ n₂ n₃ m₁ m₀ m₃ m₂) (dot n₀ n₁ n₂ n₃ m₂ m₁ m₀ m₃)
        (dot n₀ n₁ n₂ n₃ m₃ m₂ m₁ m₀) s := by
  refine ofState_congr fun r _ c _ => ?_
  rw [← dot_dot]
  simp only [stateAt_circulant, Nat.add_assoc]
  rw [stateAt_congr s c (Nat.add_mod_right r 4), stateAt_congr s c (Nat.add_mod_right (r + 1) 4),
    stateAt_congr s c (Nat.add_mod_right (r + 2) 4)]

/-- The first row of the product of the two matrices is 1 0 0 0. -/
theorem invMixColumns_mixColumns (s : Block) : invMixColumns (mixColumns s) = s := by
  rw [invMixColumns_eq_circulant, mixColumns_eq_circulant, circulant_circulant]
  exact circulant_one s

/-- Circulants commute: the product the other way round is 1 0 0 0 too. -/
theorem mixColumns_invMixColumns (s : Block) : mixColumns (invMixColumns s) = s := by
  rw [invMixColumns_eq_circulant, mixColumns_eq_circulant, circulant_circulant]
  exact circulant_one s

theorem getD_of_lt (s : Block) {r c : Nat} (hr : r < 4) (hc : c < 4) :
    s.toList.getD (r + 4 * c) 0 = stateAt s r c := by
  rw [stateAt_eq_getD, Nat.mod_eq_of_lt hr, Nat.mod_eq_of_lt hc]

/-- Settles O56: both column transforms are circulants, whose rows are rotations of the first; the sums differ from the
matrices' in the order of their terms. -/
theorem rowAndColumnTransformsFollowTheirMatrices : Obligations.RowAndColumnTransformsFollowTheirMatrices := by
  refine ⟨fun s => ⟨shiftRows_toList s, invShiftRows_toList s⟩, fun s c hc => ?_, invMixColumns_mixColumns⟩
  have h4 : stateAt s 4 c = stateAt s 0 c := stateAt_congr s c rfl
  have h5 : stateAt s 5 c = stateAt s 1 c := stateAt_congr s c rfl
  have h6 : stateAt s 6 c = stateAt s 2 c := stateAt_congr s c rfl
  simp only [getD_of_lt _ (show 0 < 4 by decide) hc, getD_of_lt _ (show 1 < 4 by decide) hc,
    getD_of_lt _ (show 2 < 4 by decide) hc, getD_of_lt _ (show 3 < 4 by decide) hc, mixColumns_eq_circulant,
    invMixColumns_eq_circulant, stateAt_circulant, dot, gfMul_one_left, Nat.reduceAdd, h4, h5, h6, true_and]
  refine ⟨?_, ?_, ?_, ?_, ?_, ?_⟩ <;> ac_rfl

end Sys2Proof.Proofs

/-! PROOF. The two ciphers are their round sequences (spec/41_block_core.md R185, R189), and with both schedules of one
key each inverts the other (R190): Cipher is a permutation of the Blocks, the literal inverse sequence is its inverse, and
EqInvCipher with the transformed schedule is that sequence. -/

namespace Sys2Proof.Proofs

open Sys2Proof.Machine Sys2Proof.Claims Sys2Proof.Laws

/-! ## Round sequences -/

/-- The cipher state after `n` rounds from `s`, with the round keys 1 to `n`. -/
def stateAfter (round : Block → Block → Block) (rk : Nat → Block) (s : Block) : Nat → Block
  | 0 => s
  | n + 1 => round (stateAfter round rk s n) (rk (n + 1))

theorem foldl_rounds (round : Block → Block → Block) (rk : Nat → Block) (s : Block) (n : Nat) :
    (List.range' 1 n).foldl (fun s r => round s (rk r)) s = stateAfter round rk s n := by
  induction n with
  | zero => rfl
  | succ n ih => rw [List.range'_1_concat, List.foldl_append, ih, Nat.add_comm 1 n]; rfl

theorem stateAfter_of_pos (round : Block → Block → Block) (rk : Nat → Block) (s : Block) {r : Nat} (h : 1 ≤ r) :
    stateAfter round rk s r = round (stateAfter round rk s (r - 1)) (rk r) := by
  obtain ⟨n, rfl⟩ := Nat.exists_eq_add_of_le' h
  rfl

theorem cipher_eq (rk : Nat → Block) (nr : Nat) (b : Block) : cipher rk nr b =
    addRoundKey (shiftRows (subBytes (stateAfter encRound rk (addRoundKey b (rk 0)) (nr - 1)))) (rk nr) := by
  rw [cipher, foldl_rounds]

theorem eqInvCipher_eq (dk : Nat → Block) (nr : Nat) (b : Block) : eqInvCipher dk nr b =
    addRoundKey (invShiftRows (invSubBytes (stateAfter decRound dk (addRoundKey b (dk 0)) (nr - 1)))) (dk nr) := by
  rw [eqInvCipher, foldl_rounds]

/-- Settles O57: the states asked for are `stateAfter` each round; the final round stands apart in both ciphers. -/
theorem ciphersFollowTheirRounds : Obligations.CiphersFollowTheirRounds := by
  intro rk nr b _
  exact ⟨⟨stateAfter encRound rk (addRoundKey b (rk 0)), rfl, fun r h _ => stateAfter_of_pos _ _ _ h, cipher_eq rk nr b⟩,
    stateAfter decRound rk (addRoundKey b (rk 0)), rfl, fun r h _ => stateAfter_of_pos _ _ _ h, eqInvCipher_eq rk nr b⟩

/-! ## Cipher as a permutation, InvCipher as its inverse -/

theorem sbox_invSbox : ∀ a : Byte, sbox (invSbox a) = a := by decide +kernel

theorem invSbox_sbox (a : Byte) : invSbox (sbox a) = a := by
  obtain ⟨-, -, h⟩ := sbox_table a
  exact h

theorem subBytes_invSubBytes (s : Block) : subBytes (invSubBytes s) = s := by
  simp [subBytes, invSubBytes, Function.comp_def, sbox_invSbox]

theorem invSubBytes_subBytes (s : Block) : invSubBytes (subBytes s) = s := by
  simp [subBytes, invSubBytes, Function.comp_def, invSbox_sbox]

/-- SubBytes and ShiftRows. -/
def subShift : Equiv.Perm Block where
  toFun s := shiftRows (subBytes s)
  invFun s := invSubBytes (invShiftRows s)
  left_inv s := (congrArg invSubBytes (invShiftRows_shiftRows _)).trans (invSubBytes_subBytes s)
  right_inv s := (congrArg shiftRows (subBytes_invSubBytes _)).trans (shiftRows_invShiftRows s)

/-- AddRoundKey, its own inverse. -/
def keyPerm (k : Block) : Equiv.Perm Block where
  toFun s := addRoundKey s k
  invFun s := addRoundKey s k
  left_inv s := xorBlock_cancel s k
  right_inv s := xorBlock_cancel s k

/-- MixColumns. -/
def mixPerm : Equiv.Perm Block := ⟨mixColumns, invMixColumns, invMixColumns_mixColumns, mixColumns_invMixColumns⟩

/-- The first `n` full rounds of Cipher. -/
def roundsPerm (rk : Nat → Block) : Nat → Equiv.Perm Block
  | 0 => Equiv.refl Block
  | n + 1 => (roundsPerm rk n).trans (subShift.trans (mixPerm.trans (keyPerm (rk (n + 1)))))

theorem roundsPerm_apply (rk : Nat → Block) (s : Block) (n : Nat) : roundsPerm rk n s = stateAfter encRound rk s n := by
  induction n with
  | zero => rfl
  | succ n ih => rw [stateAfter, ← ih]; rfl

/-- Cipher. -/
def cipherPerm (rk : Nat → Block) (nr : Nat) : Equiv.Perm Block :=
  (keyPerm (rk 0)).trans ((roundsPerm rk (nr - 1)).trans (subShift.trans (keyPerm (rk nr))))

theorem cipherPerm_apply (rk : Nat → Block) (nr : Nat) (b : Block) : cipherPerm rk nr b = cipher rk nr b := by
  rw [cipher_eq]
  exact congrArg (fun s => addRoundKey (shiftRows (subBytes s)) (rk nr)) (roundsPerm_apply rk _ _)

/-- A round of InvCipher (R190). -/
def invRound (ek : Nat → Block) (r : Nat) (s : Block) : Block :=
  invMixColumns (addRoundKey (invSubBytes (invShiftRows s)) (ek r))

/-- The rounds of InvCipher, from `n` down to 1, and what follows them undo the first `n` rounds of Cipher. -/
theorem subShift_symm_invRounds (ek : Nat → Block) (n : Nat) (s : Block) :
    subShift.symm ((List.range' 1 n).foldr (invRound ek) s) = (roundsPerm ek n).symm (subShift.symm s) := by
  induction n generalizing s with
  | zero => rfl
  | succ n ih =>
    rw [List.range'_1_concat, List.foldr_append, List.foldr_cons, List.foldr_nil, ih, Nat.add_comm 1 n]
    rfl

theorem cipherPerm_symm_apply (ek : Nat → Block) (nr : Nat) (b : Block) :
    (cipherPerm ek nr).symm b = invCipher ek nr b :=
  congrArg (addRoundKey · (ek 0)) (subShift_symm_invRounds ek (nr - 1) (addRoundKey b (ek nr))).symm

theorem invCipher_cipher (ek : Nat → Block) (nr : Nat) (b : Block) : invCipher ek nr (cipher ek nr b) = b := by
  rw [← cipherPerm_apply, ← cipherPerm_symm_apply, Equiv.symm_apply_apply]

theorem cipher_invCipher (ek : Nat → Block) (nr : Nat) (b : Block) : cipher ek nr (invCipher ek nr b) = b := by
  rw [← cipherPerm_apply, ← cipherPerm_symm_apply, Equiv.apply_symm_apply]

/-! ## EqInvCipher with the transformed schedule -/

theorem dot_xor (m₀ m₁ m₂ m₃ x y z w x' y' z' w' : Byte) :
    dot m₀ m₁ m₂ m₃ (x ^^^ x') (y ^^^ y') (z ^^^ z') (w ^^^ w') =
      dot m₀ m₁ m₂ m₃ x y z w ^^^ dot m₀ m₁ m₂ m₃ x' y' z' w' := by
  simp only [dot, gfMul_xor_right]
  ac_rfl

theorem stateAt_xorBlock (s k : Block) (r c : Nat) : stateAt (xorBlock s k) r c = stateAt s r c ^^^ stateAt k r c := by
  simp [stateAt, xorBlock]

theorem ofState_xor (f g : Nat → Nat → Byte) :
    ofState (fun r c => f r c ^^^ g r c) = xorBlock (ofState f) (ofState g) := by
  refine Vector.ext fun k hk => ?_
  simp [ofState, xorBlock]

/-- InvMixColumns passes through AddRoundKey, which is why the schedule is transformed (R152). -/
theorem invMixColumns_addRoundKey (s k : Block) :
    invMixColumns (addRoundKey s k) = addRoundKey (invMixColumns s) (invMixColumns k) := by
  rw [addRoundKey, addRoundKey, invMixColumns_eq_circulant, circulant, circulant, circulant, ← ofState_xor]
  simp only [stateAt_xorBlock, dot_xor]

theorem decRound_invMixColumns (ek : Nat → Block) (r : Nat) (s : Block) :
    decRound s (invMixColumns (ek r)) = invRound ek r s := by
  rw [decRound, invRound, invShiftRows_invSubBytes, invMixColumns_addRoundKey]

/-- `dk` is the decryption schedule of the encryption schedule `ek`: reversed, with InvMixColumns on the inner rows
(R152). -/
structure IsDecSchedule (ek dk : Nat → Block) (nr : Nat) : Prop where
  first : dk 0 = ek nr
  inner : ∀ r, 0 < r → r < nr → dk r = invMixColumns (ek (nr - r))
  last : dk nr = ek 0

/-- The rounds of EqInvCipher are those of InvCipher. -/
theorem foldl_decRound {ek dk : Nat → Block} {nr : Nat} (h : IsDecSchedule ek dk nr) (s : Block) :
    (List.range' 1 (nr - 1)).foldl (fun s r => decRound s (dk r)) s = (List.range' 1 (nr - 1)).foldr (invRound ek) s := by
  rw [List.foldr_eq_foldl_reverse, List.reverse_range', List.range'_eq_map_range, List.foldl_map, List.foldl_map]
  refine List.foldl_ext _ _ _ fun t i hi => ?_
  have hi' : i < nr - 1 := List.mem_range.1 hi
  rw [h.inner (1 + i) (by omega) (by omega), decRound_invMixColumns, show nr - (1 + i) = 1 + (nr - 1) - 1 - i by omega]

theorem eqInvCipher_eq_invCipher {ek dk : Nat → Block} {nr : Nat} (h : IsDecSchedule ek dk nr) (b : Block) :
    eqInvCipher dk nr b = invCipher ek nr b := by
  rw [eqInvCipher, foldl_decRound h, h.first, h.last, invShiftRows_invSubBytes]
  rfl

theorem encContext_row {p : Nat × Nat} (h : p.2 < 15) (key : KeyBytes) {r : Nat} (hr : r ≤ p.2) :
    (encContext p key).row r = roundKey (keyWords p.1 p.2 key) r := by
  simp [encContext, Context.row, encSchedule, hr, hr.trans_lt h]

/-- The two schedules of one key (R151, R152). -/
theorem isDecSchedule_of_key {p : Nat × Nat} (h : p.2 < 15) (hpos : 0 < p.2) (key : KeyBytes) :
    IsDecSchedule (encContext p key).row (decContext p key).row p.2 where
  first := by
    rw [encContext_row h key le_rfl]
    simp [decContext, Context.row, decSchedule]
  inner r hr hlt := by
    rw [encContext_row h key (Nat.sub_le _ _)]
    simp [decContext, Context.row, decSchedule, hlt.trans h, hr.ne', hlt]
  last := by
    rw [encContext_row h key (Nat.zero_le _)]
    simp [decContext, Context.row, decSchedule, h, hpos.ne']

section

variable {s : State} {p : Nat × Nat} (hp : p ∈ [(4, 10), (6, 12), (8, 14)])

include hp

theorem rounds_pos_lt : 0 < p.2 ∧ p.2 < 15 := by
  revert p; decide

variable (he : s.enc = encContext p s.key)

include he

theorem encrypt_eq_cipher (b : Block) : s.encrypt b = cipher s.enc.row p.2 b := by
  have hnr : s.enc.nr.toNat = p.2 := by
    rw [he]
    exact Nat.mod_eq_of_lt ((rounds_pos_lt hp).2.trans (by decide))
  rw [State.encrypt, hnr]

variable (hd : s.dec = decContext p s.key)

include hd

theorem decrypt_eq_invCipher (b : Block) : s.decrypt b = invCipher s.enc.row p.2 b := by
  obtain ⟨hpos, hlt⟩ := rounds_pos_lt hp
  have hnr : s.dec.nr.toNat = p.2 := by
    rw [hd]
    exact Nat.mod_eq_of_lt (hlt.trans (by decide))
  rw [State.decrypt, hnr, he, hd, eqInvCipher_eq_invCipher (isDecSchedule_of_key hlt hpos s.key)]

theorem decrypt_encrypt (b : Block) : s.decrypt (s.encrypt b) = b := by
  rw [encrypt_eq_cipher hp he, decrypt_eq_invCipher hp he hd, invCipher_cipher]

theorem encrypt_decrypt (b : Block) : s.encrypt (s.decrypt b) = b := by
  rw [encrypt_eq_cipher hp he, decrypt_eq_invCipher hp he hd, cipher_invCipher]

end

/-- Settles O58: D is the literal inverse sequence of E's schedule. -/
theorem decryptionInvertsEncryption : Obligations.DecryptionInvertsEncryption := by
  intro s p b hp he hd
  exact ⟨decrypt_encrypt hp he hd b, encrypt_decrypt hp he hd b, decrypt_eq_invCipher hp he hd b⟩

end Sys2Proof.Proofs

/-! PROOF. CBC_DEC undoes CBC_ENC where D undoes E (spec/42_modes.md R225, R226; spec/41_block_core.md R190). -/

namespace Sys2Proof.Proofs

open Sys2Proof.Machine Sys2Proof.Laws

/-- The whole Blocks of a sequence written out are the sequence. -/
theorem flatMap_blocksOf {x : List Byte} (h : x.length % 16 = 0) : (blocksOf x).flatMap (·.toList) = x := by
  refine List.ext_getElem (by rw [length_flatMap_toList, blocksOf_length]; omega) fun i hi hx => ?_
  rw [← List.getD_eq_getElem _ 0 hi, ← List.getD_eq_getElem _ 0 hx,
    getD_flatMap_toList _ (by rwa [length_flatMap_toList] at hi), blocksOf_getD (by omega),
    block_getD _ (Nat.mod_lt _ (by decide)), blockOf, Vector.getElem_ofFn, Nat.div_add_mod]

/-- Both directions chain on the enciphered Blocks, so they end in the same IV. -/
theorem blockRun_cbcDec_cbcEnc {e d : Block → Block} (hde : ∀ b, d (e b) = b) (iv : Block) (bs : List Block) :
    blockRun (cbcDecUnit d) iv (blockRun (cbcEncUnit e) iv bs).2 = ((blockRun (cbcEncUnit e) iv bs).1, bs) := by
  induction bs generalizing iv with
  | nil => rfl
  | cons b bs ih => simp only [blockRun, cbcEncUnit, cbcDecUnit, ih, hde, xorBlock_cancel]

/-- Settles O59: the output's Blocks are the enciphered ones, D gives each input Block back, and they make up `x`. -/
theorem cbcDecInvertsCbcEnc : Obligations.CbcDecInvertsCbcEnc := by
  intro s p m x hp he hd hx
  simp only [cbcDecMode, cbcEncMode, blockMode, blocksOf_flatMap,
    blockRun_cbcDec_cbcEnc (decrypt_encrypt hp he hd), flatMap_blocksOf hx]

end Sys2Proof.Proofs

/-! PROOF. ENC_BLOCK and DEC_BLOCK: a job whose only new value is BOUT (spec/41_block_core.md R191, R192). -/

namespace Sys2Proof.Proofs

open Sys2Proof.Machine Sys2Proof.Laws

theorem row_eq_getD (c : Context) : c.row = fun r => c.rows.toList.getD r Block.zero := by
  funext r
  simp [Context.row, List.getD_eq_getElem?_getD]

/-- A block command passes its checks where the tables and its context are ready. -/
theorem blockCommand_checks {s : State} {c : Context} (ht : s.tablesReady = true) (hc : c.valid = true) :
    firstError [s.tablesCheck, c.check] = .none := by
  rw [tablesCheck_of_ready ht, check_of_valid hc]
  rfl

/-- Settles O13: the checks pass, and the job's BOUT is E of BIN. -/
theorem encBlockEnciphersBin : Obligations.EncBlockEnciphersBin := by
  intro s hb ht hc
  rw [← row_eq_getD]
  exact runs_of_effect_registers (job := { (s.accept 0x04).workingCopies with bout := s.encrypt s.bin })
    rfl hb (blockCommand_checks (s := s.accept 0x04) ht hc) rfl rfl rfl rfl

/-- Settles O14: the checks pass, and the job's BOUT is D of BIN. -/
theorem decBlockDeciphersBin : Obligations.DecBlockDeciphersBin := by
  intro s hb ht hc
  rw [← row_eq_getD]
  exact runs_of_effect_registers (job := { (s.accept 0x05).workingCopies with bout := s.decrypt s.bin })
    rfl hb (blockCommand_checks (s := s.accept 0x05) ht hc) rfl rfl rfl rfl

end Sys2Proof.Proofs

/-! PROOF. A mode command that Mem serves runs to its rule's result (spec/42_modes.md R220, spec/20_memory.md R98): the
completed state, its registers and its memory, said once for all eight; with LEN = 0 that is no change (R237). RESET_MODE (R236). -/

namespace Sys2Proof.Proofs

open Sys2Proof.Machine Sys2Proof.Claims Sys2Proof.Laws

/-- Settles O10: RESET_MODE has no check, and its job clears OFFSET. -/
theorem resetModeClearsOffset : Obligations.ResetModeClearsOffset := by
  intro s hb
  exact runs_of_effect_registers (job := { (s.accept 0x06).workingCopies with offset := 0 }) rfl hb rfl rfl rfl rfl rfl

/-! ## The DMA succeeds -/

/-- Mem answers every read of the source range with a Byte and accepts every write of the destination range: the premise
`DmaReady.answers` (R88). -/
def AnswersAll (s : State) : Prop :=
  ∀ i < s.len.toNat, s.platform.onRead (s.src + BitVec.ofNat 32 i) = .ordinary ∧
    s.platform.onWrite (s.dst + BitVec.ofNat 32 i) = .ordinary

/-- A command all of whose accesses are answered so can meet no other answer. -/
theorem canMeet_of_answersAll {s : State} {needs} {w : Answer} (hw : w ≠ .ordinary) (h : AnswersAll s) :
    s.canMeet needs w = false := by
  rw [← Bool.not_eq_true, canMeet_iff]
  rintro ⟨i, hi, hread | ⟨hwrite, -⟩⟩
  · exact hw (hread.symm.trans (h i hi).1)
  · exact hw (hwrite.symm.trans (h i hi).2)

/-- A mode command succeeds under the premises of R98; what memory holds does not matter. -/
theorem dmaEffect_of_answersAll {mode needs} {s : State} (ho : NoPartialOverlap s) (hv : StoresVisible s)
    (hd : ¬ ReachesDevice s) (h : AnswersAll s) :
    dmaEffect mode needs s = .next (s.modeJob (mode s)) := by
  rw [noPartialOverlap_iff] at ho
  rw [storesVisible_iff] at hv
  rw [reachesDevice_iff, Bool.not_eq_true] at hd
  exact dmaEffect_success ho hv hd (canMeet_of_answersAll (by decide) h) (canMeet_of_answersAll (by decide) h)

/-! ## What DMA writes do to the host's caches (spec/20_memory.md R97) -/

theorem mem_hostStale_storeAll (s : State) (ws : List (Word × Byte)) (a : Word) :
    a ∈ (s.storeAll ws).hostStale ↔ a ∈ s.hostStale ∨ s.platform.dmaCoherent = false ∧ a ∈ ws.map (·.1) := by
  rw [storeAll_hostStale]
  cases s.platform.dmaCoherent
  · rw [if_neg Bool.false_ne_true, List.mem_append, or_comm, eq_self, true_and]
  · simp

theorem mem_hostDirty_storeAll (s : State) (ws : List (Word × Byte)) (d : Word × Byte) :
    d ∈ (s.storeAll ws).hostDirty ↔ d ∈ s.hostDirty ∧ (s.platform.dmaCoherent = true ∨ d.1 ∉ ws.map (·.1)) := by
  rw [storeAll_hostDirty]
  cases s.platform.dmaCoherent
  · rw [if_neg Bool.false_ne_true, List.mem_filter, Bool.not_eq_true', ← Bool.not_eq_true,
      or_iff_right Bool.false_ne_true]
    simp only [List.any_eq_true, beq_iff_eq, List.mem_map]
  · simp

/-! ## The completed state -/

/-- What a mode command's rule gives, from the registers and the source range at acceptance (R220). -/
def modeRun (mode : State → ModeState → List Byte → ModeState × List Byte) (s : State) : ModeState × List Byte :=
  mode s s.modeState s.inputBytes

/-- `s` after the mode command `word` whose rule gave the ModeState `r.1` and the output Bytes `r.2`. -/
def modeDone (s : State) (word : Word) (r : ModeState × List Byte) : State :=
  { (completed s word .none).storeAll (s.outputWrites r.2) with
    iv := r.1.iv, ks := r.1.ks, offset := r.1.off, pos := s.len.toNat }

/-- A mode command whose checks pass and whose DMA succeeds completes with what its rule gives, whatever the tape. -/
theorem runs_modeDone {i : Instr} {mode} {s : State} (hm : modeOf i = some mode) (ha : Accepts i s)
    (ho : NoPartialOverlap s) (hv : StoresVisible s) (hd : ¬ ReachesDevice s)
    (h : AnswersAll s) :
    Runs i s (wordOf i) (modeDone s (wordOf i) (modeRun mode s)) := by
  have heffect : effectOf i (s.accept (wordOf i)) = .next ((s.accept (wordOf i)).modeJob (mode s)) := by
    rw [effectOf_mode hm, dmaEffect_of_answersAll (s := s.accept (wordOf i)) ho hv hd h, modeOf_accept hm]
  have hruns := runs_of_effect (commandWord_of_modeOf hm) ha.idle
    (firstError_of_accepts hm (accepts_accept ha (wordOf i))) heffect rfl
  rw [inRun_complete _ _ (by rfl), finish_none _ _ (by rfl)] at hruns
  exact hruns

section

variable {s : State} {word : Word} {r : ModeState × List Byte}

/-- What completion leaves in the address a command wrote as its output Byte `j` (R89). -/
theorem modeDone_outByte (hm : s.mem.wf = true) (hl : r.2.length = s.len.toNat) {j : Nat} (hj : j < s.len.toNat) :
    outByte s (modeDone s word r) j = r.2.getD j 0 := by
  have hlt := s.len.isLt
  rw [List.getD_eq_getElem _ _ (by omega)]
  exact byte_setAll_output hm (by omega) (by omega)

/-- The addresses a command writes are those of its destination range. -/
theorem mem_outputWrites_addresses (hl : r.2.length = s.len.toNat) (a : Word) :
    a ∈ (s.outputWrites r.2).map (·.1) ↔ ∃ i < s.len.toNat, a = s.dst + BitVec.ofNat 32 i := by
  rw [outputWrites_map_fst, hl]
  simp only [List.mem_map, List.mem_range, State.dstAddr, eq_comm]

/-- A completed mode command changes the registers, memory and the host's caches as R220 and R97 say. -/
theorem modeResult_modeDone (hm : s.mem.wf = true) (hl : r.2.length = s.len.toNat) :
    ModeResult s (modeDone s word r) word r.1.iv r.1.ks r.1.off.toNat where
  registers := by rw [BitVec.ofNat_toNat, BitVec.setWidth_eq]; rfl
  frame a ha := byte_setAll_frame hm (by rwa [hl])
  memory := wf_setAll hm _
  stale a := by
    rw [← mem_outputWrites_addresses hl]
    exact mem_hostStale_storeAll (completed s word .none) _ a
  waiting d := by
    have h := mem_hostDirty_storeAll (completed s word .none) (s.outputWrites r.2) d
    rw [mem_outputWrites_addresses hl] at h
    simp only [not_exists, not_and] at h
    exact h

end

/-- Every mode command under the premises of R98: it runs, leaves the ModeState its rule gives, and writes the Bytes its
rule gives to the destination range. -/
theorem exists_modeResult {i : Instr} {mode} {s : State} (hm : modeOf i = some mode) (h : DmaReady s)
    (ha : Accepts i s) :
    ∃ u, Runs i s (wordOf i) u ∧
      ModeResult s u (wordOf i) (modeRun mode s).1.iv (modeRun mode s).1.ks (modeRun mode s).1.off.toNat ∧
      ∀ j < s.len.toNat, outByte s u j = (modeRun mode s).2.getD j 0 := by
  have hl : (modeRun mode s).2.length = s.len.toNat := by
    rw [modeRun, modeOf_length hm _ _ _ fun hi => by rw [inputBytes_length]; exact ha.length hi, inputBytes_length]
  exact ⟨_, runs_modeDone hm ha h.overlap h.visible h.memoryOnly h.answers, modeResult_modeDone h.memory hl,
    fun j hj => modeDone_outByte h.memory hl hj⟩

/-! ## LEN = 0 -/

/-- Over no Bytes a mode rule writes none and keeps the ModeState. -/
theorem modeOf_nil {i : Instr} {mode} (hm : modeOf i = some mode) (s : State) (m : ModeState) :
    mode s m [] = (m, []) := by
  cases i <;> simp only [modeOf, Option.some.injEq, reduceCtorEq] at hm <;> subst hm <;> rfl

/-- Settles O26: with LEN = 0 no access can be refused, and the rule over no Bytes changes nothing. -/
theorem zeroLengthChangesNothing : Obligations.ZeroLengthChangesNothing := by
  intro s i hi ha hzero
  obtain ⟨mode, hm⟩ := (mem_modeCommands_iff i).1 hi
  have hlen : s.len.toNat = 0 := by rw [hzero]; rfl
  have hrun : modeRun mode s = (s.modeState, []) := by
    rw [modeRun, List.length_eq_zero_iff.1 ((inputBytes_length s).trans hlen), modeOf_nil hm]
  have hruns := runs_modeDone hm ha (.inr (by simp [hlen])) (.inr (by simp [hlen])) (by simp [ReachesDevice, hlen])
    (by simp [AnswersAll, hlen])
  rw [hrun] at hruns
  have : modeDone s (wordOf i) (s.modeState, []) = completed s (wordOf i) .none := by
    rw [modeDone, hlen, show s.outputWrites (s.modeState, []).2 = [] from rfl, storeAll_nil]
    rfl
  rwa [this] at hruns

end Sys2Proof.Proofs

/-! PROOF. ECB and CBC on Blocks (spec/42_modes.md R223 to R227): what each output Block is made of, and the IV a run ends
in. -/

namespace Sys2Proof.Proofs

open Sys2Proof.Machine Sys2Proof.Claims Sys2Proof.Laws

/-! ## Block runs -/

/-- ECB puts each Block through `f` by itself. -/
theorem blockRun_ecb (f : Block → Block) (iv : Block) (x : List Block) :
    blockRun (ecbUnit f) iv x = (iv, x.map f) := by
  induction x with
  | nil => rfl
  | cons b x ih => simp only [blockRun, ecbUnit, ih, List.map_cons]

/-- An output Block of CBC_ENC: E of the input Block ⊕ the output Block before it (R225). -/
theorem cbcEnc_block (e : Block → Block) (iv : Block) {x : List Block} {J : Nat} (h : J < x.length) :
    (blockRun (cbcEncUnit e) iv x).2.getD J Block.zero =
      e (xorBlock (x.getD J Block.zero)
        (if J = 0 then iv else (blockRun (cbcEncUnit e) iv x).2.getD (J - 1) Block.zero)) := by
  induction J generalizing x iv with
  | zero =>
    cases x with
    | nil => simp at h
    | cons p x => rfl
  | succ J ih =>
    cases x with
    | nil => simp at h
    | cons p x =>
      have := ih (e (xorBlock p iv)) (x := x) (by simpa using h)
      simp only [blockRun, cbcEncUnit, List.getD_cons_succ, Nat.succ_ne_zero, if_false, Nat.add_sub_cancel]
      rw [this]
      cases J <;> rfl

/-- CBC_ENC ends with its last output Block in the IV (R225). -/
theorem blockRun_cbcEnc_iv (e : Block → Block) (iv : Block) (x : List Block) :
    (blockRun (cbcEncUnit e) iv x).1 = (blockRun (cbcEncUnit e) iv x).2.getLastD iv := by
  induction x generalizing iv with
  | nil => rfl
  | cons p x ih => simp only [blockRun, cbcEncUnit, ih, List.getLastD_cons]

/-- CBC_DEC ends with its last input Block in the IV (R226). -/
theorem blockRun_cbcDec_iv (d : Block → Block) (iv : Block) (x : List Block) :
    (blockRun (cbcDecUnit d) iv x).1 = x.getLastD iv := by
  induction x generalizing iv with
  | nil => rfl
  | cons c x ih => simp only [blockRun, cbcDecUnit, ih, List.getLastD_cons]

theorem getLastD_eq_getD (x : List Block) (iv : Block) :
    x.getLastD iv = if x.length = 0 then iv else x.getD (x.length - 1) Block.zero := by
  cases x with
  | nil => rfl
  | cons b x => simp [List.getLast?_eq_getElem?, List.getD_eq_getElem?_getD]

/-! ## Blocks of the ranges -/

theorem inputBlocks_length (s : State) : (blocksOf s.inputBytes).length = s.len.toNat / 16 := by
  rw [blocksOf_length, inputBytes_length]

/-- The source range as Blocks. -/
theorem blocksOf_inputBytes {s : State} {j : Nat} (hj : j < s.len.toNat / 16) :
    (blocksOf s.inputBytes).getD j Block.zero = inBlock s j := by
  rw [blocksOf_getD (by rwa [inputBytes_length])]
  refine Vector.ext fun k hk => ?_
  have h : 16 * j + k < s.len.toNat := by omega
  simp [blockOf, inBlock, inputBytes_eq, h, inByte]

/-- Where the destination Bytes are those of a block mode, the destination Blocks are its output Blocks. -/
theorem outBlock_of_blockMode {s u : State} {unit} {m : ModeState}
    (h : ∀ j < s.len.toNat, outByte s u j = (blockMode unit m s.inputBytes).2.getD j 0) {j : Nat}
    (hj : j < s.len.toNat / 16) :
    outBlock s u j = (blockRun unit m.iv (blocksOf s.inputBytes)).2.getD j Block.zero := by
  refine Vector.ext fun k hk => ?_
  rw [outBlock, Vector.getElem_ofFn, h _ (by omega)]
  simp only [blockMode]
  rw [getD_flatMap_toList _ (by rw [blockRun_length, inputBlocks_length]; omega),
    show (16 * j + k) / 16 = j by omega, show (16 * j + k) % 16 = k by omega, block_getD _ hk]

/-- A block command under the premises of R98: it runs, leaves the chaining value of its block run in IV, and writes the
Blocks of that run. -/
theorem exists_blockResult {i : Instr} {mode unit} {s : State} (hm : modeOf i = some mode)
    (hunit : mode s = blockMode unit) (h : DmaReady s) (ha : Accepts i s) :
    ∃ u, Runs i s (wordOf i) u ∧
      ModeResult s u (wordOf i) (blockRun unit s.iv (blocksOf s.inputBytes)).1 s.ks s.offset.toNat ∧
      ∀ j < s.len.toNat / 16,
        outBlock s u j = (blockRun unit s.iv (blocksOf s.inputBytes)).2.getD j Block.zero := by
  obtain ⟨u, hruns, hresult, hbytes⟩ := exists_modeResult hm h ha
  rw [modeRun, hunit] at hresult hbytes
  exact ⟨u, hruns, hresult, fun j hj => outBlock_of_blockMode hbytes hj⟩

/-- ECB through `f`: each destination Block is `f` of the input Block, and the IV stays. -/
theorem exists_ecbResult {i : Instr} {mode f} {s : State} (hm : modeOf i = some mode)
    (hf : mode s = blockMode (ecbUnit f)) (h : DmaReady s) (ha : Accepts i s) :
    ∃ u, Runs i s (wordOf i) u ∧ ModeResult s u (wordOf i) s.iv s.ks s.offset.toNat ∧
      ∀ j < s.len.toNat / 16, outBlock s u j = f (inBlock s j) := by
  obtain ⟨u, hruns, hresult, hout⟩ := exists_blockResult hm hf h ha
  rw [blockRun_ecb] at hresult hout
  refine ⟨u, hruns, hresult, fun j hj => ?_⟩
  have hj' : j < (blocksOf s.inputBytes).length := by rwa [inputBlocks_length]
  rw [hout j hj, ← blocksOf_inputBytes hj, List.getD_eq_getElem _ _ (by simpa using hj'), List.getElem_map,
    List.getD_eq_getElem _ _ hj']

/-- Settles O20: an output Block of either direction is the input Block through its cipher. -/
theorem ecbWritesEachBlockThroughTheCipher : Obligations.EcbWritesEachBlockThroughTheCipher := by
  intro s h
  exact ⟨exists_ecbResult (i := .ecbEnc) rfl rfl h, exists_ecbResult (i := .ecbDec) rfl rfl h⟩

/-- The last of `n / 16` Blocks, or the IV where there is none: in whole Blocks that is where `n` is 0. -/
theorem lastBlock_eq {n : Nat} (h : n % 16 = 0) (iv : Block) {a b : Nat → Block} (hab : ∀ j < n / 16, a j = b j) :
    (if n / 16 = 0 then iv else a (n / 16 - 1)) = if n = 0 then iv else b (n / 16 - 1) := by
  by_cases hn : n = 0
  · rw [if_pos hn, if_pos (by omega)]
  · rw [if_neg hn, if_neg (by omega), hab _ (by omega)]

/-- Settles O21: each output Block chains on the output Block before it, and the last one is the IV at the end. -/
theorem cbcEncChainsTheOutputBlocks : Obligations.CbcEncChainsTheOutputBlocks := by
  intro s h ha
  obtain ⟨u, hruns, hresult, hout⟩ := exists_blockResult (i := .cbcEnc) rfl rfl h ha
  refine ⟨u, hruns, ?_, fun j hj => ?_⟩
  · rw [blockRun_cbcEnc_iv, getLastD_eq_getD, blockRun_length, inputBlocks_length] at hresult
    rwa [lastBlock_eq (ha.length (by decide)) s.iv fun j hj => (hout j hj).symm] at hresult
  · rw [hout j hj, cbcEnc_block _ _ (by rwa [inputBlocks_length]), blocksOf_inputBytes hj]
    cases j with
    | zero => rw [if_pos rfl, if_pos rfl]
    | succ j => rw [if_neg (by omega), if_neg (by omega), hout _ (by omega)]

/-- Settles O22: each output Block chains on the input Block before it, and the last one is the IV at the end. -/
theorem cbcDecChainsTheInputBlocks : Obligations.CbcDecChainsTheInputBlocks := by
  intro s h ha
  obtain ⟨u, hruns, hresult, hout⟩ := exists_blockResult (i := .cbcDec) rfl rfl h ha
  refine ⟨u, hruns, ?_, fun j hj => ?_⟩
  · rw [blockRun_cbcDec_iv, getLastD_eq_getD, inputBlocks_length] at hresult
    rwa [lastBlock_eq (ha.length (by decide)) s.iv fun j hj => blocksOf_inputBytes hj] at hresult
  · rw [hout j hj, cbcDec_block _ _ (by rwa [inputBlocks_length]), blocksOf_inputBytes hj]
    cases j with
    | zero => rw [if_pos rfl, if_pos rfl]
    | succ j => rw [if_neg (by omega), if_neg (by omega), blocksOf_inputBytes (by omega)]

end Sys2Proof.Proofs

/-! PROOF. CFB, OFB and CTR are the loops of their pseudocode (spec/42_modes.md R229 to R234). OFB over its own output, and
CFB_DEC over CFB_ENC's, gives the input back (R233, R230); the CTR keystream does not depend on the input (R245). -/

namespace Sys2Proof.Proofs

open Sys2Proof.Machine Sys2Proof.Claims Sys2Proof.Laws

/-! ## The loops -/

/-- The loop variables that stand for a ModeState and the Bytes written so far. -/
def loopOf (m : ModeState) (out : List Byte) : Loop := { iv := m.iv, ks := m.ks, off := m.off.toNat, out := out }

/-- A loop body does what a stream mode's unit does with the input Byte of its index. -/
def FollowsUnit (s : State) (unit : ModeState → Byte → ModeState × Byte) (body : Loop → Nat → Loop) : Prop :=
  ∀ m out i, body (loopOf m out) i = loopOf (unit m (inByte s i)).1 (out ++ [(unit m (inByte s i)).2])

/-- A loop whose body follows the unit is the run of the stream mode over the input Bytes of its indices. -/
theorem foldl_of_followsUnit {s : State} {unit body} (h : FollowsUnit s unit body) (is : List Nat) (m : ModeState)
    (out : List Byte) :
    is.foldl body (loopOf m out) =
      loopOf (streamRun unit m (is.map (inByte s))).1 (out ++ (streamRun unit m (is.map (inByte s))).2) := by
  induction is generalizing m out with
  | nil => simp [streamRun]
  | cons i is ih => simp [streamRun, h m out i, ih]

theorem runLoop_of_followsUnit {s : State} {unit body} (h : FollowsUnit s unit body) :
    runLoop s body =
      loopOf (streamRun unit s.modeState s.inputBytes).1 (streamRun unit s.modeState s.inputBytes).2 :=
  foldl_of_followsUnit h (List.range s.len.toNat) s.modeState []

/-- A stream command whose loop body follows its unit leaves what its loop leaves. -/
theorem runsLoop_of_followsUnit {i : Instr} {mode unit body} {s : State} (hm : modeOf i = some mode)
    (hunit : mode s = streamRun unit) (hbody : FollowsUnit s unit body) (h : DmaReady s) (ha : Accepts i s) :
    RunsLoop i s (runLoop s body) := by
  rw [RunsLoop, runLoop_of_followsUnit hbody, ← hunit]
  exact exists_modeResult hm h ha

/-! ## The bodies -/

theorem setByte_eq_set (b : Block) {n : Nat} (hn : n < 16) (v : Byte) : setByte b n v = b.set n v := by
  refine Vector.ext fun k hk => ?_
  simp [setByte, Vector.getElem_set, eq_comm]

/-- KS[OFFSET] as the pseudocode indexes it. -/
theorem getD_off (b : Block) (off : BitVec 4) : b.toList.getD off.toNat 0 = keystreamByte b off := block_getD b off.isLt

/-- A keystream Block begins at OFFSET 0 (R228). -/
theorem off_toNat_eq_zero (off : BitVec 4) : off.toNat = 0 ↔ off = 0 := BitVec.toNat_inj (y := 0)

/-- A keystream Block ends with the Byte at OFFSET 15 (R234). -/
theorem off_toNat_succ_eq (off : BitVec 4) : off.toNat + 1 = 16 ↔ off = 15 := by
  rw [← BitVec.toNat_inj, show (15 : BitVec 4).toNat = 15 from rfl, Nat.succ_inj]

theorem cfbEnc_followsUnit (s : State) : FollowsUnit s (cfbEncUnit s.encrypt) (cfbEncBody s) := by
  intro m out i
  simp only [cfbEncBody, cfbEncUnit, loopOf, loadKs, off_toNat_eq_zero, getD_off, setByte_eq_set _ m.off.isLt,
    off_add_one]

theorem cfbDec_followsUnit (s : State) : FollowsUnit s (cfbDecUnit s.encrypt) (cfbDecBody s) := by
  intro m out i
  simp only [cfbDecBody, cfbDecUnit, loopOf, loadKs, off_toNat_eq_zero, getD_off, setByte_eq_set _ m.off.isLt,
    off_add_one]

/-- A load puts one Block into IV and KS, whichever of the two is copied to the other (R232). -/
theorem ofb_followsUnit (s : State) : FollowsUnit s (ofbUnit s.encrypt) (ofbBody s) := by
  intro m out i
  simp only [ofbBody, ofbUnit, loopOf, loadKs, off_toNat_eq_zero, getD_off, off_add_one]
  by_cases h : m.off = 0
  · simp only [if_pos h]
  · simp only [if_neg h]

/-- The counter steps, and OFFSET returns to 0, after the 16th Byte of a keystream Block (R234). -/
theorem ctr_followsUnit (inc : Block → Block) (s : State) : FollowsUnit s (ctrUnit s.encrypt inc) (ctrBody inc s) := by
  intro m out i
  simp only [ctrBody, ctrUnit, loopOf, loadKs, off_toNat_eq_zero, off_toNat_succ_eq, getD_off, off_add_one]
  by_cases h : m.off = 15
  · simp only [if_pos h, (off_toNat_succ_eq _).2 h, Nat.mod_self]
  · have hlt := m.off.isLt
    have h16 : m.off.toNat + 1 ≠ 16 := (off_toNat_succ_eq _).not.2 h
    simp only [if_neg h, Nat.mod_eq_of_lt (show m.off.toNat + 1 < 16 by omega)]

/-- Settles O23: each body follows its unit: CFB_ENC feeds the output Byte back, CFB_DEC the input Byte. -/
theorem cfbFollowsItsLoops : Obligations.CfbFollowsItsLoops := by
  intro s h
  exact ⟨runsLoop_of_followsUnit rfl rfl (cfbEnc_followsUnit s) h,
    runsLoop_of_followsUnit rfl rfl (cfbDec_followsUnit s) h⟩

/-- Settles O24: the body follows the unit of OFB. -/
theorem ofbFollowsItsLoop : Obligations.OfbFollowsItsLoop := by
  intro s h ha
  exact runsLoop_of_followsUnit rfl rfl (ofb_followsUnit s) h ha

/-- The strategy CTRINC selects (R240). -/
theorem increment_of_ctrInc {c : BitVec 2} {inc : Block → Block}
    (h : c = 0 ∧ inc = inc0 ∨ c = 1 ∧ inc = inc1 ∨ c = 2 ∧ inc = inc2 ∨ c = 3 ∧ inc = Config.extInc) :
    increment c = inc := by
  obtain ⟨rfl, rfl⟩ | ⟨rfl, rfl⟩ | ⟨rfl, rfl⟩ | ⟨rfl, rfl⟩ := h <;> rfl

/-- Settles O25: the body follows the unit of CTR with the strategy CTRINC selects. -/
theorem ctrFollowsItsLoop : Obligations.CtrFollowsItsLoop := by
  intro s inc h ha hinc
  exact runsLoop_of_followsUnit rfl (by rw [ctrMode, increment_of_ctrInc hinc]) (ctr_followsUnit inc s) h ha

/-! ## Runs over the output of a run -/

/-- Where `g` takes each output Byte of `f` back and steps to the same ModeState, it takes a whole run back. -/
theorem streamRun_inverse {f g : ModeState → Byte → ModeState × Byte} (h : ∀ m a, g m (f m a).2 = ((f m a).1, a))
    (m : ModeState) (x : List Byte) : streamRun g m (streamRun f m x).2 = ((streamRun f m x).1, x) := by
  induction x generalizing m with
  | nil => rfl
  | cons a x ih => simp only [streamRun, h, ih]

/-- Settles O29: a keystream Byte ⊕ed twice is gone, and the unit's ModeState does not look at the Byte. -/
theorem ofbIsItsOwnInverse : Obligations.OfbIsItsOwnInverse := by
  intro s
  exact streamRun_inverse fun m a => by simp only [ofbUnit, BitVec.xor_assoc, BitVec.xor_self, BitVec.xor_zero]

/-- Settles O30: a keystream Byte ⊕ed twice is gone, and both directions feed the same Byte back. -/
theorem cfbDecInvertsCfbEnc : Obligations.CfbDecInvertsCfbEnc := by
  intro s
  exact streamRun_inverse fun m a => by
    simp only [cfbEncUnit, cfbDecUnit, BitVec.xor_assoc, BitVec.xor_self, BitVec.xor_zero]

/-- Where the keystream Byte and the next ModeState do not depend on the input Byte, the ⊕ of two runs' outputs is that of
their inputs. -/
theorem zipWith_xor_streamRun {unit : ModeState → Byte → ModeState × Byte}
    (hstate : ∀ m a b, (unit m a).1 = (unit m b).1) (hout : ∀ m a b, (unit m a).2 ^^^ (unit m b).2 = a ^^^ b) (m : ModeState) (x y : List Byte)
    (h : x.length = y.length) :
    List.zipWith (· ^^^ ·) (streamRun unit m x).2 (streamRun unit m y).2 = List.zipWith (· ^^^ ·) x y := by
  induction x generalizing m y with
  | nil => rfl
  | cons a x ih =>
    cases y with
    | nil => rfl
    | cons b y =>
      simp only [streamRun, List.zipWith_cons_cons, hout, hstate m a b, ih _ y (by simpa using h)]

/-- Settles O31: a unit of CTR steps the counter whatever the Byte is, and ⊕es the Byte with the keystream. -/
theorem ctrKeystreamIsIndependentOfTheInput : Obligations.CtrKeystreamIsIndependentOfTheInput := by
  intro s
  refine zipWith_xor_streamRun (fun _ _ _ => rfl) fun m a b => ?_
  simp only [ctrUnit]
  rw [BitVec.xor_comm b, BitVec.xor_assoc, ← BitVec.xor_assoc _ _ b, BitVec.xor_self, BitVec.zero_xor]

end Sys2Proof.Proofs

/-! PROOF. The built-in counter strategies on big-endian numbers (spec/42_modes.md R241 to R243). -/

namespace Sys2Proof.Proofs

open Sys2Proof.Machine Sys2Proof.Claims Sys2Proof.Laws

/-- The digits collected from the left make the big-endian number. -/
theorem foldl_eq_bigEndian (bs : List Byte) (n : Nat) :
    bs.foldl (fun n x => 256 * n + x.toNat) n = n * 256 ^ bs.length + bigEndian bs := by
  induction bs generalizing n with
  | nil => simp [bigEndian]
  | cons b bs ih =>
    rw [List.foldl_cons, ih, bigEndian, List.length_cons, pow_mul]
    ring

theorem counterValue_eq_bigEndian (b : Block) (first : Nat) : counterValue b first = bigEndian (b.toList.drop first) := by
  rw [counterValue, foldl_eq_bigEndian, Nat.zero_mul, Nat.zero_add]

/-- The `l` low Bytes of a number, the most significant first, make the number modulo 256^l. -/
theorem bigEndian_digits (l n : Nat) :
    bigEndian ((List.range l).map fun j => BitVec.ofNat 8 (n / 256 ^ (l - 1 - j))) = n % 2 ^ (8 * l) := by
  induction l with
  | zero => simp [bigEndian, Nat.mod_one]
  | succ l ih =>
    have htail : (List.range l).map ((fun j => BitVec.ofNat 8 (n / 256 ^ (l + 1 - 1 - j))) ∘ Nat.succ) =
        (List.range l).map fun j => BitVec.ofNat 8 (n / 256 ^ (l - 1 - j)) :=
      List.map_congr_left fun j _ => by
        rw [Function.comp, show l + 1 - 1 - j.succ = l - 1 - j by omega]
    have hsucc : n % 256 ^ (l + 1) = n / 256 ^ l % 256 * 256 ^ l + n % 256 ^ l := by
      rw [Nat.mod_pow_succ, Nat.add_comm, Nat.mul_comm]
    rw [List.range_succ_eq_map, List.map_cons, List.map_map, htail, bigEndian, ih, BitVec.toNat_ofNat, List.length_map,
      List.length_range, pow_mul, pow_mul, Nat.sub_zero, Nat.add_sub_cancel]
    exact hsucc.symm

/-- The Bytes a new counter value leaves before `first`. -/
theorem withCounter_take (b : Block) (first n : Nat) :
    (withCounter b first n).toList.take first = b.toList.take first := by
  refine List.ext_getElem (by simp) fun i h1 h2 => ?_
  have hi : i < first := by simp at h1; omega
  simp [withCounter, hi]

/-- The Bytes of a new counter value from `first` on. -/
theorem withCounter_drop (b : Block) (first n : Nat) :
    (withCounter b first n).toList.drop first =
      (List.range (16 - first)).map fun j => BitVec.ofNat 8 (n / 256 ^ (16 - first - 1 - j)) := by
  refine List.ext_getElem (by simp) fun i h1 h2 => ?_
  have hexp : 15 - (first + i) = 16 - first - 1 - i := by omega
  simp [withCounter, hexp]

theorem incFrom_incrementsFrom (first : Nat) : IncrementsFrom first (incFrom first) := by
  intro b
  refine ⟨withCounter_take b first _, ?_⟩
  rw [incFrom, withCounter_drop, bigEndian_digits, counterValue_eq_bigEndian]

/-- Settles O27: each strategy is the increment from its first counter Byte on. -/
theorem counterStrategiesIncrementBigEndian : Obligations.CounterStrategiesIncrementBigEndian :=
  ⟨incFrom_incrementsFrom 0, incFrom_incrementsFrom 8, incFrom_incrementsFrom 12⟩

end Sys2Proof.Proofs

/-! PROOF. A mode command that a bus error ends (spec/42_modes.md R222, spec/60_exceptions.md R298, R303): the registers as
at acceptance, each destination Byte old or the one the command's rule gives. -/

namespace Sys2Proof.Proofs

open Sys2Proof.Machine Sys2Proof.Claims Sys2Proof.Laws

theorem mem_modeRules {i : Instr} {mode} (hm : modeOf i = some mode) : (i, mode) ∈ modeRules := by
  cases i <;> simp only [modeOf, Option.some.injEq, reduceCtorEq] at hm <;> subst hm <;> simp [modeRules]

/-- What the model's command can be answered it can be answered by R91: its writes wait for the reads of their unit. -/
theorem canMeet_of_canMeet_needs {i : Instr} {s : State} {w : Answer} (h : s.canMeet (needsOf i s) w = true) :
    CanMeet i s w := by
  obtain ⟨k, hk, hread | ⟨hwrite, hneeds⟩⟩ := (canMeet_iff s _ w).1 h
  · exact ⟨k, hk, .inl hread⟩
  · exact ⟨k, hk, .inr ⟨hwrite, fun j hj hunit => hneeds j hj (needsOf_unit i s hunit)⟩⟩

/-- Where a command meets a bus error and can meet no missing answer, its DMA ends with the bus error. -/
theorem dmaEffect_of_busError {i : Instr} {mode} {s : State} (ho : NoPartialOverlap s) (hv : StoresVisible s)
    (hd : ¬ ReachesDevice s) (hn : ¬ CanMeet i s .never) (hb : Meets s .busError) :
    dmaEffect mode (needsOf i) s =
      .next (s.busErrorJob (s.issuableWrites (needsOf i s) (s.outputWrites (modeRun mode s).2))) := by
  rw [noPartialOverlap_iff] at ho
  rw [storesVisible_iff] at hv
  rw [reachesDevice_iff, Bool.not_eq_true] at hd
  have hn : s.canMeet (needsOf i s) .never = false :=
    Bool.eq_false_iff.2 fun h => hn (canMeet_of_canMeet_needs h)
  exact dmaEffect_busError ho hv hd hn (canMeet_of_answer hd hn (fun a => by cases a <;> simp) hb)

/-- `s` after the command `word` that a bus error ended, having performed the writes `ws` and come to `pos`. -/
def busErrorDone (s : State) (word : Word) (ws : List (Word × Byte)) (pos : Nat) : State :=
  { (completed s word .busError).storeAll ws with pos := pos }

/-- A mode command whose DMA ends with a bus error completes with code 6, having performed some of `ws`. -/
theorem runs_busErrorDone {i : Instr} {mode} {s : State} (hm : modeOf i = some mode) (ha : Accepts i s)
    {ws : List (Word × Byte)}
    (h : dmaEffect mode (needsOf i) (s.accept (wordOf i)) = .next ((s.accept (wordOf i)).busErrorJob ws)) :
    Runs i s (wordOf i) (busErrorDone s (wordOf i) (someWrites (s.freeCount + 1) ws)
      (Config.freePos (s.freeCount + 1) % (s.len.toNat + 1))) := by
  have hruns := runs_of_effect (commandWord_of_modeOf hm) ha.idle
    (firstError_of_accepts hm (accepts_accept ha (wordOf i))) ((effectOf_mode hm _).trans h) rfl
  rw [inRun_complete _ _ (by rfl), finish_error _ _ (by exact Error.noConfusion)] at hruns
  exact hruns

/-- An output Byte whose write can be issued is the one the rule gives over any Bytes that agree with the source range
where Mem answers with a Byte (R89). -/
theorem modeRun_getD_of_issuable {i : Instr} {mode} {s : State} (hm : modeOf i = some mode) (ha : Accepts i s) {j : Nat}
    (hj : j < s.len.toNat) (h : s.issuable (needsOf i s) j = true) {inputs : List Byte}
    (hl : inputs.length = s.len.toNat)
    (hin : ∀ k < s.len.toNat, s.platform.onRead (s.src + BitVec.ofNat 32 k) = .ordinary →
      inputs.getD k 0 = inByte s k) :
    (modeRun mode s).2.getD j 0 = (mode s s.modeState inputs).2.getD j 0 := by
  obtain ⟨-, hreads⟩ := (issuable_iff s _ j).1 h
  have hlen := inputBytes_length s
  refine modeOf_needs hm s (hlen.trans hl.symm) (fun hi => hlen ▸ ha.length hi) (by rwa [hlen]) fun k hk hneeds => ?_
  rw [hlen] at hk
  rw [hin k hk (hreads k hk hneeds)]
  simp [inputBytes_eq, hk, inByte]

/-- The state a bus error leaves is as R222 and R303 say, if the writes performed are issuable ones. -/
theorem endsWithBusError_of_runs {i : Instr} {mode} {s : State} (hm : modeOf i = some mode) (ha : Accepts i s)
    (hmem : s.mem.wf = true) {ws : List (Word × Byte)} {pos : Nat}
    (hws : ∀ w ∈ ws, w ∈ s.issuableWrites (needsOf i s) (s.outputWrites (modeRun mode s).2))
    (hpos : pos ≤ s.len.toNat) (h : Runs i s (wordOf i) (busErrorDone s (wordOf i) ws pos)) :
    EndsWithBusError i s := by
  have hlen : (modeRun mode s).2.length ≤ s.len.toNat := inputBytes_length s ▸ modeOf_length_le hm s _ _
  have hlt := s.len.isLt
  refine ⟨_, h, hpos, rfl, fun a hout => get_setAll_other hmem fun w hw he => ?_, mode, mem_modeRules hm,
    fun j hj => ?_⟩
  · obtain ⟨k, hk, rfl, -⟩ := mem_issuableWrites (hws w hw)
    exact hout k (by omega) he.symm
  · obtain hold | ⟨b, hb, hnew⟩ := get_setAll_cases hmem ws (s.dst + BitVec.ofNat 32 j)
    · exact .inl hold
    · refine .inr fun inputs hl hin => ?_
      obtain ⟨k, hk, he, hissuable⟩ := mem_issuableWrites (hws _ hb)
      obtain ⟨haddr, rfl⟩ := Prod.mk.inj he
      obtain rfl : j = k := offset_injective (by omega) (by omega) haddr
      rw [← modeRun_getD_of_issuable hm ha hj hissuable hl hin, List.getD_eq_getElem _ _ hk]
      exact hnew

/-- Settles O35: the DMA ends with the bus error, and the writes it performed are some of the issuable ones. -/
theorem busErrorKeepsTheRegisters : Obligations.BusErrorKeepsTheRegisters := by
  intro s i hi ha hmem ho hv hd hn hb
  obtain ⟨mode, hm⟩ := (mem_modeCommands_iff i).1 hi
  have heffect := dmaEffect_of_busError (mode := mode) (s := s.accept (wordOf i)) ho hv hd hn hb
  refine endsWithBusError_of_runs hm ha hmem (fun w hw => ?_) (Nat.le_of_lt_succ (Nat.mod_lt _ (Nat.succ_pos _)))
    (runs_busErrorDone hm ha heffect)
  have := mem_someWrites hw
  rwa [modeRun, modeOf_accept hm, needsOf_accept] at this

end Sys2Proof.Proofs

/-! PROOF. Streaming equivalence (spec/42_modes.md R235): a mode command over a range, and two over its first `k` Bytes and
the rest. -/

namespace Sys2Proof.Proofs

open Sys2Proof.Machine Sys2Proof.Claims Sys2Proof.Laws

/-! ## A command on a part of the ranges -/

/-- The ranges of `p` are `p.len` Bytes of the ranges of `s` from index `k` on, with the same platform and no host store
waiting that does not wait in `s`. -/
structure PartOf (s p : State) (k : Nat) : Prop where
  src : p.src = s.src + BitVec.ofNat 32 k
  dst : p.dst = s.dst + BitVec.ofNat 32 k
  len : k + p.len.toNat ≤ s.len.toNat
  platform : p.platform = s.platform
  dirty : ∀ d ∈ p.hostDirty, d ∈ s.hostDirty

/-- Byte `j` of the part is Byte `k + j` of the whole. -/
theorem add_offset (base : Word) (k j : Nat) :
    base + BitVec.ofNat 32 k + BitVec.ofNat 32 j = base + BitVec.ofNat 32 (k + j) := by
  rw [BitVec.add_assoc, ← BitVec.ofNat_add]

/-- A part of ranges that satisfy the premises of R98 satisfies them. -/
theorem PartOf.dmaReady {s p : State} {k : Nat} (h : PartOf s p k) (hm : p.mem.wf = true) (hs : DmaReady s) :
    DmaReady p where
  memory := hm
  overlap := by
    obtain hd | hd := hs.overlap
    · exact .inl (by rw [h.src, h.dst, hd])
    · refine .inr fun i hi j hj => ?_
      have hlen := h.len
      rw [h.src, h.dst, add_offset, add_offset]
      exact hd _ (by omega) _ (by omega)
  visible := by
    obtain hv | hv := hs.visible
    · exact .inl (h.platform ▸ hv)
    · refine .inr fun d hd i hi => ?_
      have hlen := h.len
      rw [h.src, add_offset]
      exact hv d (h.dirty d hd) _ (by omega)
  memoryOnly := by
    rintro ⟨i, hi, hdev⟩
    have hlen := h.len
    rw [h.platform, h.src, h.dst, add_offset, add_offset] at hdev
    exact hs.memoryOnly ⟨k + i, by omega, hdev⟩
  answers i hi := by
    have hlen := h.len
    rw [h.platform, h.src, h.dst, add_offset, add_offset]
    exact hs.answers _ (by omega)

/-- The command on the first `k` Bytes. -/
def firstPart (s : State) (k : Nat) : State := { s with len := BitVec.ofNat 32 k }

/-- The command on the Bytes from index `k` on, given in the state `u`. -/
def restPart (s u : State) (k : Nat) : State :=
  { u with
    len := s.len - BitVec.ofNat 32 k, src := s.src + BitVec.ofNat 32 k, dst := s.dst + BitVec.ofNat 32 k }

section

variable {s u : State} {k : Nat} (hk : k ≤ s.len.toNat)

include hk

theorem firstPart_len : (firstPart s k).len.toNat = k := by
  have := s.len.isLt
  rw [firstPart, BitVec.toNat_ofNat, Nat.mod_eq_of_lt (by omega)]

theorem restPart_len : (restPart s u k).len.toNat = s.len.toNat - k := by
  have h : (BitVec.ofNat 32 k).toNat = k := firstPart_len hk
  rw [restPart, BitVec.toNat_sub_of_le (by rwa [BitVec.le_def, h]), h]

theorem partOf_firstPart : PartOf s (firstPart s k) 0 where
  src := by simp [firstPart]
  dst := by simp [firstPart]
  len := by rwa [firstPart_len hk, Nat.zero_add]
  platform := rfl
  dirty _ hd := hd

theorem partOf_restPart (hp : u.platform = s.platform) (hd : ∀ d ∈ u.hostDirty, d ∈ s.hostDirty) :
    PartOf s (restPart s u k) k where
  src := rfl
  dst := rfl
  len := by rw [restPart_len hk]; omega
  platform := hp
  dirty := hd

/-- The source range is that of the first part and that of the rest, where the first part left the latter as it was. -/
theorem inputBytes_parts (hu : ∀ j, k + j < s.len.toNat →
      u.byte (s.src + BitVec.ofNat 32 (k + j)) = s.byte (s.src + BitVec.ofNat 32 (k + j))) :
    s.inputBytes = (firstPart s k).inputBytes ++ (restPart s u k).inputBytes := by
  rw [inputBytes_eq, inputBytes_eq, inputBytes_eq, firstPart_len hk, restPart_len hk]
  conv_lhs => rw [← Nat.add_sub_cancel' hk, List.range_add, List.map_append, List.map_map]
  refine congrArg₂ (· ++ ·) rfl (List.map_congr_left fun j hj => ?_)
  rw [List.mem_range] at hj
  rw [Function.comp, ← hu j (by omega), ← add_offset]
  rfl

end

/-- The output goes to the first part of the destination range and then to the rest. -/
theorem outputWrites_parts (s u : State) {a : List Byte} {k : Nat} (ha : a.length = k) (b : List Byte) :
    s.outputWrites (a ++ b) = (firstPart s k).outputWrites a ++ (restPart s u k).outputWrites b := by
  rw [State.outputWrites, List.zipIdx_append, List.map_append, Nat.zero_add, ha]
  refine congrArg₂ (· ++ ·) rfl (List.ext_getElem (by simp [State.outputWrites]) fun j _ _ => ?_)
  simp only [State.outputWrites, List.getElem_map, List.getElem_zipIdx, Nat.zero_add, State.dstAddr, restPart,
    add_offset]

theorem setAll_append (m : Memory) (v w : List (Word × Byte)) : m.setAll (v ++ w) = (m.setAll v).setAll w :=
  List.foldl_append

/-! ## The rules on two sequences in a row -/

/-- A mode rule looks at the contexts and CTRINC only. -/
theorem modeOf_congr {i : Instr} {mode} (hm : modeOf i = some mode) {s t : State} (he : t.enc = s.enc)
    (hd : t.dec = s.dec) (hc : t.ctrInc = s.ctrInc) : mode t = mode s := by
  have hE : t.encrypt = s.encrypt := by funext b; rw [State.encrypt, State.encrypt, he]
  have hD : t.decrypt = s.decrypt := by funext b; rw [State.decrypt, State.decrypt, hd]
  cases i <;> simp only [modeOf, Option.some.injEq, reduceCtorEq] at hm <;> subst hm <;>
    simp only [ecbEncMode, ecbDecMode, cbcEncMode, cbcDecMode, cfbEncMode, cfbDecMode, ofbMode, ctrMode, hE, hD, hc]

/-- A mode rule over two sequences in a row, in ECB and CBC the first of whole Blocks, is two runs, the second from the
ModeState of the first. -/
theorem modeOf_append {i : Instr} {mode} (hm : modeOf i = some mode) (s : State) (m : ModeState) {x : List Byte}
    (hx : i ∈ blockCommands → x.length % 16 = 0) (y : List Byte) :
    mode s m (x ++ y) =
      ((mode s (mode s m x).1 y).1, (mode s m x).2 ++ (mode s (mode s m x).1 y).2) := by
  cases i <;> simp only [modeOf, Option.some.injEq, reduceCtorEq] at hm <;> subst hm
  case ecbEnc | ecbDec | cbcEnc | cbcDec => exact blockMode_append _ m (hx (by decide))
  case cfbEnc | cfbDec | ofbCrypt | ctrCrypt => exact streamRun_append _ m x y

/-! ## The two commands -/

/-- An accepted mode command under the premises of R98 answers a state that completes as its rule says. -/
theorem exec_modeDone {i : Instr} {mode} {s : State} (hm : modeOf i = some mode) (h : DmaReady s) (ha : Accepts i s) :
    ∃ t, exec i s = .next t ∧ t.complete = modeDone s (wordOf i) (modeRun mode s) := by
  obtain ⟨job, -, -, hcomplete, hexec⟩ := runs_modeDone hm ha h.overlap h.visible h.memoryOnly h.answers
  refine ⟨_, hexec, ?_⟩
  split
  · exact complete_of_idle rfl
  · exact hcomplete

/-- The rest of the source range is as it was after the first part's command: in place the command wrote other addresses
of it, else it wrote none. -/
theorem byte_rest_of_first {s : State} {word : Word} {r : ModeState × List Byte} {k : Nat} (hs : DmaReady s)
    (hr : r.2.length = k) {j : Nat} (hj : k + j < s.len.toNat) :
    (modeDone (firstPart s k) word r).byte (s.src + BitVec.ofNat 32 (k + j)) =
      s.byte (s.src + BitVec.ofNat 32 (k + j)) := by
  refine byte_setAll_frame (s := firstPart s k) hs.memory fun i hi => ?_
  have hlt := s.len.isLt
  obtain hd | hd := hs.overlap
  · intro he
    change _ = s.dst + _ at he
    rw [hd] at he
    have := offset_injective (by omega) (by omega) he
    omega
  · exact hd _ hj _ (by omega)

/-- The first part's command is ready and accepted. -/
theorem firstPart_ready {i : Instr} {s : State} {k : Nat} (hk : k ≤ s.len.toNat) (h16 : i ∈ blockCommands → k % 16 = 0)
    (hs : DmaReady s) (ha : Accepts i s) : DmaReady (firstPart s k) ∧ Accepts i (firstPart s k) :=
  ⟨(partOf_firstPart hk).dmaReady hs.memory hs,
    ha.idle, ha.tables, ha.context, fun hb => by rw [firstPart_len hk]; exact h16 hb⟩

/-- Once the first part's command has completed, that on the rest is ready and accepted. -/
theorem restPart_ready {i : Instr} {s : State} {k : Nat} {word : Word} {r : ModeState × List Byte}
    (hk : k ≤ s.len.toNat) (h16 : i ∈ blockCommands → k % 16 = 0) (hs : DmaReady s) (ha : Accepts i s) :
    DmaReady (restPart s (modeDone (firstPart s k) word r) k) ∧
      Accepts i (restPart s (modeDone (firstPart s k) word r) k) := by
  have hpart := partOf_restPart (u := modeDone (firstPart s k) word r) hk rfl fun d hd =>
    ((mem_hostDirty_storeAll (completed (firstPart s k) word .none) _ d).1 hd).1
  refine ⟨hpart.dmaReady (wf_setAll hs.memory _) hs, rfl, ha.tables, ha.context, fun hb => ?_⟩
  have := ha.length hb
  have := h16 hb
  rw [restPart_len hk]
  omega

/-- One command's rule is the rule on the first part and then, from the ModeState it leaves, on the rest. -/
theorem modeRun_parts {i : Instr} {mode} {s : State} {k : Nat} {word : Word} (hm : modeOf i = some mode)
    (hk : k ≤ s.len.toNat) (h16 : i ∈ blockCommands → k % 16 = 0) (hs : DmaReady s) {r1 r2 : ModeState × List Byte}
    (h1 : r1 = modeRun mode (firstPart s k))
    (h2 : r2 = modeRun mode (restPart s (modeDone (firstPart s k) word r1) k)) :
    r1.2.length = k ∧ modeRun mode s = (r2.1, r1.2 ++ r2.2) := by
  have hx : (firstPart s k).inputBytes.length = k := (inputBytes_length _).trans (firstPart_len hk)
  have h16' : i ∈ blockCommands → (firstPart s k).inputBytes.length % 16 = 0 := fun hb => by rw [hx]; exact h16 hb
  have hl : r1.2.length = k := by rw [h1, modeRun, modeOf_length hm _ _ _ h16', hx]
  have h1' : r1 = mode s s.modeState (firstPart s k).inputBytes := by
    rw [h1, modeRun, modeOf_congr hm (s := s) (t := firstPart s k) rfl rfl rfl]
    rfl
  have h2' : r2 = mode s r1.1 (restPart s (modeDone (firstPart s k) word r1) k).inputBytes := by
    rw [h2, modeRun, modeOf_congr hm (s := s) (t := restPart s (modeDone (firstPart s k) word r1) k) rfl rfl rfl]
    rfl
  refine ⟨hl, ?_⟩
  rw [modeRun, inputBytes_parts hk fun j hj => byte_rest_of_first (word := word) hs hl hj,
    modeOf_append hm _ _ h16', ← h1', ← h2']

/-- Settles O28: the rule over the source range is the rule over its two parts in a row, and the writes are theirs. -/
theorem commandsMayBeSplit : Obligations.CommandsMayBeSplit := by
  intro s i k hi hs ha hk h16
  obtain ⟨mode, hm⟩ := (mem_modeCommands_iff i).1 hi
  obtain ⟨hs1, ha1⟩ := firstPart_ready hk h16 hs ha
  obtain ⟨t, hexec, ht⟩ := exec_modeDone hm hs ha
  obtain ⟨t1, hexec1, ht1⟩ := exec_modeDone hm hs1 ha1
  obtain ⟨hs2, ha2⟩ := restPart_ready (word := wordOf i) (r := modeRun mode (firstPart s k)) hk h16 hs ha
  obtain ⟨t2, hexec2, ht2⟩ := exec_modeDone hm hs2 ha2
  obtain ⟨hl, hrun⟩ := modeRun_parts (word := wordOf i) hm hk h16 hs rfl rfl
  refine ⟨t, t1, t2, hexec, hexec1, ht1 ▸ hexec2, ?_⟩
  rw [ht, ht2, hrun]
  refine ⟨?_, rfl, rfl, rfl⟩
  change s.mem.setAll (s.outputWrites (_ ++ _)) = _
  rw [outputWrites_parts s _ hl, setAll_append]
  rfl

end Sys2Proof.Proofs

/-! PROOF. The host's access to the registers (spec/43_host_access.md R270 to R279): which register stands at an offset, what
a read answers, what a write leaves, and that a command in RUN has writes dropped. -/

namespace Sys2Proof.Proofs

open Sys2Proof.Machine Sys2Proof.Claims Sys2Proof.Laws

/-! ## Writes while BUSY (R272) and to STATUS (R274) -/

/-- A command is dropped while BUSY. -/
theorem exec_command_busy {i : Instr} {w : Word} {s : State} (hw : commandWord i = some w) (hb : s.busy = true) :
    exec i s = .next s.dropWrite := by rw [exec_command hw, command_busy _ _ _ hb]

/-- Every write but one to STATUS is dropped while BUSY, one to CMD among them. -/
theorem exec_regWrite_busy {s : State} {off : BitVec 8} (hb : s.busy = true) (ha : offsetAligned off = true)
    (hs : regAt off ≠ .status) (v : Word) : exec (.regWrite off v) s = .next s.dropWrite := by
  simp [exec, execRegWrite, ha, hs, hb]

/-- STATUS stands at 0x08 and, for aligned offsets, nowhere else (spec/10_state.md R31). -/
theorem regAt_eq_status {off : BitVec 8} (ha : offsetAligned off = true) : regAt off = .status ↔ off = 0x08 := by
  revert off; decide

/-- Settles O38: a command is a write to CMD, and every write but one to STATUS is dropped. -/
theorem writesInRunAreDropped : Obligations.WritesInRunAreDropped := by
  intro s hb
  refine ⟨fun i hi => ?_, fun w => exec_command_busy rfl hb, fun off v hoff hstatus => ?_⟩
  · have hword : ∀ i ∈ [Instr.init, .resetMode] ++ gatedCommands, commandWord i = some (wordOf i) := by decide
    exact exec_command_busy (hword i hi) hb
  · have ha : offsetAligned off = true := beq_iff_eq.2 hoff
    exact exec_regWrite_busy hb ha (mt (regAt_eq_status ha).1 hstatus) v

/-- Settles O40: a write to STATUS is served in every phase, and clears by bits 1 and 3. -/
theorem statusWriteClearsDoneAndWign : Obligations.StatusWriteClearsDoneAndWign := by
  intro s v
  have hstatus : regAt 0x08 = .status := rfl
  rw [exec_regWrite rfl, if_pos hstatus, writeStatus_eq]
  cases v.getLsbD 1 <;> cases v.getLsbD 3 <;> simp

/-! ## The register map (spec/10_state.md R31) -/

section

variable {n : Nat}

theorem regAt_key (h : n < 8) : regAt (BitVec.ofNat 8 (0x40 + 4 * n)) = .key (Fin.ofNat 8 n) := by
  revert n; decide

theorem regAt_iv (h : n < 4) : regAt (BitVec.ofNat 8 (0x60 + 4 * n)) = .iv (Fin.ofNat 4 n) := by
  revert n; decide

theorem regAt_ks (h : n < 4) : regAt (BitVec.ofNat 8 (0x70 + 4 * n)) = .ks (Fin.ofNat 4 n) := by
  revert n; decide

theorem regAt_bin (h : n < 4) : regAt (BitVec.ofNat 8 (0x80 + 4 * n)) = .bin (Fin.ofNat 4 n) := by
  revert n; decide

theorem regAt_bout (h : n < 4) : regAt (BitVec.ofNat 8 (0x90 + 4 * n)) = .bout (Fin.ofNat 4 n) := by
  revert n; decide

end

/-- CMD, KEY and the reserved offsets. -/
theorem regAt_hidden (off : BitVec 8)
    (h : off = 0x04 ∨ 0x24 ≤ off.toNat ∧ off.toNat ≤ 0x5C ∨ 0xA0 ≤ off.toNat) :
    regAt off = .cmd ∨ regAt off = .reserved ∨ ∃ n, regAt off = .key n := by
  revert off; decide

/-- SCHED, BOUT and the reserved offsets. -/
theorem regAt_readOnly (off : BitVec 8)
    (h : off = 0x0C ∨ 0x24 ≤ off.toNat ∧ off.toNat ≤ 0x3C ∨ 0x90 ≤ off.toNat) :
    regAt off = .sched ∨ regAt off = .reserved ∨ ∃ n, regAt off = .bout n := by
  revert off; decide

/-! ## What a read answers (R270) -/

/-- The lanes of register `n` of a group of `g`, as R33 writes them. -/
theorem readLanes_eq_lanes {m g n : Nat} [NeZero g] (hn : n < g) (b : Vector Byte m) :
    readLanes b (Fin.ofNat g n).val = lanes b.toList n := by
  simp only [Fin.val_ofNat, Nat.mod_eq_of_lt hn, readLanes, lanes, append_eq_or, byteAt_eq_getD]

/-- CMD, KEY and the reserved offsets read 0. -/
theorem readReg_hidden (s : State) {r : Reg} (h : r = .cmd ∨ r = .reserved ∨ ∃ n, r = .key n) : s.readReg r = 0 := by
  obtain rfl | rfl | ⟨n, rfl⟩ := h <;> rfl

/-- Settles O42: the register at the offset says what the answer is. -/
theorem regReadAnswersTheRegister : Obligations.RegReadAnswersTheRegister := by
  intro s off hoff
  have ofNat_of_toNat : ∀ {k : Nat}, off.toNat = k → off = BitVec.ofNat 8 k := fun h => by
    rw [← h, BitVec.ofNat_toNat, BitVec.setWidth_eq]
  refine ⟨s.readReg (regAt off), exec_regRead (beq_iff_eq.2 hoff) s, ?ctrl, ?_, ?_, ?_, ?_, ?_, ?_, ?_,
    fun n hn h => ?iv, fun n hn h => ?ks, fun n hn h => ?bin, fun n hn h => ?bout,
    fun h => readReg_hidden s (regAt_hidden off h)⟩
  case ctrl =>
    rintro rfl
    show s.ctrlWord = _
    rw [State.ctrlWord, bitField, BitVec.shiftLeft_zero]
  case iv =>
    rw [ofNat_of_toNat h, regAt_iv hn]
    exact readLanes_eq_lanes hn s.iv
  case ks =>
    rw [ofNat_of_toNat h, regAt_ks hn]
    exact readLanes_eq_lanes hn s.ks
  case bin =>
    rw [ofNat_of_toNat h, regAt_bin hn]
    exact readLanes_eq_lanes hn s.bin
  case bout =>
    rw [ofNat_of_toNat h, regAt_bout hn]
    exact readLanes_eq_lanes hn s.bout
  -- The other registers are fields of the state, or words of its fields.
  all_goals
    rintro rfl
    rfl

/-! ## What a write leaves (R271, R276 to R279) -/

/-- A write to a register of an idle machine, CMD and STATUS apart. -/
theorem exec_regWrite_idle {s : State} {off : BitVec 8} {r : Reg} (hb : s.busy = false) (ha : offsetAligned off = true)
    (hr : regAt off = r) (hcmd : r ≠ .cmd) (hstatus : r ≠ .status) (v : Word) :
    exec (.regWrite off v) s = .next (s.writeReg v r) := by
  subst hr
  simp [exec, execRegWrite, ha, hb, hcmd, hstatus]

/-- The offsets of a group of registers are aligned where its first is. -/
theorem offsetAligned_group {g : Nat} (hg : g % 4 = 0) (n : Nat) :
    offsetAligned (BitVec.ofNat 8 (g + 4 * n)) = true := by
  rw [offsetAligned, beq_iff_eq, BitVec.toNat_ofNat]
  omega

/-- A write of register `n` of a group of `g` replaces its four Bytes. -/
theorem lanesWritten_writeLanes {m g n : Nat} [NeZero g] (hn : n < g) (b : Vector Byte m) (v : Word) :
    LanesWritten b (writeLanes b (Fin.ofNat g n).val v) n v := by
  intro k hk
  rw [Fin.val_ofNat, Nat.mod_eq_of_lt hn, ← byteAt_eq_getD, ← byteAt_eq_getD, byteAt_writeLanes b n v hk,
    BitVec.setWidth_ushiftRight_eq_extractLsb]

/-- SCHED, BOUT and the reserved offsets ignore a write (R276). -/
theorem writeReg_readOnly (s : State) (v : Word) {r : Reg} (h : r = .sched ∨ r = .reserved ∨ ∃ n, r = .bout n) :
    s.writeReg v r = s := by
  obtain rfl | rfl | ⟨n, rfl⟩ := h <;> rfl

/-- Settles O43: the register at each offset says what the write leaves. -/
theorem regWriteSetsTheWritableBits : Obligations.RegWriteSetsTheWritableBits := by
  intro s off v hb
  refine ⟨exec_regWrite_idle (r := .ctrl) hb rfl rfl nofun nofun v,
    exec_regWrite_idle (r := .keyLen) hb rfl rfl nofun nofun v, ?_,
    exec_regWrite_idle (r := .len) hb rfl rfl nofun nofun v, exec_regWrite_idle (r := .src) hb rfl rfl nofun nofun v,
    exec_regWrite_idle (r := .dst) hb rfl rfl nofun nofun v, fun n hn => ?key, fun n hn => ?iv, fun n hn => ?ks,
    fun n hn => ?bin, fun hoff h => ?readOnly⟩
  · rw [BitVec.setWidth_eq_extractLsb' (by decide)]
    exact exec_regWrite_idle (r := .offset) hb rfl rfl nofun nofun v
  case key =>
    exact ⟨_, lanesWritten_writeLanes hn s.key v,
      exec_regWrite_idle hb (offsetAligned_group rfl n) (regAt_key hn) nofun nofun v⟩
  case iv =>
    exact ⟨_, lanesWritten_writeLanes hn s.iv v,
      exec_regWrite_idle hb (offsetAligned_group rfl n) (regAt_iv hn) nofun nofun v⟩
  case ks =>
    exact ⟨_, lanesWritten_writeLanes hn s.ks v,
      exec_regWrite_idle hb (offsetAligned_group rfl n) (regAt_ks hn) nofun nofun v⟩
  case bin =>
    exact ⟨_, lanesWritten_writeLanes hn s.bin v,
      exec_regWrite_idle hb (offsetAligned_group rfl n) (regAt_bin hn) nofun nofun v⟩
  case readOnly =>
    have hro := regAt_readOnly off h
    have hother : regAt off ≠ .cmd ∧ regAt off ≠ .status := by
      obtain hr | hr | ⟨n, hr⟩ := hro <;> rw [hr] <;> exact ⟨nofun, nofun⟩
    rw [exec_regWrite_idle hb (beq_iff_eq.2 hoff) rfl hother.1 hother.2, writeReg_readOnly s v hro]

/-! ## A read after a write (R277) -/

/-- The registers the host writes and reads whole. -/
def wholeWord : Reg → Bool
  | .keyLen | .len | .src | .dst | .iv _ | .ks _ | .bin _ => true
  | _ => false

/-- The registers of R277: CTRL, OFFSET, and whole words. -/
theorem regAt_readBack (off : BitVec 8) (hoff : off.toNat % 4 = 0)
    (h : off.toNat < 0x24 ∧ off ≠ 0x04 ∧ off ≠ 0x08 ∧ off ≠ 0x0C ∨ 0x60 ≤ off.toNat ∧ off.toNat < 0x90) :
    off = 0x00 ∨ off = 0x14 ∨ off ≠ 0x00 ∧ off ≠ 0x14 ∧ wholeWord (regAt off) = true := by
  revert off; decide

/-- The four lanes of a register are what was written to it. -/
theorem readLanes_writeLanes {m : Nat} (b : Vector Byte m) {n : Nat} (hn : 4 * n + 3 < m) (v : Word) :
    readLanes (writeLanes b n v) n = v := by
  have hlane : ∀ j < 4, byteAt (writeLanes b n v) (4 * n + j) = v.extractLsb' (8 * j) 8 := fun j hj => by
    rw [byteAt_writeLanes b n v (by omega), if_pos (by omega), show (4 * n + j) % 4 = j by omega]
  rw [readLanes, hlane 3 (by decide), hlane 2 (by decide), hlane 1 (by decide), ← Nat.add_zero (4 * n),
    hlane 0 (by decide), BitVec.extractLsb'_append_extractLsb'_eq_extractLsb' (rfl : 8 * 3 = 8 * 2 + 8),
    BitVec.extractLsb'_append_extractLsb'_eq_extractLsb' (rfl : 8 * 2 = 8 * 1 + 8),
    BitVec.extractLsb'_append_extractLsb'_eq_extractLsb' (rfl : 8 * 1 = 8 * 0 + 8)]
  exact BitVec.extractLsb'_eq_self

/-- A whole word reads as it was written. -/
theorem readReg_writeReg {r : Reg} (h : wholeWord r = true) (s : State) (v : Word) : (s.writeReg v r).readReg r = v := by
  cases r with
  | iv n => exact readLanes_writeLanes s.iv (by omega) v
  | ks n => exact readLanes_writeLanes s.ks (by omega) v
  | bin n => exact readLanes_writeLanes s.bin (by omega) v
  | keyLen | len | src | dst => rfl
  | _ => cases h

/-- `n` bits of a word from bit `k` on, put back in their place. -/
theorem extract_shiftLeft (v : Word) (k n : Nat) :
    (v.extractLsb' k n).setWidth 32 <<< k = v &&& BitVec.ofNat 32 (2 ^ n - 1) <<< k := by
  refine BitVec.eq_of_getLsbD_eq fun i hi => ?_
  simp only [BitVec.getLsbD_shiftLeft, BitVec.getLsbD_setWidth, BitVec.getLsbD_extractLsb', BitVec.getLsbD_and,
    BitVec.getLsbD_ofNat, Nat.testBit_two_pow_sub_one]
  by_cases h : i < k
  · simp [h]
  · rw [Nat.add_sub_cancel' (Nat.not_lt.1 h)]
    simp only [h, hi, show i - k < 32 by omega, decide_true, decide_false, Bool.not_false, Bool.true_and, Bool.and_comm]

/-- CTRL reads IE and CTRINC as they were written (R278). -/
theorem readReg_writeReg_ctrl (s : State) (v : Word) : (s.writeReg v .ctrl).readReg .ctrl = v &&& 0x31 := by
  have hie : bitField (v.getLsbD 0) 0 = v &&& 0x1#32 := by
    rw [bitField, BitVec.shiftLeft_zero, BitVec.and_one_eq_setWidth_ofBool_getLsbD]
  calc (s.writeReg v .ctrl).readReg .ctrl
      = bitField (v.getLsbD 0) 0 ||| (v.extractLsb' 4 2).setWidth 32 <<< 4 := rfl
    _ = (v &&& 0x1#32) ||| (v &&& 0x3#32 <<< 4) := by rw [hie, extract_shiftLeft]; rfl
    _ = v &&& 0x31 := BitVec.and_or_distrib_left.symm

/-- OFFSET reads the low four bits written (R279). -/
theorem readReg_writeReg_offset (s : State) (v : Word) : (s.writeReg v .offset).readReg .offset = v &&& 0xF := by
  show (v.extractLsb' 0 4).setWidth 32 = _
  rw [← BitVec.shiftLeft_zero ((v.extractLsb' 0 4).setWidth 32), extract_shiftLeft]
  rfl

/-- Settles O44: CTRL and OFFSET keep their fields' bits, every other register that reads back the whole word. -/
theorem readAfterWriteGivesTheWrittenBits : Obligations.ReadAfterWriteGivesTheWrittenBits := by
  intro s off v hb hoff h
  obtain rfl | rfl | ⟨h0, h14, hwhole⟩ := regAt_readBack off hoff h
  · exact ⟨_, _, exec_regWrite_idle (r := .ctrl) hb rfl rfl nofun nofun v, exec_regRead rfl _, readReg_writeReg_ctrl s v⟩
  · exact ⟨_, _, exec_regWrite_idle (r := .offset) hb rfl rfl nofun nofun v, exec_regRead rfl _,
      readReg_writeReg_offset s v⟩
  · have ha : offsetAligned off = true := beq_iff_eq.2 hoff
    have hcmd : regAt off ≠ .cmd := fun hr => by rw [hr] at hwhole; cases hwhole
    have hstatus : regAt off ≠ .status := fun hr => by rw [hr] at hwhole; cases hwhole
    refine ⟨_, _, exec_regWrite_idle hb ha rfl hcmd hstatus v, exec_regRead ha _, ?_⟩
    rw [if_neg h0, if_neg h14, readReg_writeReg hwhole]

end Sys2Proof.Proofs

/-! PROOF. While a command runs, reads give the values of its acceptance (spec/43_host_access.md R273): acceptance, and each
later step in RUN, leaves what the registers but STATUS show. -/

namespace Sys2Proof.Proofs

open Sys2Proof.Machine Sys2Proof.Claims Sys2Proof.Laws

/-! ## What the registers but STATUS show -/

/-- The registers a read other than of STATUS looks at, and the readiness bits, with the rest of the state blanked. -/
def registersOf (s : State) : State :=
  { s with
    done := false, errCode := .none, wign := false, phase := .idle, op := 0, pos := 0, mem := []
    platform := Platform.default, hostDirty := [], hostStale := [], inputs := [], stall := [], freeCount := 0
    response := .none }

theorem readReg_registersOf (s : State) {r : Reg} (h : r ≠ .status) : (registersOf s).readReg r = s.readReg r := by
  cases r with
  | status => exact absurd rfl h
  | _ => rfl

/-- Where the registers are the same, every read but one of STATUS answers the same. -/
theorem readReg_congr (s t : State) (h : registersOf t = registersOf s) (off : BitVec 8) (hoff : off.toNat / 4 ≠ 2) :
    t.readReg (regAt off) = s.readReg (regAt off) := by
  have hr : regAt off ≠ .status := by revert off; decide
  rw [← readReg_registersOf t hr, h, readReg_registersOf s hr]

/-! ## STATUS under a mask (spec/10_state.md R36) -/

theorem bitField_false (n : Nat) : bitField false n = 0#32 := BitVec.zero_shiftLeft n

theorem bitField_and (b : Bool) {n : Nat} (hn : n < 32) (m : Word) :
    bitField b n &&& m = bitField (b && m.getLsbD n) n := by
  refine BitVec.eq_of_getLsbD_eq fun i _ => ?_
  rw [BitVec.getLsbD_and, getLsbD_bitField _ _ _ hn, getLsbD_bitField _ _ _ hn]
  by_cases h : i = n <;> simp [h]

/-- A mask with no bit from 8 to 11 leaves nothing of ERRCODE. -/
theorem errCode_and (c : BitVec 4) {m : Word} (hm : m.extractLsb' 8 4 = 0) : c.setWidth 32 <<< 8 &&& m = 0#32 := by
  refine BitVec.eq_of_getLsbD_eq fun i _ => ?_
  rw [BitVec.getLsbD_and, BitVec.getLsbD_shiftLeft, BitVec.getLsbD_setWidth, BitVec.getLsbD_zero]
  by_cases h : 8 ≤ i ∧ i < 12
  · have hmask : m.getLsbD i = false := by
      have hbit := congrArg (BitVec.getLsbD · (i - 8)) hm
      simpa [show i - 8 < 4 by omega, Nat.add_sub_cancel' h.1] using hbit
    rw [hmask, Bool.and_false]
  · rcases not_and_or.1 h with h | h
    · simp [Nat.not_le.1 h]
    · simp [BitVec.getLsbD_of_ge c (i - 8) (by omega)]

/-- Such a mask leaves of STATUS the flags it covers. -/
theorem statusWord_and (s : State) {m : Word} (hm : m.extractLsb' 8 4 = 0) :
    s.statusWord &&& m = bitField (s.busy && m.getLsbD 0) 0 ||| bitField (s.done && m.getLsbD 1) 1 |||
      bitField (s.err && m.getLsbD 2) 2 ||| bitField (s.wign && m.getLsbD 3) 3 |||
      bitField (s.tablesReady && m.getLsbD 16) 16 ||| bitField (s.enc.valid && m.getLsbD 17) 17 |||
      bitField (s.dec.valid && m.getLsbD 18) 18 := by
  simp only [State.statusWord, BitVec.and_or_distrib_right, bitField_and, errCode_and _ hm, Nat.reduceLT, BitVec.or_zero]

/-- BUSY and the readiness bits, the bits of STATUS that no step in RUN changes. -/
theorem statusWord_and_kept (s : State) : s.statusWord &&& 0xFFFFF0F1 =
    bitField s.busy 0 ||| bitField (registersOf s).tablesReady 16 ||| bitField (registersOf s).enc.valid 17 |||
      bitField (registersOf s).dec.valid 18 := by
  rw [statusWord_and s rfl]
  simp [bitField_false, registersOf]

/-- BUSY, WIGN and the readiness bits, the bits of STATUS that acceptance does not clear. -/
theorem statusWord_and_accept (s : State) : s.statusWord &&& 0xFFFFF0F9 =
    bitField s.busy 0 ||| bitField s.wign 3 ||| bitField s.tablesReady 16 ||| bitField s.enc.valid 17 |||
      bitField s.dec.valid 18 := by
  rw [statusWord_and s rfl]
  simp [bitField_false]

theorem statusWord_and_kept_congr {s t : State} (h : registersOf t = registersOf s) (hb : t.busy = s.busy) :
    t.statusWord &&& 0xFFFFF0F1 = s.statusWord &&& 0xFFFFF0F1 := by
  rw [statusWord_and_kept, statusWord_and_kept, hb, h]

/-! ## Acceptance -/

/-- A launched command that leaves BUSY = 1 is in RUN as it was launched. -/
theorem launch_of_busy {s : State} {job : Job} (h : (s.launch job).busy = true) : s.launch job = inRun s job := by
  rw [launch_eq] at h ⊢
  by_cases hstall : s.stall.headD 0 = 0
  · cases ha : job.answers with
    | false => rw [inRun_unanswered s job ha, ite_self]
    | true => rw [if_pos hstall, inRun_complete s job ha, busy_of_idle (finish_phase _ job)] at h; cases h
  · rw [if_neg hstall]

/-- An instruction that makes an idle machine BUSY is an accepted command. -/
theorem exec_of_busy_after {i : Instr} {s t : State} (hw : i.wf = true) (hb : s.busy = false) (h : exec i s = .next t)
    (ht : t.busy = true) : ∃ w job, t = inRun (s.accept w) job := by
  have hidle := idle_of_not_busy hb
  have hnot : t.phase ≠ .idle := fun hp => by rw [busy_of_idle hp] at ht; cases ht
  obtain ⟨off, -, rfl⟩ | ⟨off, v, -, hwrite⟩ | ⟨w, -, hcmd⟩ := exec_cases hw h
  · exact absurd hidle hnot
  · obtain ⟨-, rfl⟩ | ⟨-, -, rfl⟩ | ⟨-, -, rfl⟩ := hwrite
    · rw [writeStatus_eq] at hnot; exact absurd hidle hnot
    · exact absurd hidle hnot
    · obtain ⟨-, -, -, -, hphase, -⟩ := writeReg_frame s v (regAt off)
      exact absurd (hphase.trans hidle) hnot
  · obtain ⟨-, rfl⟩ | ⟨-, job, rfl, -⟩ := hcmd
    · exact absurd hidle hnot
    · exact ⟨w, job, launch_of_busy ht⟩

/-- STATUS after an acceptance: BUSY rises, DONE, ERR and ERRCODE fall. -/
theorem statusWord_inRun_accept {s : State} (hb : s.busy = false) (w : Word) (job : Job) :
    (inRun (s.accept w) job).statusWord = (s.statusWord &&& 0xFFFFF0F9) ||| 0x1 := by
  have haccepted : (inRun (s.accept w) job).statusWord = 0x1#32 ||| bitField false 1 ||| bitField false 2 |||
      bitField s.wign 3 ||| 0#32 ||| bitField s.tablesReady 16 ||| bitField s.enc.valid 17 |||
      bitField s.dec.valid 18 := rfl
  rw [haccepted, statusWord_and_accept, hb]
  simp only [bitField_false, BitVec.or_zero, BitVec.zero_or]
  rw [BitVec.or_comm _ 0x1]
  simp only [BitVec.or_assoc, BitVec.ofNat_eq_ofNat]

/-! ## Later steps in RUN -/

/-- From `s` to `t` PHASE and what the registers show are kept, and a DONE, ERR and ERRCODE of 0 stay 0. -/
structure KeptInRun (s t : State) : Prop where
  phase : t.phase = s.phase
  registers : registersOf t = registersOf s
  clear : s.done = false → s.errCode = .none → t.done = false ∧ t.errCode = .none

/-- Instructions while BUSY: a read answers, a write to STATUS clears, every other write is dropped. -/
theorem keptInRun_exec {i : Instr} {s t : State} (hw : i.wf = true) (hb : s.busy = true) (h : exec i s = .next t) :
    KeptInRun s t := by
  obtain ⟨off, -, rfl⟩ | ⟨off, v, -, hwrite⟩ | ⟨w, -, hcmd⟩ := exec_cases hw h
  · exact ⟨rfl, rfl, .intro⟩
  · obtain ⟨-, rfl⟩ | ⟨-, -, rfl⟩ | ⟨-, hidle, -⟩ := hwrite
    · rw [writeStatus_eq]
      exact ⟨rfl, rfl, fun hd hc => by simp [hd, hc]⟩
    · exact ⟨rfl, rfl, .intro⟩
    · rw [hb] at hidle; cases hidle
  · obtain ⟨-, rfl⟩ | ⟨hidle, -⟩ := hcmd
    · exact ⟨rfl, rfl, .intro⟩
    · rw [hb] at hidle; cases hidle

/-- Host events while BUSY, a reset apart. -/
theorem keptInRun_serve {e : HostEvent} {s t : State} (he : e ≠ .reset) (hb : s.busy = true)
    (h : serve e s = .next t) : KeptInRun s t := by
  obtain ⟨i, hw, -, hi⟩ | ⟨r, rfl⟩ | ⟨ws, d, c, n, r, -, -, rfl⟩ | ⟨m, -, rfl⟩ | ⟨hreset, -⟩ := serve_cases h
  · obtain ⟨hphase, hregisters, hclear⟩ := keptInRun_exec (s := { s with response := .written }) hw hb hi
    exact ⟨hphase, hregisters, hclear⟩
  · exact ⟨rfl, rfl, .intro⟩
  · exact ⟨rfl, rfl, .intro⟩
  · exact ⟨rfl, rfl, .intro⟩
  · exact absurd hreset he

/-- Before an event, a command that does not complete has at most one event of its count used. -/
theorem tick_of_not_complete {s : State} {job : Job} (hphase : s.phase = .run job)
    (h : job.answers = false ∨ job.left ≠ 0) :
    ∃ n ≤ job.left, s.tick = { s with phase := .run { job with left := n } } := by
  by_cases hleft : job.left = 0
  · refine ⟨job.left, le_rfl, ?_⟩
    calc s.tick = s.complete := by simp [State.tick, hphase, hleft]
      _ = s := complete_of_unanswered hphase (h.resolve_right (not_not_intro hleft))
      _ = { s with phase := .run job } := by rw [← hphase]
  · exact ⟨job.left - 1, Nat.sub_le _ _, by simp [State.tick, hphase, hleft]⟩

/-- A step in RUN that neither completes the command nor resets keeps what the registers show. -/
theorem keptInRun_step {s t : State} {job : Job} (hphase : s.phase = .run job)
    (hrun : job.answers = false ∨ job.left ≠ 0 ∧ s.inputs ≠ []) (hreset : s.inputs.head? ≠ some .reset)
    (h : step s = .next t) : ∃ n ≤ job.left, KeptInRun { s with phase := .run { job with left := n } } t := by
  obtain ⟨hnil, rfl⟩ | ⟨e, rest, hinputs, he⟩ := step_cases h
  · have ha : job.answers = false := hrun.resolve_right fun hleft => hleft.2 hnil
    rw [complete_of_unanswered hphase ha]
    exact ⟨job.left, le_rfl, hphase, rfl, .intro⟩
  · have hnot : e ≠ .reset := by rintro rfl; exact hreset (by rw [hinputs, List.head?_cons])
    obtain ⟨n, hn, htick⟩ := tick_of_not_complete hphase (hrun.imp_right And.left)
    rw [htick] at he
    obtain ⟨hkept, hregisters, hclear⟩ := keptInRun_serve hnot rfl he
    exact ⟨n, hn, hkept, hregisters, hclear⟩

/-- Settles O39: acceptance changes no register of the window but STATUS, and there lowers DONE and ERRCODE; a later step in
RUN changes none but STATUS, where BUSY and the readiness bits stay. -/
theorem readsInRunGiveTheAcceptanceValues : Obligations.ReadsInRunGiveTheAcceptanceValues := by
  constructor
  · intro s t i hw hb h ht
    obtain ⟨w, job, rfl⟩ := exec_of_busy_after hw hb h ht
    exact ⟨readReg_congr s _ rfl, statusWord_inRun_accept hb w job⟩
  · intro s t job hphase hrun hreset h
    obtain ⟨n, hn, hkept, hregisters, hclear⟩ := keptInRun_step hphase hrun hreset h
    have hbusy : t.busy = s.busy := (busy_of_run hkept).trans (busy_of_run hphase).symm
    exact ⟨⟨n, hn, hkept⟩, readReg_congr s t hregisters, statusWord_and_kept_congr hregisters hbusy, hclear⟩

end Sys2Proof.Proofs

/-! PROOF. Errors at acceptance (spec/60_exceptions.md R293 to R297, R299, R302): a command that fails a check completes
with the first failing code and changes STATUS, OP and POS only. -/

namespace Sys2Proof.Proofs

open Sys2Proof.Machine Sys2Proof.Claims Sys2Proof.Laws

/-! ## A failed check -/

/-- Acceptance changes no operand of a check. -/
theorem checksOf_accept (i : Instr) (s : State) (w : Word) : checksOf i (s.accept w) = checksOf i s := by
  cases i <;> rfl

/-- A command whose first failing check gives `e` runs to a completion with `e`, whatever the tape. -/
theorem runs_of_error {i : Instr} {w : Word} {s : State} {e : Error} (hw : commandWord i = some w)
    (hb : s.busy = false) (he : firstError (checksOf i s) = e) (hn : e ≠ .none) :
    Runs i s w (completed s w e) := by
  have hdone : (inRun (s.accept w) { (s.accept w).workingCopies with error := e }).complete = completed s w e := by
    rw [inRun_complete _ _ (by rfl), finish_error _ _ (by exact hn), workingCopies_writes, storeAll_nil]
    rfl
  refine ⟨{ (s.accept w).workingCopies with error := e, left := s.stall.headD 0 }, rfl, rfl, hdone, ?_⟩
  rw [exec_command hw, command_error _ _ _ hb (by rwa [checksOf_accept]) hn, launch_eq, hdone]
  rfl

/-- Settles O15: the one check of a word that is no command always fails. -/
theorem illegalWordCompletesWithCodeFive : Obligations.IllegalWordCompletesWithCodeFive := by
  intro s w hb _
  exact runs_of_error rfl hb rfl (by decide)

/-! ## The checks of the gated commands, in the order of R299 -/

/-- A gated command is a write to CMD. -/
theorem commandWord_of_gated : ∀ i ∈ gatedCommands, commandWord i = some (wordOf i) := by decide

/-- A key expansion checks the tables, then KEYLEN. -/
theorem checksOf_keyExpansion {i : Instr} (hi : i ∈ [Instr.kexpEnc, .kexpDec]) (s : State) :
    checksOf i s = [s.tablesCheck, s.keyLenCheck] := by
  simp only [List.mem_cons, List.not_mem_nil, or_false] at hi
  obtain rfl | rfl := hi <;> rfl

/-- A block or mode command checks the tables, then its context. -/
theorem checksOf_context {i : Instr} (hi : i ∈ [Instr.encBlock, .decBlock] ++ modeCommands) (s : State) :
    ∃ rest, checksOf i s = s.tablesCheck :: (contextOf i s).check :: rest := by
  obtain hi | hi := List.mem_append.1 hi
  · simp only [List.mem_cons, List.not_mem_nil, or_false] at hi
    obtain rfl | rfl := hi <;> exact ⟨_, rfl⟩
  · obtain ⟨mode, hm⟩ := (mem_modeCommands_iff i).1 hi
    exact ⟨_, checksOf_mode hm s⟩

/-- The gated commands are the key expansions, and the block and mode commands. -/
theorem mem_gatedCommands {i : Instr} : i ∈ gatedCommands ↔
    i ∈ [Instr.kexpEnc, .kexpDec] ∨ i ∈ [Instr.encBlock, .decBlock] ++ modeCommands :=
  List.mem_append (s := [Instr.kexpEnc, .kexpDec])

/-- The tables are the first check of every gated command. -/
theorem checksOf_gated {i : Instr} (hi : i ∈ gatedCommands) (s : State) :
    ∃ rest, checksOf i s = s.tablesCheck :: rest := by
  obtain hi | hi := mem_gatedCommands.1 hi
  · exact ⟨_, checksOf_keyExpansion hi s⟩
  · obtain ⟨rest, hrest⟩ := checksOf_context hi s
    exact ⟨_, hrest⟩

/-- Settles O16: the first check fails. -/
theorem uninitializedTablesComesFirst : Obligations.UninitializedTablesComesFirst := by
  intro s i hi hb ht
  obtain ⟨rest, hrest⟩ := checksOf_gated hi s
  refine runs_of_error (commandWord_of_gated i hi) hb ?_ (by decide)
  rw [hrest, tablesCheck_of_not_ready ht]
  rfl

/-- KEYLEN is checked against the six lengths of R115. -/
theorem keyLenCheck_of_illegal {s : State} (h : s.keyLen.toNat ∉ [16, 24, 32, 128, 192, 256]) :
    s.keyLenCheck = .invalidKeyLength := by
  have hparams : keyParams s.keyLen = none := by
    unfold keyParams
    split <;> simp_all
  rw [State.keyLenCheck, hparams]
  rfl

/-- Settles O17: the tables pass, KEYLEN does not. -/
theorem invalidKeyLengthFailsExpansion : Obligations.InvalidKeyLengthFailsExpansion := by
  intro s i hi hb ht hk
  refine runs_of_error (commandWord_of_gated i (mem_gatedCommands.2 (.inl hi))) hb ?_ (by decide)
  rw [checksOf_keyExpansion hi, tablesCheck_of_ready ht, keyLenCheck_of_illegal hk]
  rfl

/-- Settles O18: the tables pass, the context does not, and LEN is looked at after both. -/
theorem missingScheduleFailsCommand : Obligations.MissingScheduleFailsCommand := by
  intro s i hi hb ht hc
  obtain ⟨rest, hrest⟩ := checksOf_context hi s
  refine runs_of_error (commandWord_of_gated i (mem_gatedCommands.2 (.inr hi))) hb ?_ (by decide)
  rw [hrest, tablesCheck_of_ready ht, check_of_invalid hc]
  rfl

/-- ECB and CBC are mode commands. -/
theorem modeCommands_of_block : ∀ i ∈ blockCommands, i ∈ modeCommands := by decide

/-- Settles O19: the tables and the context pass, LEN does not. -/
theorem misalignedLengthFailsBlockModes : Obligations.MisalignedLengthFailsBlockModes := by
  intro s i hi hb ht hc hl
  obtain ⟨mode, hm⟩ := (mem_modeCommands_iff i).1 (modeCommands_of_block i hi)
  refine runs_of_error (commandWord_of_modeOf hm) hb ?_ (by decide)
  rw [checksOf_mode hm, if_pos hi, tablesCheck_of_ready ht, check_of_valid hc, lengthCheck_of_misaligned hl]
  rfl

end Sys2Proof.Proofs

/-! PROOF. The interrupt output over the life of a command (spec/60_exceptions.md R300, R304, R307): it is IE and DONE, so it
falls with DONE at acceptance and acknowledgement and rises with it at completion. -/

namespace Sys2Proof.Proofs

open Sys2Proof.Machine Sys2Proof.Claims Sys2Proof.Laws

theorem irq_of_not_done {s : State} (h : s.done = false) : s.irq = false := by rw [State.irq, h, Bool.and_false]

/-- Completion makes irq the IE of the command's run. -/
theorem finish_irq (s : State) (job : Job) : (s.finish job).irq = s.ie := by
  obtain ⟨hie, -⟩ := finish_frame s job
  rw [State.irq, finish_done, Bool.and_true, hie]

/-- A command in RUN that Mem answers completes with irq at IE, whenever it does. -/
theorem complete_irq {s : State} {job : Job} (hp : s.phase = .run job) (ha : job.answers = true) :
    s.complete.irq = s.ie := by rw [complete_of_run hp ha, finish_irq]

/-- A launched command is in RUN, or Mem answered it and it is complete. -/
theorem launch_cases (s : State) (job : Job) :
    s.launch job = inRun s job ∨
      job.answers = true ∧ s.launch job = ({ s with stall := s.stall.tail } : State).finish job := by
  rw [launch_eq]
  by_cases hstall : s.stall.headD 0 = 0
  · rw [if_pos hstall]
    cases ha : job.answers with
    | false => exact .inl (inRun_unanswered s job ha)
    | true => exact .inr ⟨rfl, inRun_complete s job ha⟩
  · exact .inl (if_neg hstall)

/-- irq after the acceptance of a command: low while it runs, else IE, and IE once it completes. -/
theorem launch_accept_irq (s : State) (w : Word) (job : Job) :
    (((s.accept w).launch job).busy = true → ((s.accept w).launch job).irq = false) ∧
      (((s.accept w).launch job).busy = false → ((s.accept w).launch job).irq = s.ie) ∧
      ∀ job', ((s.accept w).launch job).phase = .run job' → job'.answers = true →
        ((s.accept w).launch job).complete.irq = s.ie := by
  obtain hl | ⟨-, hl⟩ := launch_cases (s.accept w) job <;> rw [hl]
  · exact ⟨fun _ => irq_of_not_done rfl, fun hb => (by cases hb), fun _ hp ha => complete_irq hp ha⟩
  · exact ⟨fun hb => (by cases hb), fun _ => finish_irq _ job, fun _ hp => (by cases hp)⟩

/-- Settles O48: acceptance and completion are a launch's, the acknowledgement is a write to STATUS. -/
theorem interruptFollowsCompletion : Obligations.InterruptFollowsCompletion := by
  refine ⟨fun _ => rfl, fun s t i _ hc hb h => ?_, fun s job hp ha => ⟨?_, complete_irq hp ha⟩, fun s t v hv h => ?_⟩
  · obtain ⟨w, hw⟩ := Option.isSome_iff_exists.1 hc
    rw [exec_command hw] at h
    obtain ⟨hbusy, -⟩ | ⟨-, job, rfl, -⟩ := command_cases h
    · rw [hb] at hbusy; cases hbusy
    · exact launch_accept_irq s w job
  · rw [complete_of_run hp ha]
    exact busy_of_idle (finish_phase s job)
  · rw [statusWriteClearsDoneAndWign s v] at h
    cases h
    exact irq_of_not_done (by rw [hv, Bool.not_true, Bool.and_false])

end Sys2Proof.Proofs

/-! PROOF. The step as a claim about a program sees it (spec/60_exceptions.md R303, R316): code 6 enters STATUS only by a
completion, and `Safety.claimStep` sees each, that of a command in RUN and that of a command the step accepts. -/

namespace Sys2Proof.Proofs

open Sys2Proof.Machine Sys2Proof.Claims Sys2Proof.Safety Sys2Proof.Laws

/-! ## What the step of a claim answers -/

/-- A step that is no fault for a claim is the machine's, and no command completed in it with BUS_ERROR. -/
theorem claimStep_next {s t : State} (h : claimStep s = .next t) :
    runEndsWithBusError s = false ∧ step s = .next t ∧ acceptedWithBusError s t = false := by
  unfold claimStep at h
  split at h
  next => cases h
  next hrun =>
    split at h
    next u hstep =>
      split at h
      next => cases h
      next hacc => cases h; exact ⟨Bool.eq_false_of_not_eq_true hrun, hstep, Bool.eq_false_of_not_eq_true hacc⟩
    next => cases h
    next => cases h

theorem claimStep_of_runEnds {s : State} (h : runEndsWithBusError s = true) : claimStep s = .fault .busError :=
  if_pos h

theorem claimStep_of_accepted {s t : State} (hstep : step s = .next t) (h : acceptedWithBusError s t = true) :
    claimStep s = .fault .busError := by
  simp only [claimStep, hstep, h, if_true, ite_self]

/-! ## The command in RUN -/

/-- A command in RUN that Mem answers, with code 6, and that is due in the step. -/
theorem runEndsWithBusError_iff (s : State) :
    runEndsWithBusError s = true ↔ ∃ job, s.phase = .run job ∧ job.answers = true ∧ job.error = .busError ∧
      (job.left = 0 ∨ s.inputs = []) := by
  cases hp : s.phase <;> simp [runEndsWithBusError, hp, and_assoc]

/-- Code 6 after a completion stood there before, or is the command's. -/
theorem complete_busError {s : State} (h : s.complete.errCode = .busError) :
    s.errCode = .busError ∨ ∃ job, s.phase = .run job ∧ job.answers = true ∧ job.error = .busError := by
  obtain hs | ⟨job, hp, ha, hs⟩ := complete_cases s <;> rw [hs] at h
  · exact .inl h
  · exact .inr ⟨job, hp, ha, h⟩

/-- Where no command in RUN ends with BUS_ERROR, what the sequencer does before an event puts no code 6 in STATUS. -/
theorem tick_busError {s : State} (hrun : runEndsWithBusError s = false) (h : s.tick.errCode = .busError) :
    s.errCode = .busError := by
  cases hp : s.phase with
  | idle => simpa [State.tick, hp] using h
  | run job =>
    by_cases hleft : job.left = 0
    · have htick : s.tick = s.complete := by simp [State.tick, hp, hleft]
      obtain hs | ⟨job', hp', ha, he⟩ := complete_busError (htick ▸ h)
      · exact hs
      · cases hp.symm.trans hp'
        cases hrun.symm.trans ((runEndsWithBusError_iff s).2 ⟨job, hp, ha, he, .inl hleft⟩)
    · simpa [State.tick, hp, hleft] using h

theorem complete_freeCount (s : State) : s.complete.freeCount = s.freeCount := by
  obtain hs | ⟨job, -, -, hs⟩ := complete_cases s <;> rw [hs]
  obtain ⟨-, -, -, -, -, -, -, -, -, -, -, -, -, hcount, -⟩ := finish_frame s job
  exact hcount

theorem tick_freeCount (s : State) : s.tick.freeCount = s.freeCount := by
  obtain hs | hs | ⟨job, -, hs⟩ := tick_cases s <;> rw [hs]
  exact complete_freeCount s

/-! ## The host event -/

/-- A launch takes no free-value index of its own. -/
theorem launch_freeCount (s : State) (job : Job) : (s.launch job).freeCount = s.freeCount := by
  rw [launch_eq]
  split
  · exact complete_freeCount _
  · rfl

/-- Code 6 after an instruction stood there before, or the instruction was accepted as a command (R300). -/
theorem exec_busError {i : Instr} {s t : State} (hw : i.wf = true) (h : exec i s = .next t)
    (ht : t.errCode = .busError) : s.errCode = .busError ∨ t.freeCount = s.freeCount + 1 := by
  obtain ⟨off, -, rfl⟩ | ⟨off, v, -, hwrite⟩ | ⟨w, -, hcmd⟩ := exec_cases hw h
  · exact .inl ht
  · obtain ⟨-, rfl⟩ | ⟨-, -, rfl⟩ | ⟨-, -, rfl⟩ := hwrite
    · rw [writeStatus_eq] at ht
      have hcode : (if v.getLsbD 1 then Error.none else s.errCode) = .busError := ht
      split at hcode
      · cases hcode
      · exact .inl hcode
    · exact .inl ht
    · obtain ⟨-, -, -, -, -, -, hcode, -⟩ := writeReg_frame s v (regAt off)
      exact .inl (hcode.symm.trans ht)
  · obtain ⟨-, rfl⟩ | ⟨-, job, rfl, -⟩ := hcmd
    · exact .inl ht
    · exact .inr (launch_freeCount _ job)

/-- Code 6 after a host event stood there before, or the event is an access that was accepted as a command. -/
theorem serve_busError {e : HostEvent} {s t : State} (h : serve e s = .next t) (ht : t.errCode = .busError) :
    s.errCode = .busError ∨ isAccess e = true ∧ t.freeCount = s.freeCount + 1 := by
  obtain ⟨i, hw, haccess, hi⟩ | ⟨r, rfl⟩ | ⟨ws, d, c, n, r, -, -, rfl⟩ | ⟨m, -, rfl⟩ | ⟨-, rfl⟩ := serve_cases h
  · exact (exec_busError hw hi ht).imp_right fun hcount => ⟨haccess, hcount⟩
  · exact .inl ht
  · exact .inl ht
  · exact .inl ht
  · cases ht

/-- The claim's check of a command accepted in the step, on the event served. -/
theorem acceptedWithBusError_of_served {s t : State} {e : HostEvent} {rest : List HostEvent}
    (hinputs : s.inputs = e :: rest) (he : isAccess e = true) (ht : t.errCode = .busError)
    (hcount : t.freeCount = s.freeCount + 1) : acceptedWithBusError s t = true := by
  simp [acceptedWithBusError, hinputs, he, ht, hcount]

/-- Code 6 after a step stood there before, or the claim sees the completion it came by. -/
theorem step_busError {s t : State} (h : step s = .next t) (hrun : runEndsWithBusError s = false)
    (ht : t.errCode = .busError) : s.errCode = .busError ∨ acceptedWithBusError s t = true := by
  obtain ⟨hnil, rfl⟩ | ⟨e, rest, hinputs, he⟩ := step_cases h
  · obtain hs | ⟨job, hp, ha, hj⟩ := complete_busError ht
    · exact .inl hs
    · cases hrun.symm.trans ((runEndsWithBusError_iff s).2 ⟨job, hp, ha, hj, .inr hnil⟩)
  · obtain hs | ⟨haccess, hcount⟩ := serve_busError he ht
    · exact .inl (tick_busError hrun hs)
    · exact .inr (acceptedWithBusError_of_served hinputs haccess ht (hcount.trans (congrArg (· + 1) (tick_freeCount s))))

/-! ## A command accepted in the step -/

/-- A mode command that meets a bus error and no missing answer, and that the tape completes at once, leaves code 6 and
has taken a free-value index. -/
theorem exec_mode_busError {i : Instr} {s : State} (hi : i ∈ modeCommands) (ha : Accepts i s)
    (htape : s.stall.headD 0 = 0) (ho : NoPartialOverlap s) (hv : StoresVisible s) (hd : ¬ ReachesDevice s)
    (hn : ¬ CanMeet i s .never) (hb : Meets s .busError) :
    ∃ t, exec i s = .next t ∧ t.errCode = .busError ∧ t.freeCount = s.freeCount + 1 := by
  obtain ⟨mode, hm⟩ := (mem_modeCommands_iff i).1 hi
  obtain ⟨job, -, -, -, hexec⟩ :=
    runs_busErrorDone hm ha (dmaEffect_of_busError (mode := mode) (s := s.accept (wordOf i)) ho hv hd hn hb)
  rw [if_pos htape] at hexec
  exact ⟨_, hexec, rfl, rfl⟩

/-- An idle machine has nothing to do before an event. -/
theorem tick_of_idle {s : State} (h : s.phase = .idle) : s.tick = s := by simp [State.tick, h]

theorem wf_of_modeCommands : ∀ i ∈ modeCommands, i.wf = true := by decide

/-- Settles O60: the command due in the step, the command accepted in it, and that code 6 comes by no other way. -/
theorem claimStepFaultsOnBusErrorCompletion : Obligations.ClaimStepFaultsOnBusErrorCompletion := by
  refine ⟨fun s job hp ha he hdue => ?_, fun s i rest hi ha hinputs htape ho hv hd hn hb => ?_, fun s t h => ?_⟩
  · exact claimStep_of_runEnds ((runEndsWithBusError_iff s).2 ⟨job, hp, ha, he, hdue⟩)
  · have hstep : step s = exec i { s with inputs := rest, response := .written } := by
      rw [stepRunsTheDecodedInstruction s _ rest i hinputs
        (decodeOfEncodeIsTheInstruction i (wf_of_modeCommands i hi)), tick_of_idle (idle_of_not_busy ha.idle)]
    obtain ⟨t, hexec, hcode, hcount⟩ :=
      exec_mode_busError (s := { s with inputs := rest, response := .written }) hi
        ⟨ha.idle, ha.tables, ha.context, ha.length⟩ htape ho hv hd hn hb
    exact claimStep_of_accepted (hstep.trans hexec) (acceptedWithBusError_of_served hinputs rfl hcode hcount)
  · obtain ⟨hrun, hstep, hacc⟩ := claimStep_next h
    refine ⟨hstep, fun ht => (step_busError hstep hrun ht).resolve_right ?_⟩
    rw [hacc]
    exact Bool.false_ne_true

end Sys2Proof.Proofs

/-! PROOF. The life of a command in RUN (spec/70_reset_and_hazards.md R330 to R333, R346): it completes by itself or under a
host that polls STATUS, waits where Mem never answers, and is abandoned at a reset. -/

namespace Sys2Proof.Proofs

open Sys2Proof.Machine Sys2Proof.Claims Sys2Proof.Laws

/-! ## The step without a host event -/

theorem step_of_no_inputs {s : State} (h : s.inputs = []) : step s = .next s.complete := by rw [step, h]

/-- Settles O6: the step is the completion, which an idle machine does not have. -/
theorem stepWithoutEventsCompletesOrWaits : Obligations.StepWithoutEventsCompletesOrWaits := by
  refine fun s hinputs => ⟨fun job hphase ha => ?_, fun hb => ?_⟩
  · refine ⟨s.finish job, ?_, busy_of_idle (finish_phase s job), finish_done s job, finish_errCode s job⟩
    rw [step_of_no_inputs hinputs, complete_of_run hphase ha]
  · rw [step_of_no_inputs hinputs, complete_of_idle (idle_of_not_busy hb)]

/-! ## Polling STATUS -/

/-- A run begins with its first step. -/
theorem reaches_of_step {n : Nat} {s u t : State} (hstep : step s = .next u) (h : Reaches n u t) :
    Reaches (n + 1) s t := by
  have hcore : Sys2Proof.core.step s = .next u := hstep
  simp only [Reaches, Host.Core.run, hcore]
  exact h

/-- The step of a poll reads STATUS after what the sequencer does before the event. -/
theorem step_poll {s : State} {rest : List HostEvent} (h : s.inputs = .transaction 0x00800000000 :: rest) :
    step s = .next { s.tick with inputs := rest, response := .data s.tick.statusWord } := by
  obtain ⟨-, -, -, -, -, -, hdecode⟩ := writtenOutWordsDecode
  rw [stepRunsTheDecodedInstruction s _ rest _ h hdecode, exec_regRead rfl]
  rfl

/-- A poll whose command has no event left in RUN sees it complete. -/
theorem step_poll_of_due {s : State} {job : Job} {rest : List HostEvent} (hphase : s.phase = .run job)
    (ha : job.answers = true) (hleft : job.left = 0) (hinputs : s.inputs = .transaction 0x00800000000 :: rest) :
    ∃ t v, step s = .next t ∧ t.inputs = rest ∧ t.response = .data v ∧ v.getLsbD 0 = false ∧ v.getLsbD 1 = true := by
  have htick : s.tick = s.finish job := by
    rw [← complete_of_run hphase ha]
    simp [State.tick, hphase, hleft]
  obtain ⟨hbusy, hdone, -⟩ := statusWord_flags (s.finish job)
  exact ⟨_, _, htick ▸ step_poll hinputs, rfl, rfl, hbusy.trans (busy_of_idle (finish_phase s job)),
    hdone.trans (finish_done s job)⟩

/-- A poll whose command has events left in RUN sees it run, and uses one of them. -/
theorem step_poll_of_left {s : State} {job : Job} {k : Nat} {rest : List HostEvent} (hphase : s.phase = .run job)
    (hleft : job.left = k + 1) (hinputs : s.inputs = .transaction 0x00800000000 :: rest) :
    ∃ u v, step s = .next u ∧ u.phase = .run { job with left := k } ∧ u.inputs = rest ∧ u.response = .data v ∧
      v.getLsbD 0 = true := by
  have htick : s.tick = { s with phase := .run { job with left := k } } := by simp [State.tick, hphase, hleft]
  exact ⟨_, _, htick ▸ step_poll hinputs, rfl, rfl, rfl, (statusWord_flags _).1.trans (busy_of_run rfl)⟩

/-- Settles O7, by induction on the count of events left in RUN: at 0 the poll sees the completion, else it sees BUSY and
leaves one event fewer. -/
theorem pollingSeesTheCompletion : Obligations.PollingSeesTheCompletion := by
  intro s job rest hphase ha hinputs
  induction hleft : job.left generalizing s job with
  | zero =>
    rw [hleft] at hinputs
    obtain ⟨t, v, hstep, hseen⟩ := step_poll_of_due hphase ha hleft hinputs
    exact ⟨fun n hn => absurd hn n.not_lt_zero, t, v, reaches_of_step hstep rfl, hseen⟩
  | succ k ih =>
    rw [hleft] at hinputs
    obtain ⟨u, v, hstep, hrun, hqueue, hseen⟩ := step_poll_of_left hphase hleft hinputs
    obtain ⟨hearlier, t, w, hreach, hlast⟩ := ih u { job with left := k } hrun ha hqueue rfl
    refine ⟨fun n hn => ?_, t, w, reaches_of_step hstep hreach, hlast⟩
    cases n with
    | zero => exact ⟨u, v, reaches_of_step hstep rfl, hseen⟩
    | succ n =>
      obtain ⟨t', w', hreach', hseen'⟩ := hearlier n (Nat.lt_of_succ_lt_succ hn)
      exact ⟨t', w', reaches_of_step hstep hreach', hseen'⟩

/-! ## A Mem that never answers -/

/-- Where the command can meet both a bus error and a missing answer, a free value says which ends its DMA. -/
theorem dmaEffect_of_both {mode needs} {s : State} (ho : s.rangesOverlap = false) (hv : s.hostCacheHazard = false)
    (hd : s.deviceInRange = false) (hn : s.canMeet (needs s) .never = true)
    (hb : s.canMeet (needs s) .busError = true) :
    dmaEffect mode needs s =
      if Config.freeBool s.freeCount s.len.toNat = true then
        .next { s.modeJob (mode s) with
          writes := s.issuableWrites (needs s) (s.modeJob (mode s)).writes, answers := false }
      else .next (s.busErrorJob (s.issuableWrites (needs s) (s.modeJob (mode s)).writes)) := by
  simp [dmaEffect, ho, hv, hd, hn, hb]

/-- The DMA of a command that meets a missing answer waits for it, or ends with a bus error the command can meet
(spec/20_memory.md R91). -/
theorem dmaEffect_of_never {i : Instr} {mode} {s : State} (ho : NoPartialOverlap s) (hv : StoresVisible s)
    (hd : ¬ ReachesDevice s) (hn : Meets s .never) :
    (∃ job, dmaEffect mode (needsOf i) s = .next job ∧ job.answers = false) ∨
      CanMeet i s .busError ∧ dmaEffect mode (needsOf i) s =
        .next (s.busErrorJob (s.issuableWrites (needsOf i s) (s.outputWrites (modeRun mode s).2))) := by
  rw [noPartialOverlap_iff] at ho
  rw [storesVisible_iff] at hv
  rw [reachesDevice_iff, Bool.not_eq_true] at hd
  cases hbus : s.canMeet (needsOf i s) .busError with
  | false =>
    exact .inl ⟨_, dmaEffect_never ho hv hd (canMeet_of_answer hd hbus (fun a => by cases a <;> simp) hn) hbus, rfl⟩
  | true =>
    have hcan := canMeet_of_canMeet_needs hbus
    cases hnever : s.canMeet (needsOf i s) .never with
    | false => exact .inr ⟨hcan, dmaEffect_busError ho hv hd hnever hbus⟩
    | true =>
      rw [dmaEffect_of_both ho hv hd hnever hbus]
      split
      · exact .inl ⟨_, rfl, rfl⟩
      · exact .inr ⟨hcan, rfl⟩

/-- An accepted mode command whose DMA waits for a missing answer stays in RUN. -/
theorem waitsForEver_of_dmaEffect {i : Instr} {mode} {s : State} {job : Job} (hm : modeOf i = some mode)
    (ha : Accepts i s) (h : dmaEffect mode (needsOf i) (s.accept (wordOf i)) = .next job) (hn : job.answers = false) :
    WaitsForEver i s := by
  refine ⟨inRun (s.accept (wordOf i)) job, _, ?_, rfl, hn⟩
  have hlaunch : (s.accept (wordOf i)).launch job = inRun (s.accept (wordOf i)) job := by
    rw [launch_eq, inRun_unanswered _ _ hn, ite_self]
  rw [exec_of_accepts hm ha, command_effect _ _ _ ha.idle rfl, h, ← hlaunch]

/-- Acceptance changes no write a stopped command can have performed. -/
theorem issuableWrites_accept {i : Instr} {mode} (hm : modeOf i = some mode) (s : State) (w : Word) :
    (s.accept w).issuableWrites (needsOf i (s.accept w)) ((s.accept w).outputWrites (modeRun mode (s.accept w)).2) =
      s.issuableWrites (needsOf i s) (s.outputWrites (modeRun mode s).2) := by
  rw [modeRun, modeOf_accept hm, needsOf_accept]
  rfl

/-- An accepted mode command whose DMA ends with a bus error leaves what R222 and R303 say, since the writes performed are
some of the issuable ones. -/
theorem endsWithBusError_of_dmaEffect {i : Instr} {mode} {s : State} (hm : modeOf i = some mode) (ha : Accepts i s)
    (hmem : s.mem.wf = true)
    (h : dmaEffect mode (needsOf i) (s.accept (wordOf i)) = .next ((s.accept (wordOf i)).busErrorJob
      (s.issuableWrites (needsOf i s) (s.outputWrites (modeRun mode s).2)))) : EndsWithBusError i s :=
  endsWithBusError_of_runs hm ha hmem (fun _ => mem_someWrites)
    (Nat.le_of_lt_succ (Nat.mod_lt _ (Nat.succ_pos _))) (runs_busErrorDone hm ha h)

/-- A mode command that meets a missing answer stays in RUN, or ends with a bus error it can meet. -/
theorem waits_or_endsWithBusError {i : Instr} {s : State} (hi : i ∈ modeCommands) (ha : Accepts i s)
    (ho : NoPartialOverlap s) (hv : StoresVisible s) (hd : ¬ ReachesDevice s) (hn : Meets s .never) :
    WaitsForEver i s ∨ CanMeet i s .busError ∧ (s.mem.wf = true → EndsWithBusError i s) := by
  obtain ⟨mode, hm⟩ := (mem_modeCommands_iff i).1 hi
  obtain ⟨job, heffect, hanswers⟩ | ⟨hcan, heffect⟩ :=
    dmaEffect_of_never (i := i) (mode := mode) (s := s.accept (wordOf i)) ho hv hd hn
  · exact .inl (waitsForEver_of_dmaEffect hm ha heffect hanswers)
  · rw [issuableWrites_accept hm] at heffect
    exact .inr ⟨hcan, fun hmem => endsWithBusError_of_dmaEffect hm ha hmem heffect⟩

/-- Settles O36: the command waits or ends with a bus error, the second only where it can meet one; and no step in RUN but
a reset ends the wait. -/
theorem unansweredCommandStaysInRun : Obligations.UnansweredCommandStaysInRun := by
  refine ⟨fun s i hi ha ho hv hd hb hn => ?_, fun s i hi ha hmem ho hv hd _ hn => ?_,
    fun s t job hphase hanswers hreset h => ?_⟩
  · exact (waits_or_endsWithBusError hi ha ho hv hd hn).resolve_right fun hends => hb hends.1
  · exact (waits_or_endsWithBusError hi ha ho hv hd hn).imp_right fun hends => hends.2 hmem
  · obtain ⟨n, -, hkept⟩ := keptInRun_step hphase (.inl hanswers) hreset h
    exact ⟨_, hkept.phase, hanswers⟩

/-! ## The reset input -/

theorem applyReset_mem_of_idle {s : State} (h : s.phase = .idle) : s.applyReset.mem = s.mem := by
  simp only [State.applyReset, h]

/-- A reset performs some of the writes of the command it abandons (R331). -/
theorem applyReset_mem_of_run {s : State} {job : Job} (h : s.phase = .run job) :
    s.applyReset.mem = s.mem.setAll (someWrites (s.freeCount + 1) job.writes) := by
  simp only [State.applyReset, h, storeAll_mem]

/-- A Byte after a reset in RUN is old, or the one a write of the abandoned command gives. -/
theorem applyReset_byte_cases {s : State} {job : Job} (hmem : s.mem.wf = true) (h : s.phase = .run job) (a : Word) :
    s.applyReset.byte a = s.byte a ∨ ∃ b, (a, b) ∈ job.writes ∧ s.applyReset.byte a = b := by
  rw [State.byte, State.byte, applyReset_mem_of_run h]
  exact (get_setAll_cases hmem _ a).imp_right fun ⟨b, hb, hnew⟩ => ⟨b, mem_someWrites hb, hnew⟩

/-- Settles O46: the registers are those of the reset state, memory is as the abandoned command leaves it. -/
theorem resetInputClearsTheRegisters : Obligations.ResetInputClearsTheRegisters :=
  fun s hmem => ⟨s.applyReset, rfl, rfl, rfl, fun hb => applyReset_mem_of_idle (idle_of_not_busy hb),
    fun _ hphase a => applyReset_byte_cases hmem hphase a⟩

end Sys2Proof.Proofs
